-- ==== Sys2Proof/Word.lean ====
section
/-! DEFINITION. The word types of the core: every memory access moves one byte (R59), the nibble is 4 bits (R7). -/

namespace Sys2Proof

/-- A byte of `IN` or `OUT`; bit 7 is its most significant bit (R8). -/
abbrev Byte := BitVec 8

/-- The 4-bit nibble field (R7, R87). -/
abbrev Nibble := BitVec 4

end Sys2Proof
end

