-- ==== Sys2Proof/Config.lean ====
section
/-! DEFINITION. What one implementation fixes (the parameters of R7) and the free values: what the spec leaves
unspecified and the model leaves open, as constants without a body. -/

namespace Sys2Proof

/-- The implementation parameters of R7. `inCap` and `outCap` are OPEN there (D4, D5); the others have the defaults
of its table. A model takes each as an argument, so they are data, fixed for a machine: no step changes them. -/
structure Config where
  /-- `GAMMA_W`: width of the gamma accumulator (D3). -/
  gammaW : Nat := 32
  /-- `IN_CAP`: size of the input memory in bytes (D5). -/
  inCap  : Nat
  /-- `OUT_CAP`: size of the output memory in bytes (D4). -/
  outCap : Nat
  /-- `BUMP_A`, `BUMP_B`, `BUMP_C`: the length-bump thresholds of R170 (I5). -/
  bumpA  : Nat := 32000
  bumpB  : Nat := 1280
  bumpC  : Nat := 128
  deriving DecidableEq, Repr

namespace Config

/-- `OFF_W = GAMMA_W + 8` (R7). -/
def offW (c : Config) : Nat := c.gammaW + 8

/-- `LEN_W = GAMMA_W + 1` (R7). -/
def lenW (c : Config) : Nat := c.gammaW + 1

/-- The least `w` with `n < 2^w`: how R7 derives `IN_AW` and `OUT_AW`. -/
def addrWidth (n : Nat) : Nat := if n = 0 then 0 else Nat.log2 n + 1

/-- `IN_AW` (R7). -/
def inAw (c : Config) : Nat := addrWidth c.inCap

/-- `OUT_AW` (R7). -/
def outAw (c : Config) : Nat := addrWidth c.outCap

/-- The accumulator can hold the smallest gamma value, 2 (R121). DEDUCED, log 19. -/
abbrev wf (c : Config) : Prop := 2 ≤ c.gammaW

/-- The parameters of `State.reset`: the defaults of R7, and 65536 for the two OPEN capacities.
DESIGN CHOICE, log 2: unsafe for a claim that uses the two capacities; the model's statements take any `Config`. -/
def standard : Config := { inCap := 65536, outCap := 65536 }

/-- The working registers of R28 and R200. -/
inductive WorkReg where
  | gAcc | off | len | raw | cnt | nibCnt | gsel | mode | high | ovalid | nib
  deriving DecidableEq, Repr

/-- FREE VALUE (I3, log 5): what a working register holds outside a token, at the `draw`-th such point. Its user
cuts it to the register's width. -/
opaque freeWork : WorkReg → (draw : Nat) → Nat

/-- FREE VALUE (log 7): what a byte of `IN` that nothing has written holds. -/
opaque unwrittenIn : (index : Nat) → Byte

/-- FREE VALUE (I1, log 7): what a byte of `OUT` that nothing has written holds. -/
opaque unwrittenOut : (index : Nat) → Byte

/-- FREE VALUE (I8, R261, log 8): what a byte of `OUT` holds after a reset that abandons a decode. -/
opaque abandonedOut : (draw : Nat) → (index : Nat) → Byte

/-- FREE VALUE (I1, I2, R52, R53, log 13, log 25): what the host finds in a byte of `OUT` that is no byte of a result,
where the memory list holds `held`. -/
opaque noResultOut : (draw : Nat) → (index : Nat) → (held : Byte) → Byte

end Config
end Sys2Proof
end

