-- ==== Sys2Proof/Syntax.lean ====
section
/-! DEFINITION. The eight tokens of R13, one constructor per row of spec/opcode_table.json, with the operand fields
of R81. -/

namespace Sys2Proof

/-- A token (R11, R13). Gamma values are unsigned integers; `GAMMA_W` bounds them (R120), which WellFormed checks. -/
inductive Instr where
  /-- `INIT [L]` (R162). -/
  | init (l : Byte)
  /-- `LIT 0 [L]` (R163). -/
  | lit (l : Byte)
  /-- `GMATCH 1 0 γG [LO] γN` (R167). -/
  | gmatch (g : Nat) (lo : Byte) (n : Nat)
  /-- `REPMATCH 1 0 0 0 γN` (R175). -/
  | repmatch (n : Nat)
  /-- `SMATCH 1 1 0 [R]` with `R[7:1]` not 0 (R179). -/
  | smatch (raw : Byte)
  /-- `END 1 1 0 [R]` with `R[7:1] = 0` (R183). -/
  | endMark (raw : Byte)
  /-- `NMATCH 1 1 1 n3 n2 n1 n0` with a nibble that is not 0 (R185). -/
  | nmatch (nib : Nibble)
  /-- `ZLIT 1 1 1 0 0 0 0` (R186). -/
  | zlit
  deriving DecidableEq, Repr

end Sys2Proof
end

