-- ==== Sys2Proof/WellFormed.lean ====
section
/-! DEFINITION. Which terms of `Instr` a bit sequence can stand for (R81, R82), and under which `lwm` (R89). -/

namespace Sys2Proof

/-- A value a gamma field can hold with a `w`-bit accumulator: 2 to `2^w - 1` (R121, R122). -/
def gammaFits (w v : Nat) : Bool := decide (2 ≤ v) && decide (v < 2 ^ w)

namespace Instr

/-- The operands lie in the ranges of R81: gamma fields of `w` bits, and the selection conditions of `SMATCH`, `END`
and `NMATCH` on their own field. -/
def wf (w : Nat) : Instr → Bool
  | .init _ => true
  | .lit _ => true
  | .gmatch g _ n => gammaFits w g && gammaFits w n
  | .repmatch n => gammaFits w n
  | .smatch raw => raw.extractLsb' 1 7 != 0#7
  | .endMark raw => raw.extractLsb' 1 7 == 0#7
  | .nmatch nib => nib != 0#4
  | .zlit => true

/-- The part of R81's selection condition that names `lwm` (R89): with `lwm = 0` the gamma value 2 selects `REPMATCH`,
with `lwm = 1` every gamma value selects `GMATCH`. -/
def selectedUnder (lwm : Bool) : Instr → Bool
  | .init _ => true
  | .lit _ => true
  | .gmatch g _ _ => lwm || g != 2
  | .repmatch _ => !lwm
  | .smatch _ => true
  | .endMark _ => true
  | .nmatch _ => true
  | .zlit => true

/-- A token of the loop: every token but `INIT`, which runs once before the loop (R160, R162). -/
def inLoop : Instr → Bool
  | .init _ => false
  | .lit _ => true
  | .gmatch _ _ _ => true
  | .repmatch _ => true
  | .smatch _ => true
  | .endMark _ => true
  | .nmatch _ => true
  | .zlit => true

/-- `lwm` after the token has run, from its value before (R25, R41). -/
def lwmAfter (lwm : Bool) : Instr → Bool
  | .init _ => lwm
  | .lit _ => false
  | .gmatch _ _ _ => true
  | .repmatch _ => true
  | .smatch _ => true
  | .endMark _ => true
  | .nmatch _ => false
  | .zlit => false

end Instr

/-- A list of loop tokens that can follow each other, from a given `lwm`: each is well formed and selected under the
`lwm` the one before it left (R89, R166). -/
def streamWf (w : Nat) : Bool → List Instr → Bool
  | _, [] => true
  | lwm, i :: is => i.inLoop && i.wf w && i.selectedUnder lwm && streamWf w (i.lwmAfter lwm) is

end Sys2Proof
end

