-- ==== Sys2Proof/Decode.lean ====
section
/-! DEFINITION. The bit reader (R100 to R106), the gamma decoder (R120 to R125) and the token decoder (R161), over any
source of input bytes; and after them the encoder, written from the formats of R81 to R83.

The stream interleaves tag bytes and raw bytes (R106), so a decoder reads from a `Cursor`: the input position and what
is left of the current tag. -/

namespace Sys2Proof

/-- The four error kinds of R230, with the values each `raise` names. -/
inductive ErrorKind where
  /-- An input read found `in_ptr = in_len` (R101, R104). -/
  | truncatedInput (inPtr : Nat)
  /-- The offset of a back-reference is none, 0 or more than `out_len` (R143). -/
  | invalidBackRef (off outLen : Nat)
  /-- An append found `out_len = OUT_CAP` (R140). -/
  | outputOverflow (outLen : Nat)
  /-- A gamma value does not fit in `GAMMA_W` bits (R120, R123). -/
  | gammaOverflow (inPtr : Nat)
  deriving DecidableEq, Repr

/-- What the decoder reads: `len` input bytes. `byte a` is the byte at index `a`; `none` where the input memory has
no index `a`. -/
structure Source where
  len  : Nat
  byte : Nat → Option Byte

/-- The bit reader's state (R100): `in_ptr` (R21), `tag` (R22), `bitcount` (R23). -/
structure Cursor where
  inPtr    : Nat
  tag      : Byte
  bitcount : BitVec 3
  deriving DecidableEq, Repr

/-- The outcome of a read: a value, an error kind, or an index that the input memory does not have. An error keeps the
cursor it was raised at (R103, R237). -/
inductive Read (α : Type) where
  | got (a : α) (c : Cursor)
  | raised (e : ErrorKind) (c : Cursor)
  | noByte (index : Nat)
  deriving DecidableEq, Repr

/-- Statements run in order; a `raise` ends the token at once (R9). -/
def Read.bind {α β : Type} : Read α → (α → Cursor → Read β) → Read β
  | .got a c, k => k a c
  | .raised e c, _ => .raised e c
  | .noByte a, _ => .noByte a

/-- `NextBit()` (R101): refill on demand (R102), most significant bit first (R54). -/
def readBit (src : Source) (c : Cursor) : Read Bool :=
  if c.bitcount = 0#3 then
    if c.inPtr = src.len then .raised (.truncatedInput c.inPtr) c
    else
      match src.byte c.inPtr with
      | none => .noByte c.inPtr
      | some b => .got (b.getLsbD 7) { inPtr := c.inPtr + 1, tag := b <<< 1, bitcount := 7#3 }
  else .got (c.tag.getLsbD 7) { c with tag := c.tag <<< 1, bitcount := c.bitcount - 1#3 }

/-- `NextByte()` (R104): `tag` and `bitcount` untouched. -/
def readByte (src : Source) (c : Cursor) : Read Byte :=
  if c.inPtr = src.len then .raised (.truncatedInput c.inPtr) c
  else
    match src.byte c.inPtr with
    | none => .noByte c.inPtr
    | some b => .got b { c with inPtr := c.inPtr + 1 }

/-- `v <- (v << 1) | b` (R55), on unbounded integers. -/
def shiftIn (v : Nat) (b : Bool) : Nat := 2 * v + b.toNat

/-- `ReadBits(n)` (R105) from the bits `v` already read. -/
def readBits (src : Source) : Nat → Nat → Cursor → Read Nat
  | 0, v, c => .got v c
  | n + 1, v, c => (readBit src c).bind fun b c => readBits src n (shiftIn v b) c

/-- The top bit of the gamma accumulator, `g_acc[GAMMA_W-1]` (R120, R123). -/
def gammaFull (w acc : Nat) : Bool := acc.testBit (w - 1)

/-- The loop of `Gamma()` (R120) with accumulator `acc`. After `GAMMA_W` passes the accumulator is always full (R123),
so `GAMMA_W` passes of fuel are enough and the first case answers no run (log 19). -/
def gammaLoop (src : Source) (w : Nat) : Nat → Nat → Cursor → Read Nat
  | 0, _, c => .raised (.gammaOverflow c.inPtr) c
  | fuel + 1, acc, c =>
    (readBit src c).bind fun b c =>
      if gammaFull w acc then .raised (.gammaOverflow c.inPtr) c
      else (readBit src c).bind fun more c =>
        if more then gammaLoop src w fuel (shiftIn acc b) c else .got (shiftIn acc b) c

/-- `Gamma()` (R120), with a `w`-bit accumulator. -/
def readGamma (src : Source) (w : Nat) (c : Cursor) : Read Nat := gammaLoop src w w 1 c

/-- The first action of a decode (R160, R162): the raw byte of `INIT`. -/
def decodeInit (src : Source) (c : Cursor) : Read Instr :=
  (readByte src c).bind fun l c => .got (.init l) c

/-- The branch `1 0` (R166): `G`, then `REPMATCH` (R175) or `GMATCH` (R167) by `lwm` and `G`, with its operand
fields. -/
def decodeGammaBranch (src : Source) (w : Nat) (lwm : Bool) (c : Cursor) : Read Instr :=
  (readGamma src w c).bind fun g c =>
    if lwm = false ∧ g = 2 then (readGamma src w c).bind fun n c => .got (.repmatch n) c
    else
      (readByte src c).bind fun lo c =>
        (readGamma src w c).bind fun n c => .got (.gmatch g lo n) c

/-- The branch `1 1 0` (R178): the raw byte selects `SMATCH` or `END`. -/
def decodeShortBranch (src : Source) (c : Cursor) : Read Instr :=
  (readByte src c).bind fun raw c =>
    if raw.extractLsb' 1 7 = 0#7 then .got (.endMark raw) c else .got (.smatch raw) c

/-- The branch `1 1 1`: four nibble bits select `NMATCH` or `ZLIT` (R161, R185, R186). -/
def decodeNibbleBranch (src : Source) (c : Cursor) : Read Instr :=
  (readBits src 4 0 c).bind fun v c =>
    if BitVec.ofNat 4 v = 0#4 then .got .zlit c else .got (.nmatch (BitVec.ofNat 4 v)) c

/-- `Token()` (R161): up to three control bits select the token, and every operand of a token is read before the first
output access it makes (R163, R167, R175, R179, R185), so the whole token can be read first. Total: it answers a token,
or says by name why there is none. -/
def decodeToken (src : Source) (w : Nat) (lwm : Bool) (c : Cursor) : Read Instr :=
  (readBit src c).bind fun b1 c =>
    if b1 = false then (readByte src c).bind fun l c => .got (.lit l) c
    else
      (readBit src c).bind fun b2 c =>
        if b2 = false then decodeGammaBranch src w lwm c
        else
          (readBit src c).bind fun b3 c =>
            if b3 = false then decodeShortBranch src c else decodeNibbleBranch src c

/-- `n` tokens in a row, `lwm` carried from each to the next (R25, R166). -/
def decodeTokens (src : Source) (w : Nat) : Nat → Bool → Cursor → Read (List Instr)
  | 0, _, c => .got [] c
  | n + 1, lwm, c =>
    (decodeToken src w lwm c).bind fun i c =>
      (decodeTokens src w n (i.lwmAfter lwm) c).bind fun is c => .got (i :: is) c

/-- A list of bytes as a source. -/
def Source.ofList (bs : List Byte) : Source := { len := bs.length, byte := fun a => bs[a]? }

/-- The cursor of a decode's start: the tag buffer is empty (R38). -/
def Cursor.start : Cursor := { inPtr := 0, tag := 0#8, bitcount := 0#3 }

/-! ### The encoder -/

/-- One field of a token in stream order (R81): a bit that `NextBit` reads, or a raw byte that `NextByte` reads. -/
inductive Field where
  | bit (b : Bool)
  | byte (v : Byte)
  deriving DecidableEq, Repr

/-- Pairs `j = k .. 1` of R82 for the value `v`: data bit `k-j` of `v`, then 1 while pairs follow. -/
def gammaPairs (v : Nat) : Nat → List Field
  | 0 => []
  | k + 1 => .bit (v.testBit k) :: .bit (k != 0) :: gammaPairs v k

/-- The gamma2 field of a value `v >= 2` (R82): `floor(log2 v)` pairs; the leading 1 bit is not sent. -/
def gammaField (v : Nat) : List Field := gammaPairs v (Nat.log2 v)

/-- The nibble field `n3 n2 n1 n0` (R81, R87). -/
def nibbleField (n : Nibble) : List Field :=
  [.bit (n.getLsbD 3), .bit (n.getLsbD 2), .bit (n.getLsbD 1), .bit (n.getLsbD 0)]

/-- The format of each token (R81): control bits B1 B2 B3, then operand fields, in stream order. -/
def fieldsOf : Instr → List Field
  | .init l => [.byte l]
  | .lit l => [.bit false, .byte l]
  | .gmatch g lo n => .bit true :: .bit false :: (gammaField g ++ .byte lo :: gammaField n)
  | .repmatch n => .bit true :: .bit false :: .bit false :: .bit false :: gammaField n
  | .smatch raw => [.bit true, .bit true, .bit false, .byte raw]
  | .endMark raw => [.bit true, .bit true, .bit false, .byte raw]
  | .nmatch nib => .bit true :: .bit true :: .bit true :: nibbleField nib
  | .zlit => .bit true :: .bit true :: .bit true :: nibbleField 0#4

/-- The bits among the fields, in order. -/
def bitsOf : List Field → List Bool
  | [] => []
  | .bit b :: fs => b :: bitsOf fs
  | .byte _ :: fs => bitsOf fs

/-- `n` bits, most significant first, zero bits below where the list ends (R54). -/
def packBits : Nat → List Bool → Nat
  | 0, _ => 0
  | _ + 1, [] => 0
  | n + 1, b :: bs => b.toNat * 2 ^ n + packBits n bs

/-- The bytes of a field list, when `room` bits of the current tag are not yet taken: a tag byte stands where the
decoder first needs a bit from it, a raw byte where the decoder asks for it (R80, R102, R106). -/
def layout : Nat → List Field → List Byte
  | _, [] => []
  | room, .byte v :: fs => v :: layout room fs
  | 0, .bit b :: fs => BitVec.ofNat 8 (packBits 8 (b :: bitsOf fs)) :: layout 7 fs
  | room + 1, .bit _ :: fs => layout room fs

/-- The bytes of one token that starts at a fresh tag; the tag's bits below the token's are 0. -/
def encode (i : Instr) : List Byte := layout 0 (fieldsOf i)

/-- The bytes of a whole stream: `INIT`'s literal, then the tokens (R80). -/
def encodeStream (is : List Instr) : List Byte := layout 0 (is.flatMap fieldsOf)

/-- Reading the given fields one by one, each by its own primitive: the cursor after the last, or `none` at the first
read that fails or answers something else. -/
def readsAs (src : Source) : List Field → Cursor → Option Cursor
  | [], c => some c
  | .bit b :: fs, c =>
    match readBit src c with
    | .got b' c' => if b' = b then readsAs src fs c' else none
    | _ => none
  | .byte v :: fs, c =>
    match readByte src c with
    | .got v' c' => if v' = v then readsAs src fs c' else none
    | _ => none

/-! ### Words numbered as spec/opcode_table.json numbers them (log 16) -/

/-- The tag byte whose first stream bits are the binary numeral of `w`: the table right-aligns a row's control bits,
the first of them most significant, and every row but `LIT` begins with a 1. -/
def tagOfNumeral (w : Nat) : Byte :=
  if w = 0 then 0#8 else BitVec.ofNat 8 (w * 2 ^ (7 - Nat.log2 w))

/-- Bytes 1 to `n` of `w`, the lowest first: the raw bytes after the control bits. -/
def laterBytes : Nat → Nat → List Byte
  | 0, _ => []
  | n + 1, w => BitVec.ofNat 8 (w / 256) :: laterBytes n (w / 256)

/-- The input bytes of the word: `nbits = 0` is the row without control bits (`INIT`, one raw byte); else the first
byte holds the control bits and the others follow. Every bit above is 0, past the longest token of the default widths
(17 bytes). -/
def tableBytes (nbits w : Nat) : List Byte :=
  if nbits = 0 then List.replicate 20 0#8
  else tagOfNumeral (w % 256) :: (laterBytes ((nbits + 7) / 8 - 1) w ++ List.replicate 20 0#8)

/-- The `lwm` that the row needs: the row `1 0` alone is `GMATCH`, and with operand bits 0 its `G` is 2, which is
`GMATCH` under `lwm = 1` only; the row `1 0 0 0` is `REPMATCH`, under `lwm = 0` only (R89). -/
def tableLwm (w : Nat) : Bool := w % 256 == 2

/-- The token the decoder reads from a word of spec/opcode_table.json. -/
def decodeTableWord (nbits w : Nat) : Option Instr :=
  let src := Source.ofList (tableBytes nbits w)
  let read := if nbits = 0 then decodeInit src .start else decodeToken src 32 (tableLwm w) .start
  match read with
  | .got i _ => some i
  | .raised _ _ => none
  | .noByte _ => none

end Sys2Proof
end

