-- ==== Sys2Proof/Machine/State.lean ====
section
/-! DEFINITION. The state of the core as plain data (10_state.md, 20_memory.md, R200), its fault and refusal reasons,
and the state after reset (R37). -/

namespace Sys2Proof.Machine

/-- `status` (R31). -/
inductive Status where
  | idle | busy | done | error
  deriving DecidableEq, Repr

/-- `err_code` (R32). Codes 5 to 7 are reserved and never produced (I10). -/
inductive ErrCode where
  | none | truncatedInput | invalidBackref | outputOverflow | gammaOverflow
  deriving DecidableEq, Repr

/-- `fsm` (R35), the states of R200. -/
inductive Fsm where
  | idle | init | b1 | lit | b2 | b3 | sraw | nib | zlit | gd | gc | gsel | glo | glen | chk | copy | fin | stop
  deriving DecidableEq, Repr

/-- `gsel` (R200): which gamma of a token is being read. -/
inductive GammaSel where
  | off | len
  deriving DecidableEq, Repr

/-- `mode` (R200): which back-reference token is running. -/
inductive CopyMode where
  | gm | rep | sm | nm
  deriving DecidableEq, Repr

/-- The host-input ports (R29), as the host drives them now (R39). -/
structure Ports where
  start  : Bool
  strict : Bool
  rst    : Bool
  inLen  : Nat
  deriving DecidableEq, Repr

/-- The working registers (R28) and the further registers of the micro-step machine (R200). Each holds its value only
within one token; outside one it is unspecified (I3, log 5). -/
structure Work where
  gAcc   : Nat
  off    : Nat
  len    : Nat
  raw    : Byte
  cnt    : Nat
  nibCnt : BitVec 3
  gsel   : GammaSel
  mode   : CopyMode
  high   : Nat
  ovalid : Bool
  nib    : Nibble
  deriving DecidableEq, Repr

/-- A byte memory: (index, byte) pairs, indices strictly rising. An unlisted index has no value the model knows. -/
abbrev Memory := List Host.Cell

/-- The canonical form: indices strictly rising. Every listed index has a value and an unlisted one has none, so equal
memories are equal lists. -/
abbrev Memory.wf (m : Memory) : Prop := m.Pairwise fun x y => x.1 < y.1

/-- The core's state. -/
structure State where
  /-- The parameters of R7; no step changes them. -/
  cfg             : Config
  /-- `start`, `strict`, `rst`, `in_len` (R29). -/
  ports           : Ports
  /-- `status` (R31); `busy` (R34) is a view of it. -/
  status          : Status
  /-- `err_code` (R32). -/
  errCode         : ErrCode
  /-- `recovered` (R33). -/
  recovered       : Bool
  /-- `strict_q` (R30). -/
  strictQ         : Bool
  /-- `in_len_q` (R30). -/
  inLenQ          : Nat
  /-- `fsm` (R35). -/
  fsm             : Fsm
  /-- `in_ptr` (R21), `tag` (R22), `bitcount` (R23). -/
  rd              : Cursor
  /-- `last_offset` (R24). -/
  lastOffset      : Nat
  /-- `last_offset_valid` (R24). -/
  lastOffsetValid : Bool
  /-- `lwm` (R25). -/
  lwm             : Bool
  /-- `done` (R26). -/
  done            : Bool
  /-- `out_len` (R27). -/
  outLen          : Nat
  /-- `g_acc`, `off`, `len`, `raw`, `cnt`, `nib_cnt` (R28); `gsel`, `mode`, `high`, `ovalid`, `nib` (R200). -/
  work            : Work
  /-- `IN` (R51). -/
  inMem           : Memory
  /-- `OUT` (R52). -/
  outMem          : Memory
  /-- The model's own counter: the next draw of free values (log 6). -/
  draws           : Nat
  deriving DecidableEq, Repr

/-- Why the machine stops with a fault. Both are accesses to an index that the spec gives no memory; no state that
keeps the invariant of Safety.lean raises one (log 14). -/
inductive Fault where
  /-- A read of `IN` at an index not below `IN_CAP` (R51). Raised by `liftRead`. Safe: the model stops. -/
  | inputIndex (index : Nat)
  /-- An access to `OUT` at an index not below `OUT_CAP` (R52). Raised by `readOutByte` and `append`. Safe: the model
  stops. -/
  | outputIndex (index : Nat)
  deriving DecidableEq, Repr

/-- Why the machine gives a situation no meaning. -/
inductive Refusal where
  /-- An instruction that has no meaning yet. Raised by exec's refused arms; there is none. Safe. -/
  | notModelled (mnemonic : String)
  /-- A start with `in_len > IN_CAP` (R262, I4, D5). Raised by `startDecode`. Safe: the spec refuses it. -/
  | startBeyondInput (inLen : Nat)
  /-- `rst = 1` and `start = 1` in one host step (I13). Raised by `hostControl`. Safe: no meaning is given. -/
  | resetWithStart
  /-- The host writes an input byte of the running decode (I6, R65). Raised by `hostWriteIn` and so by `hostLoad`. Safe for the move itself;
  log 12 says what it leaves out. -/
  | hostWritesBusyInput (index : Nat)
  /-- The host reads or writes `OUT` while the core is busy (I6, R65). Raised by `hostWriteOut` and `hostReadOut`. Safe,
  as above. -/
  | hostTouchesBusyOutput (index : Nat)
  deriving DecidableEq, Repr

/-- The outcome of an operation on the state: a value, an error kind raised with the effects before it standing (R164,
R237), or a fault. -/
inductive Res (α : Type) where
  | ok (v : α) (s : State)
  | raised (e : ErrorKind) (s : State)
  | fault (f : Fault)
  deriving DecidableEq, Repr

/-- The working registers of `State.reset`. The spec leaves them unspecified (R37); 0 is a DESIGN CHOICE, log 4
(unsafe). -/
def Work.zero : Work :=
  { gAcc := 0, off := 0, len := 0, raw := 0#8, cnt := 0, nibCnt := 0#3, gsel := .off, mode := .gm, high := 0,
    ovalid := false, nib := 0#4 }

/-- No request: every port low. DESIGN CHOICE, log 3: R39 gives the ports no reset value. -/
def Ports.low : Ports := { start := false, strict := false, rst := false, inLen := 0 }

/-- The core with parameters `cfg` right after power-up, which is a reset (R37, R247, R260). -/
def State.resetFor (cfg : Config) : State where
  cfg             := cfg
  ports           := .low
  status          := .idle
  errCode         := .none
  recovered       := false
  strictQ         := false
  inLenQ          := 0
  fsm             := .idle
  rd              := { inPtr := 0, tag := 0#8, bitcount := 0#3 }
  lastOffset      := 0
  lastOffsetValid := false
  lwm             := false
  done            := false
  outLen          := 0
  work            := .zero
  inMem           := []
  outMem          := []
  draws           := 0

/-- The machine right after reset (R37), with the parameters of `Config.standard` (log 2). -/
def State.reset : State := State.resetFor .standard

end Sys2Proof.Machine
end

