-- ==== Sys2Proof/Machine/Ops.lean ====
section
/-! DEFINITION. The named operations: memory, the input reads, the output assembler (R140 to R147), how a token ends,
and taking an error (R232). -/

namespace Sys2Proof.Machine

/-! ### Memory -/

/-- The byte at an index, where the memory lists one. An unlisted index has none: this is the ONE definition of what
nothing written reads as (log 7). -/
def Memory.read : Memory → Nat → Option Byte
  | [], _ => none
  | (k, v) :: m, a => if k = a then some v else Memory.read m a

/-- The memory with one byte written; the list stays in rising order. -/
def Memory.write : Memory → Nat → Byte → Memory
  | [], a, v => [(a, v)]
  | (k, w) :: m, a, v =>
    if a < k then (a, v) :: (k, w) :: m
    else if a = k then (a, v) :: m
    else (k, w) :: Memory.write m a v

/-- The memory with a list of bytes written from an index on. -/
def Memory.writeAll : Memory → Nat → List Byte → Memory
  | m, _, [] => m
  | m, a, v :: vs => Memory.writeAll (m.write a v) (a + 1) vs

namespace State

/-- The byte `IN` holds at an index (R51); a byte that nothing has written is a free value (log 7). -/
def inByte (s : State) (a : Nat) : Byte := (s.inMem.read a).getD (Config.unwrittenIn a)

/-- The byte `OUT` holds at an index (R52); a byte that nothing has written is a free value (I1, log 7). -/
def outByte (s : State) (a : Nat) : Byte := (s.outMem.read a).getD (Config.unwrittenOut a)

/-- `busy` (R34). -/
def busy (s : State) : Bool := s.status == .busy

/-! ### Register writes -/

def goto (f : Fsm) (s : State) : State := { s with fsm := f }
def setReader (c : Cursor) (s : State) : State := { s with rd := c }
def setWork (w : Work) (s : State) : State := { s with work := w }

/-- `MemWrite(OUT, out_len, 1, v); out_len <- out_len + 1` (R140). -/
def storeOut (v : Byte) (s : State) : State :=
  { s with outMem := s.outMem.write s.outLen v, outLen := s.outLen + 1 }

end State

/-- The state after an operation without a fault or an error, for the next one (R9). -/
def Res.bind {α β : Type} : Res α → (α → State → Res β) → Res β
  | .ok v s, k => k v s
  | .raised e s, _ => .raised e s
  | .fault f, _ => .fault f

/-! ### Input reads -/

/-- What the core reads during a decode: indices below `in_len_q` (R30, R51). -/
def State.source (s : State) : Source where
  len := s.inLenQ
  byte := fun a => if a < s.cfg.inCap then some (s.inByte a) else none

/-- A read by the decoder as an operation on the state. -/
def liftRead {α : Type} (s : State) : Read α → Res α
  | .got a c => .ok a (s.setReader c)
  | .raised e c => .raised e (s.setReader c)
  | .noByte a => .fault (.inputIndex a)

/-- `NextBit()` (R101). -/
def nextBit (s : State) : Res Bool := liftRead s (readBit s.source s.rd)

/-- `NextByte()` (R104). -/
def nextByte (s : State) : Res Byte := liftRead s (readByte s.source s.rd)

/-! ### The output assembler -/

/-- `MemRead(OUT, a, 1)` (R9, R52). -/
def readOutByte (a : Nat) (s : State) : Res Byte :=
  if a < s.cfg.outCap then .ok (s.outByte a) s else .fault (.outputIndex a)

/-- `Append(v)` (R140). -/
def append (v : Byte) (s : State) : Res Unit :=
  if s.outLen = s.cfg.outCap then .raised (.outputOverflow s.outLen) s
  else if s.outLen < s.cfg.outCap then .ok () (s.storeOut v)
  else .fault (.outputIndex s.outLen)

/-- `Literal(b)` (R141). -/
def literal (b : Byte) (s : State) : Res Unit := append b s

/-- `CopyLiteral(n)` (R142): each byte is read before the output check. -/
def copyLiteral : Nat → State → Res Unit
  | 0, s => .ok () s
  | n + 1, s => (nextByte s).bind fun b s => (append b s).bind fun _ s => copyLiteral n s

/-- One pass of the copy loop of R143: the byte `off` back from the current `out_len`, appended. -/
def copyByte (off : Nat) (s : State) : Res Unit :=
  (readOutByte (s.outLen - off) s).bind fun v s => append v s

/-- The copy loop of R143, `cnt` bytes left: byte by byte, in order (R59, R144). -/
def copyLoop (off : Nat) : Nat → State → Res Unit
  | 0, s => .ok () s
  | cnt + 1, s => (copyByte off s).bind fun _ s => copyLoop off cnt s

/-- The entry check of R143: the offset is none, 0 or more than `out_len`. -/
abbrev badOffset (off : Nat) (ovalid : Bool) (s : State) : Prop := ovalid = false ∨ off = 0 ∨ s.outLen < off

/-- `BackRef(off, len, ovalid)` (R143): checked once, before any byte (R145). -/
def backRef (off len : Nat) (ovalid : Bool) (s : State) : Res Unit :=
  if badOffset off ovalid s then .raised (.invalidBackRef off s.outLen) s else copyLoop off len s

/-! ### Between tokens -/

/-- The working registers outside a token: unspecified (R28, I3), so free values, each cut to its width. -/
def freeWork (cfg : Config) (draw : Nat) : Work where
  gAcc   := Config.freeWork .gAcc draw % 2 ^ cfg.gammaW
  off    := Config.freeWork .off draw % 2 ^ cfg.offW
  len    := Config.freeWork .len draw % 2 ^ cfg.lenW
  raw    := BitVec.ofNat 8 (Config.freeWork .raw draw)
  cnt    := Config.freeWork .cnt draw % 2 ^ cfg.lenW
  nibCnt := BitVec.ofNat 3 (Config.freeWork .nibCnt draw)
  gsel   := if Config.freeWork .gsel draw % 2 = 0 then .off else .len
  mode   := match Config.freeWork .mode draw % 4 with | 0 => .gm | 1 => .rep | 2 => .sm | _ => .nm
  high   := Config.freeWork .high draw % 2 ^ cfg.gammaW
  ovalid := Config.freeWork .ovalid draw % 2 == 1
  nib    := BitVec.ofNat 4 (Config.freeWork .nib draw)

/-- Leaving a token for control state `f`: what the working registers then hold is unspecified (R28, I3, log 5). -/
def State.leaveToken (f : Fsm) (s : State) : State :=
  { s with fsm := f, work := freeWork s.cfg s.draws, draws := s.draws + 1 }

/-! ### Taking an error (the core's only exception, R238) -/

/-- `code(K)` (R230). -/
def errCodeOf : ErrorKind → ErrCode
  | .truncatedInput _ => .truncatedInput
  | .invalidBackRef _ _ => .invalidBackref
  | .outputOverflow _ => .outputOverflow
  | .gammaOverflow _ => .gammaOverflow

/-- R232: the token stops, with strict mode's report (R233) or lenient mode's (R234, R235), and `fsm <- S_STOP`. Every
other register keeps its value (R40). There is no return from it (R240). -/
def State.takeError (e : ErrorKind) (s : State) : State :=
  { s with
    status    := if s.strictQ then .error else .done
    errCode   := errCodeOf e
    recovered := !s.strictQ }.leaveToken .stop

/-- How a token goes on after its last fallible operation: the rest of its register writes and back to `S_B1`, or the
error it raised (R164). -/
def finishToken (writes : State → State) : Res Unit → Host.Outcome State Fault Refusal
  | .ok _ s => .next ((writes s).leaveToken .b1)
  | .raised e s => .next (s.takeError e)
  | .fault f => .fault f

end Sys2Proof.Machine
end

