-- ==== Sys2Proof/Machine/Flags.lean ====
section
/-! DEFINITION. The two flags `lwm` and `done` (R36), the register `last_offset` (R24), and the encodings of the status
registers that the host reads (R31, R32). The core has no arithmetic condition codes (R36). -/

namespace Sys2Proof.Machine

/-- `lwm <- b` (R25). -/
def State.setLwm (b : Bool) (s : State) : State := { s with lwm := b }

/-- `last_offset <- off; last_offset_valid <- 1` (R172, R180). -/
def State.setLastOffset (off : Nat) (s : State) : State := { s with lastOffset := off, lastOffsetValid := true }

/-- The writes of `GMATCH` and `SMATCH` after their copy (R172, R180). -/
def State.commitMatch (off : Nat) (s : State) : State := (s.setLastOffset off).setLwm true

/-- The writes of `END` (R183) and of the end of a run (R265), then `S_STOP` (R208). -/
def State.endDecode (s : State) : State :=
  { (s.setLastOffset 0).setLwm true with
    done := true, status := .done, errCode := .none, recovered := false }.leaveToken .stop

/-- The value of `status` (R31). -/
def Status.code : Status → BitVec 2
  | .idle => 0#2
  | .busy => 1#2
  | .done => 2#2
  | .error => 3#2

/-- The value of `err_code` (R32). -/
def ErrCode.code : ErrCode → BitVec 3
  | .none => 0#3
  | .truncatedInput => 1#3
  | .invalidBackref => 2#3
  | .outputOverflow => 3#3
  | .gammaOverflow => 4#3

end Sys2Proof.Machine
end

