-- ==== Sys2Proof/Machine/EndMark.lean ====
section
/-! DEFINITION. The end marker `END`. -/

namespace Sys2Proof.Machine

/-- `END` (R183, R265): both raw bytes act the same (R184). -/
def execEndMark (_raw : Byte) (s : State) : Host.Outcome State Fault Refusal := .next s.endDecode

end Sys2Proof.Machine
end

