-- ==== Sys2Proof/Machine/Literal.lean ====
section
/-! DEFINITION. The tokens that append one given byte: `INIT`, `LIT`, `ZLIT`. A meaning starts after the token's fields
have been read (all of them come before its first output access, R161). -/

namespace Sys2Proof.Machine

/-- `INIT` (R162): the `Append` of `CopyLiteral(1)`; no flag written. -/
def execInit (l : Byte) (s : State) : Host.Outcome State Fault Refusal := finishToken id (append l s)

/-- `LIT` (R163): the `Append` of `CopyLiteral(1)`, then `lwm <- 0`. -/
def execLit (l : Byte) (s : State) : Host.Outcome State Fault Refusal := finishToken (State.setLwm false) (append l s)

/-- `ZLIT` (R186): `Literal(0x00); lwm <- 0`. -/
def execZlit (s : State) : Host.Outcome State Fault Refusal := finishToken (State.setLwm false) (literal 0#8 s)

end Sys2Proof.Machine
end

