-- ==== Sys2Proof/Machine/Operands.lean ====
section
/-! DEFINITION. Operand assembly (R84 to R87, R168 to R170): offset and length of each back-reference token. Exact
integer arithmetic; the widths of R7 hold every result (R169, R170). -/

namespace Sys2Proof.Machine

/-- `high` (R168): `G - 3` after a token that was no match, `G - 2` after one. Never negative for a token that is
selected (log 15). -/
def highOf (lwm : Bool) (g : Nat) : Nat := if lwm then g - 2 else g - 3

/-- `off = (high << 8) | LO` (R169). -/
def offsetOf (high : Nat) (lo : Byte) : Nat := high * 256 + lo.toNat

/-- The length bumps, each against the final offset, added together (R170). -/
def bump (cfg : Config) (off : Nat) : Nat :=
  (if cfg.bumpA ≤ off then 1 else 0) + (if cfg.bumpB ≤ off then 1 else 0) + (if off < cfg.bumpC then 2 else 0)

/-- The offset of `GMATCH` (R84). -/
def gmatchOff (lwm : Bool) (g : Nat) (lo : Byte) : Nat := offsetOf (highOf lwm g) lo

/-- The length of `GMATCH` (R170). -/
def gmatchLen (cfg : Config) (n off : Nat) : Nat := n + bump cfg off

/-- The offset of `SMATCH`, `R[7:1]` (R86). -/
def shortOff (raw : Byte) : Nat := (raw.extractLsb' 1 7).toNat

/-- The length of `SMATCH`, `2 + R[0]` (R86). -/
def shortLen (raw : Byte) : Nat := 2 + (raw.extractLsb' 0 1).toNat

/-- The offset of `NMATCH` (R87). -/
def nibbleOff (nib : Nibble) : Nat := nib.toNat

end Sys2Proof.Machine
end

