-- ==== Sys2Proof/Machine/Match.lean ====
section
/-! DEFINITION. The back-reference tokens: `GMATCH`, `REPMATCH`, `SMATCH`, `NMATCH`. -/

namespace Sys2Proof.Machine

/-- `GMATCH` (R167): `last_offset` and `lwm` are written only after the copy completes (R172). -/
def execGmatch (g : Nat) (lo : Byte) (n : Nat) (s : State) : Host.Outcome State Fault Refusal :=
  finishToken (State.commitMatch (gmatchOff s.lwm g lo))
    (backRef (gmatchOff s.lwm g lo) (gmatchLen s.cfg n (gmatchOff s.lwm g lo)) true s)

/-- `REPMATCH` (R175): no bumps; `last_offset` unchanged; the sentinel raises `InvalidBackRef` (R176). -/
def execRepmatch (n : Nat) (s : State) : Host.Outcome State Fault Refusal :=
  finishToken (State.setLwm true) (backRef s.lastOffset n s.lastOffsetValid s)

/-- `SMATCH` (R179): `last_offset` and `lwm` are written only after the copy completes (R180). -/
def execSmatch (raw : Byte) (s : State) : Host.Outcome State Fault Refusal :=
  finishToken (State.commitMatch (shortOff raw)) (backRef (shortOff raw) (shortLen raw) true s)

/-- `NMATCH` (R185): one byte; `lwm <- 0`; `last_offset` unchanged. -/
def execNmatch (nib : Nibble) (s : State) : Host.Outcome State Fault Refusal :=
  finishToken (State.setLwm false) (backRef (nibbleOff nib) 1 true s)

end Sys2Proof.Machine
end

