-- ==== Sys2Proof/Machine/Dispatch.lean ====
section
/-! DEFINITION. One arm per token. -/

namespace Sys2Proof.Machine

def exec (i : Instr) (s : State) : Host.Outcome State Fault Refusal :=
  match i with
  | .init l => Sys2Proof.Machine.execInit l s
  | .lit l => Sys2Proof.Machine.execLit l s
  | .gmatch g lo n => Sys2Proof.Machine.execGmatch g lo n s
  | .repmatch n => Sys2Proof.Machine.execRepmatch n s
  | .smatch raw => Sys2Proof.Machine.execSmatch raw s
  | .endMark raw => Sys2Proof.Machine.execEndMark raw s
  | .nmatch nib => Sys2Proof.Machine.execNmatch nib s
  | .zlit => Sys2Proof.Machine.execZlit s

end Sys2Proof.Machine
end

