-- ==== Sys2Proof/Machine/HostPort.lean ====
section
/-! DEFINITION. The host's side of the core: reset and start as the step sees them on the ports (R260 to R263), and the
moves the host makes between steps (R29, R39, R65, R264), with the result it reads (R53). -/

namespace Sys2Proof.Machine

/-! ### Seen by the step -/

/-- `OUT` after a reset: untouched (R260); a reset while busy leaves its bytes unspecified (R261, I8, log 8). -/
def outAfterReset (s : State) : Memory :=
  if s.status = .busy then s.outMem.map fun cell => (cell.1, Config.abandonedOut s.draws cell.1) else s.outMem

/-- Reset (R260): the values of R37; the working registers are unspecified there. `IN` and the ports are untouched. -/
def State.applyReset (s : State) : State :=
  { s with
    status := .idle, errCode := .none, recovered := false, strictQ := false, inLenQ := 0,
    rd := { inPtr := 0, tag := 0#8, bitcount := 0#3 },
    lastOffset := 0, lastOffsetValid := false, lwm := false, done := false,
    outLen := 0, outMem := outAfterReset s }.leaveToken .idle

/-- The writes of a start (R262, R38). The list of `OUT` stays, and with `out_len = 0` none of it is a result's byte
(log 25). -/
def State.beginDecode (s : State) : State :=
  { s with
    inLenQ := s.ports.inLen, strictQ := s.ports.strict,
    rd := { inPtr := 0, tag := 0#8, bitcount := 0#3 }, outLen := 0,
    lastOffset := 0, lastOffsetValid := false, lwm := false, done := false,
    errCode := .none, recovered := false, status := .busy, fsm := .init }

/-- Start (R262): refused with `in_len > IN_CAP` (log 10). -/
def startDecode (s : State) : Host.Outcome State Fault Refusal :=
  if s.cfg.inCap < s.ports.inLen then .refused (.startBeyondInput s.ports.inLen) else .next s.beginDecode

/-- What the ports make of this step: a reset, a start unless busy (R262, R263), or nothing. Both at once are refused
(I13, log 9). -/
def hostControl (s : State) : Option (Host.Outcome State Fault Refusal) :=
  if s.ports.rst then
    if s.ports.start then some (.refused .resetWithStart) else some (.next s.applyReset)
  else if s.ports.start = true ∧ s.status ≠ .busy then some (startDecode s)
  else none

/-! ### The host's moves, between steps -/

/-- The host drives the ports (R39). -/
def State.drive (p : Ports) (s : State) : State := { s with ports := p }

/-- The host writes one byte of `IN` (R264): not an input byte of a running decode (R65, I6, log 12). -/
def hostWriteIn (a : Nat) (v : Byte) (s : State) : Host.Outcome State Fault Refusal :=
  if s.cfg.inCap ≤ a then .fault (.inputIndex a)
  else if s.status = .busy ∧ a < s.inLenQ then .refused (.hostWritesBusyInput a)
  else .next { s with inMem := s.inMem.write a v }

/-- The host writes a list of bytes into `IN` from an index on, byte by byte (R264 step 2): each under the host's duty
R65, so none while it would change a running decode's input. -/
def hostLoad : Nat → List Byte → State → Host.Outcome State Fault Refusal
  | _, [], s => .next s
  | a, v :: vs, s =>
    match hostWriteIn a v s with
    | .next t => hostLoad (a + 1) vs t
    | .fault f => .fault f
    | .refused r => .refused r

/-- The host writes one byte of `OUT`: not while the core is busy (R65, I6). The spec names no other write of the host;
that it may write any byte then is a DESIGN CHOICE, log 12. -/
def hostWriteOut (a : Nat) (v : Byte) (s : State) : Host.Outcome State Fault Refusal :=
  if s.cfg.outCap ≤ a then .fault (.outputIndex a)
  else if s.status = .busy then .refused (.hostTouchesBusyOutput a)
  else .next { s with outMem := s.outMem.write a v }

/-- What the host reads in a byte of `OUT`. -/
inductive HostRead where
  | byte (v : Byte)
  | fault (f : Fault)
  | refused (r : Refusal)
  deriving DecidableEq, Repr

/-- The host reads one byte of `OUT`: not while the core is busy (R65). A byte of a result is what the rules wrote
(R53). Any other byte is a free value: after a strict error (R53, I2, log 13), also once the core is reset, and at an index
at or beyond `out_len` whoever wrote it (R52, R265, I1, log 25). -/
def hostReadOut (a : Nat) (s : State) : HostRead :=
  if s.cfg.outCap ≤ a then .fault (.outputIndex a)
  else if s.status = .busy then .refused (.hostTouchesBusyOutput a)
  else if s.status = .done ∧ a < s.outLen then .byte (s.outByte a)
  else .byte (Config.noResultOut s.draws a (s.outByte a))

/-- The result of a decode (R53): `OUT[0 .. out_len-1]` when `status = DONE`; else there is none. -/
def State.result (s : State) : Option (List Byte) :=
  if s.status = .done then some ((List.range s.outLen).map s.outByte) else none

end Sys2Proof.Machine
end

