-- ==== Sys2Proof/Machine/Micro.lean ====
section
/-! DEFINITION. The micro-step control state machine (44_control_fsm.md): one visit to one state of R200, one
definition each. It runs over the same state, primitives and error operation as the tokens; R221 says that the two
levels agree, and the obligations state it. -/

namespace Sys2Proof.Machine

/-- How a micro-step ends: fully, or with the error path (R201, R220). -/
def settle : Res Unit → Host.Outcome State Fault Refusal
  | .ok _ s => .next s
  | .raised e s => .next (s.takeError e)
  | .fault f => .fault f

/-- `S_INIT` (R203). -/
def microInit (s : State) : Res Unit := (copyLiteral 1 s).bind fun _ s => .ok () (s.leaveToken .b1)

/-- `S_B1` (R204). -/
def microB1 (s : State) : Res Unit := (nextBit s).bind fun b s => .ok () (s.goto (if b then .b2 else .lit))

/-- `S_LIT` (R205). -/
def microLit (s : State) : Res Unit :=
  (copyLiteral 1 s).bind fun _ s => .ok () ((s.setLwm false).leaveToken .b1)

/-- The start of a gamma value: `g_acc <- 1`, `gsel` set, to `S_GD` (R206, R213, R214). -/
def State.startGamma (g : GammaSel) (s : State) : State :=
  (s.setWork { s.work with gAcc := 1, gsel := g }).goto .gd

/-- `S_B2` (R206). -/
def microB2 (s : State) : Res Unit :=
  (nextBit s).bind fun b s => .ok () (if b then s.goto .b3 else s.startGamma .off)

/-- `S_B3` (R207). -/
def microB3 (s : State) : Res Unit :=
  (nextBit s).bind fun b s =>
    .ok () (if b then (s.setWork { s.work with nib := 0#4, nibCnt := 0#3 }).goto .nib else s.goto .sraw)

/-- `S_SRAW` (R208). -/
def microSraw (s : State) : Res Unit :=
  (nextByte s).bind fun raw s =>
    if raw.extractLsb' 1 7 = 0#7 then .ok () (s.setWork { s.work with raw := raw }).endDecode
    else
      .ok () ((s.setWork { s.work with
        raw := raw, off := shortOff raw, len := shortLen raw, ovalid := true, mode := .sm }).goto .chk)

/-- `nib <- (nib << 1)[3:0] | b` (R209). -/
def nibShiftIn (nib : Nibble) (b : Bool) : Nibble := (nib <<< 1) ||| (BitVec.ofBool b).zeroExtend 4

/-- The control part of `S_NIB` after its bit (R209). -/
def State.afterNibbleBit (s : State) : State :=
  if s.work.nibCnt < 4#3 then s
  else if s.work.nib = 0#4 then s.goto .zlit
  else (s.setWork { s.work with off := nibbleOff s.work.nib, len := 1, ovalid := true, mode := .nm }).goto .chk

/-- `S_NIB` (R209). -/
def microNib (s : State) : Res Unit :=
  (nextBit s).bind fun b s =>
    .ok () (s.setWork { s.work with nib := nibShiftIn s.work.nib b, nibCnt := s.work.nibCnt + 1#3 }).afterNibbleBit

/-- `S_ZLIT` (R210). -/
def microZlit (s : State) : Res Unit := (append 0#8 s).bind fun _ s => .ok () ((s.setLwm false).leaveToken .b1)

/-- `S_GD` (R211): the overflow is raised after the data bit is consumed; `g_acc` is left unchanged (R123). -/
def microGd (s : State) : Res Unit :=
  (nextBit s).bind fun b s =>
    if gammaFull s.cfg.gammaW s.work.gAcc then .raised (.gammaOverflow s.rd.inPtr) s
    else .ok () ((s.setWork { s.work with gAcc := shiftIn s.work.gAcc b }).goto .gc)

/-- `S_GC` (R212). -/
def microGc (s : State) : Res Unit :=
  (nextBit s).bind fun more s =>
    .ok () (s.goto (if more then .gd else match s.work.gsel with | .off => .gsel | .len => .glen))

/-- `S_GSEL` (R213). -/
def microGsel (s : State) : Res Unit :=
  if s.lwm = false ∧ s.work.gAcc = 2 then .ok () ((s.setWork { s.work with mode := .rep }).startGamma .len)
  else .ok () ((s.setWork { s.work with mode := .gm, high := highOf s.lwm s.work.gAcc }).goto .glo)

/-- `S_GLO` (R214). -/
def microGlo (s : State) : Res Unit :=
  (nextByte s).bind fun lo s =>
    .ok () ((s.setWork { s.work with raw := lo, off := offsetOf s.work.high lo }).startGamma .len)

/-- The register writes of `S_GLEN` (R215), which names `M_GM` and `M_REP`; no other mode reaches it. -/
def glenWork (s : State) : Work :=
  match s.work.mode with
  | .gm => { s.work with len := s.work.gAcc + bump s.cfg s.work.off, ovalid := true }
  | .rep => { s.work with len := s.work.gAcc, off := s.lastOffset, ovalid := s.lastOffsetValid }
  | .sm => s.work
  | .nm => s.work

/-- `S_GLEN` (R215). -/
def microGlen (s : State) : Res Unit := .ok () ((s.setWork (glenWork s)).goto .chk)

/-- `S_CHK` (R216). -/
def microChk (s : State) : Res Unit :=
  if badOffset s.work.off s.work.ovalid s then .raised (.invalidBackRef s.work.off s.outLen) s
  else .ok () ((s.setWork { s.work with cnt := s.work.len }).goto .copy)

/-- `S_COPY` (R217). -/
def microCopy (s : State) : Res Unit :=
  (copyByte s.work.off s).bind fun _ s =>
    .ok () ((s.setWork { s.work with cnt := s.work.cnt - 1 }).goto (if s.work.cnt - 1 ≠ 0 then .copy else .fin))

/-- The register writes of `S_FIN` (R218). -/
def State.finWrites (s : State) : State :=
  match s.work.mode with
  | .gm => s.commitMatch s.work.off
  | .sm => s.commitMatch s.work.off
  | .rep => s.setLwm true
  | .nm => s.setLwm false

/-- `S_FIN` (R218). -/
def microFin (s : State) : Res Unit := .ok () (s.finWrites.leaveToken .b1)

/-- One micro-step (R202 to R219). `S_IDLE` and `S_STOP` take no action (R202, R219). -/
def microRes (s : State) : Res Unit :=
  match s.fsm with
  | .idle => .ok () s
  | .init => microInit s
  | .b1 => microB1 s
  | .lit => microLit s
  | .b2 => microB2 s
  | .b3 => microB3 s
  | .sraw => microSraw s
  | .nib => microNib s
  | .zlit => microZlit s
  | .gd => microGd s
  | .gc => microGc s
  | .gsel => microGsel s
  | .glo => microGlo s
  | .glen => microGlen s
  | .chk => microChk s
  | .copy => microCopy s
  | .fin => microFin s
  | .stop => .ok () s

/-- One transition of the micro-step machine (R201, R220). -/
def microStep (s : State) : Host.Outcome State Fault Refusal := settle (microRes s)

end Sys2Proof.Machine
end

