-- ==== Sys2Proof/Machine/Token.lean ====
section
/-! DEFINITION. Fetching a token and running it (R160, R161), the core's transition without the host's ports, and the
placing of a table word where the next token is fetched. -/

namespace Sys2Proof.Machine

/-- The token at the reading position in the loop, with its operand fields read (R161). -/
def fetchToken (s : State) : Res Instr := liftRead s (decodeToken s.source s.cfg.gammaW s.lwm s.rd)

/-- The first token of a decode (R160, R162). -/
def fetchInit (s : State) : Res Instr := liftRead s (decodeInit s.source s.rd)

/-- A fetched token runs; an error while its fields are read ends the decode, the fields read so far consumed (R164,
R165, R232). -/
def runFetched : Res Instr → Host.Outcome State Fault Refusal
  | .ok i s => exec i s
  | .raised e s => .next (s.takeError e)
  | .fault f => .fault f

/-- The core's transition: `INIT`, then one token at a time (R160). `S_IDLE` and `S_STOP` are stable (R202, R219). A
state inside a token, which the token level never shows, goes on by one micro-step (log 1). -/
def coreStep (s : State) : Host.Outcome State Fault Refusal :=
  match s.fsm with
  | .idle => .next s
  | .stop => .next s
  | .init => runFetched (fetchInit s)
  | .b1 => runFetched (fetchToken s)
  | .lit => microStep s
  | .b2 => microStep s
  | .b3 => microStep s
  | .sraw => microStep s
  | .nib => microStep s
  | .zlit => microStep s
  | .gd => microStep s
  | .gc => microStep s
  | .gsel => microStep s
  | .glo => microStep s
  | .glen => microStep s
  | .chk => microStep s
  | .copy => microStep s
  | .fin => microStep s

/-- One transition under the ports, whichever transition of the core it is: reset and start come first (R260, R262). -/
def underPorts (core : State → Host.Outcome State Fault Refusal) (s : State) : Host.Outcome State Fault Refusal :=
  match hostControl s with
  | some o => o
  | none => core s

/-- The micro-step machine under the ports: the other level of R269. -/
def microMachine (s : State) : Host.Outcome State Fault Refusal := underPorts microStep s

/-- A word of spec/opcode_table.json placed where the next step fetches: its bytes at `in_ptr` with an empty tag
buffer, a running decode at the top of the loop (or before `INIT` for the row without control bits), no reset request,
and the `lwm` the row needs where it needs one (log 16, log 17). -/
def placeWord (nbits w : Nat) (s : State) : State :=
  { s with
    ports := { s.ports with rst := false }
    status := .busy
    fsm := if nbits = 0 then .init else .b1
    rd := { s.rd with tag := 0#8, bitcount := 0#3 }
    inLenQ := s.rd.inPtr + (tableBytes nbits w).length
    inMem := s.inMem.writeAll s.rd.inPtr (tableBytes nbits w)
    lwm := if nbits ≠ 0 ∧ (tagOfNumeral (w % 256)).extractLsb' 6 2 = 2#2 then tableLwm w else s.lwm }

end Sys2Proof.Machine
end

