-- ==== Sys2Proof/Machine/Step.lean ====
section
/-! DEFINITION. One step of the machine, and the host's placing of a table word. -/

namespace Sys2Proof.Machine

/-- One step: the ports first (R260, R262), else one transition of the core, a token at the top of the loop (R269). -/
def step (s : State) : Host.Outcome State Fault Refusal := underPorts coreStep s

/-- The word placed where `step` fetches its next token. -/
def State.withFetchWord (s : State) (nbits w : Nat) : State := placeWord nbits w s

end Sys2Proof.Machine
end

