-- ==== Sys2Proof/Machine/Framing.lean ====
section
/-! DEFINITION. The host's framing around the core (R69 to R75). It is host software outside the core (R6): no state of
the core holds any of it. It is here so that the whole `decompress` call can be spoken of. -/

namespace Sys2Proof.Machine

/-- One bit of the reflected CRC-32, polynomial 0xEDB88320 (R75). PRESUMED, log 22: the spec marks it general
knowledge. -/
def crcBit (c : BitVec 32) : BitVec 32 :=
  if c.getLsbD 0 then (c >>> 1) ^^^ 0xEDB88320#32 else c >>> 1

/-- One byte of the CRC. -/
def crcByte (c : BitVec 32) (v : Byte) : BitVec 32 :=
  crcBit (crcBit (crcBit (crcBit (crcBit (crcBit (crcBit (crcBit (c ^^^ v.zeroExtend 32))))))))

/-- CRC-32 of raw bytes: initial value and final XOR 0xFFFFFFFF (R75). PRESUMED, log 22. -/
def crc32 (bs : List Byte) : BitVec 32 := (bs.foldl crcByte 0xFFFFFFFF#32) ^^^ 0xFFFFFFFF#32

/-- `data[k] | data[k+1] << 8 | data[k+2] << 16 | data[k+3] << 24` (R71), where those bytes exist. -/
def field32 (data : List Byte) (k : Nat) : Option (BitVec 32) :=
  match data.drop k with
  | b0 :: b1 :: b2 :: b3 :: _ => some (b3 ++ b2 ++ b1 ++ b0)
  | _ => none

/-- The five fields of the container header (R71). -/
structure Header where
  headerSize  : BitVec 32
  packedSize  : BitVec 32
  packedCrc32 : BitVec 32
  origSize    : BitVec 32
  origCrc32   : BitVec 32
  deriving DecidableEq, Repr

/-- The fields at byte offsets 4, 8, 12, 16, 20 (R71). -/
def parseHeader (data : List Byte) : Option Header :=
  match field32 data 4, field32 data 8, field32 data 12, field32 data 16, field32 data 20 with
  | some hs, some ps, some pc, some os, some oc => some ⟨hs, ps, pc, os, oc⟩
  | _, _, _, _, _ => none

/-- `data[header_size : header_size + packed_size]` by Python's slice semantics: fewer bytes where `data` is shorter
(R72). PRESUMED, log 22. -/
def engineSlice (h : Header) (data : List Byte) : List Byte :=
  (data.drop h.headerSize.toNat).take h.packedSize.toNat

/-- How a whole call ends for the host (R69). -/
inductive CallResult where
  /-- The output bytes. -/
  | bytes (out : List Byte)
  /-- A decode error in strict mode (R233). -/
  | decodeError (code : ErrCode)
  /-- A size or checksum of the header does not match, strict mode (R73, R248). -/
  | headerMismatch
  /-- The magic is there and the data ends before the five fields: the spec does not say what happens (N12). -/
  | headerCutShort
  /-- The core gave no decode a meaning: a load or a start that is a fault or a refusal. -/
  | noDecode
  deriving DecidableEq, Repr

/-- The core stepped until it stops, at most `fuel` times (R69: the host waits for `status` to leave `BUSY`). -/
def untilStopped : Nat → State → Option State
  | 0, s => if s.fsm = .stop then some s else none
  | fuel + 1, s =>
    if s.fsm = .stop then some s
    else
      match step s with
      | .next t => untilStopped fuel t
      | .fault _ => none
      | .refused _ => none

/-- A core with its input loaded, as the host starts it: drive the ports, start, lower `start`, wait (R264 steps 3 to 5).
`8 * in_len + 1` tokens are enough (R189). -/
def startAndWait (strict : Bool) (inLen : Nat) (s : State) : Option State :=
  match step (s.drive { start := true, strict := strict, rst := false, inLen := inLen }) with
  | .next s => untilStopped (8 * inLen + 1) (s.drive { start := false, strict := strict, rst := false, inLen := inLen })
  | .fault _ => none
  | .refused _ => none

/-- One decode as the host runs it after power-up (R264): load, then start and wait. -/
def runDecode (cfg : Config) (strict : Bool) (input : List Byte) : Option State :=
  match hostLoad 0 input (State.resetFor cfg) with
  | .next s => startAndWait strict input.length s
  | .fault _ => none
  | .refused _ => none

/-- What the host makes of the core's end state (R69, R233, R234). -/
def callResult (s : State) : CallResult :=
  match s.result with
  | some out => .bytes out
  | none => .decodeError s.errCode

/-- Decode with no header: the entire input, no checks (R74). -/
def decodePlain (cfg : Config) (strict : Bool) (data : List Byte) : CallResult :=
  match runDecode cfg strict data with
  | some s => callResult s
  | none => .noDecode

/-- The checks of strict mode before the core starts (R73). -/
def inputChecks (h : Header) (slice : List Byte) : Bool :=
  slice.length == h.packedSize.toNat && crc32 slice == h.packedCrc32

/-- The checks of strict mode on the output (R73). -/
def outputChecks (h : Header) (out : List Byte) : Bool :=
  out.length == h.origSize.toNat && crc32 out == h.origCrc32

/-- The strict checks on a result; a decode error comes first (R73). -/
def checkedResult (h : Header) : CallResult → CallResult
  | .bytes out => if outputChecks h out then .bytes out else .headerMismatch
  | .decodeError code => .decodeError code
  | .headerMismatch => .headerMismatch
  | .headerCutShort => .headerCutShort
  | .noDecode => .noDecode

/-- Decode with a header (R72 to R74): strict mode checks before and after, lenient mode checks nothing. -/
def decodeFramed (cfg : Config) (strict : Bool) (h : Header) (data : List Byte) : CallResult :=
  if strict then
    if inputChecks h (engineSlice h data) then checkedResult h (decodePlain cfg strict (engineSlice h data))
    else .headerMismatch
  else decodePlain cfg strict (engineSlice h data)

/-- `decompress(data, strict)` (R69), strict by default (C6); `magic` is the parameter `HEADER_MAGIC`, 4 bytes in
the order they stand in `data` (R70, D22), so that no byte order is chosen. The header is present where `data` starts
with them. -/
def decompress (cfg : Config) (magic : Vector Byte 4) (data : List Byte) (strict : Bool := true) : CallResult :=
  if data.take 4 = magic.toList then
    match parseHeader data with
    | some h => decodeFramed cfg strict h data
    | none => .headerCutShort
  else decodePlain cfg strict data

end Sys2Proof.Machine
end

