-- ==== Sys2Proof/Safety.lean ====
section
/-! DEFINITION. What claims are stated in terms of: the invariant of the core, runs, the termination measure, and the
relations between two decodes. -/

namespace Sys2Proof.Machine

/-! ### The invariant -/

/-- Memory: both lists canonical and inside their arrays (R51, R52), and every byte below `out_len` written (R52). -/
abbrev MemoryInv (s : State) : Prop :=
  s.inMem.wf ∧ s.outMem.wf ∧
  (∀ c ∈ s.inMem, c.1 < s.cfg.inCap) ∧ (∀ c ∈ s.outMem, c.1 < s.cfg.outCap) ∧
  (∀ a < s.outLen, (s.outMem.read a).isSome = true)

/-- Positions: `in_ptr <= in_len` (R21), `in_len_q <= IN_CAP` (R262), `out_len <= OUT_CAP` (R27), and zero bits below
the unconsumed bits of `tag` (R22). -/
abbrev PositionInv (s : State) : Prop :=
  s.rd.inPtr ≤ s.inLenQ ∧ s.inLenQ ≤ s.cfg.inCap ∧ s.outLen ≤ s.cfg.outCap ∧
  s.rd.tag.toNat % 2 ^ (8 - s.rd.bitcount.toNat) = 0

/-- Widths (R7, R28, R29, R200) of the registers held as integers. -/
abbrev WidthInv (s : State) : Prop :=
  s.cfg.wf ∧ s.ports.inLen < 2 ^ s.cfg.inAw ∧ s.lastOffset < 2 ^ s.cfg.offW ∧
  s.work.gAcc < 2 ^ s.cfg.gammaW ∧ s.work.off < 2 ^ s.cfg.offW ∧ s.work.len < 2 ^ s.cfg.lenW ∧
  s.work.cnt < 2 ^ s.cfg.lenW ∧ s.work.high < 2 ^ s.cfg.gammaW

/-- Status: `fsm` and `status` agree (R31, R200), and `done`, `err_code`, `recovered` say how a decode ended (R32, R33,
R265). -/
abbrev StatusInv (s : State) : Prop :=
  (s.fsm = .idle ↔ s.status = .idle) ∧
  (s.fsm = .stop ↔ s.status = .done ∨ s.status = .error) ∧
  (s.done = true ↔ s.status = .done ∧ s.errCode = .none) ∧
  (s.recovered = true ↔ s.status = .done ∧ s.errCode ≠ .none) ∧
  (s.errCode ≠ .none → s.status = .done ∨ s.status = .error) ∧
  (s.status = .error → s.errCode ≠ .none ∧ s.strictQ = true) ∧
  (s.recovered = true → s.strictQ = false)

/-- `last_offset` while busy: if valid, at least 1 (R24) and at most `out_len` (R177); and it is valid after any match
(R25). -/
abbrev OffsetInv (s : State) : Prop :=
  s.status = .busy →
    (s.lastOffsetValid = true → 1 ≤ s.lastOffset ∧ s.lastOffset ≤ s.outLen) ∧
    (s.lwm = true → s.lastOffsetValid = true)

/-- The mode under which a length gamma is read (R213, R214). -/
abbrev gammaMode (w : Work) : Prop := w.mode = .gm ∨ w.mode = .rep

/-- Inside a token, while its fields are read (R206 to R215). -/
abbrev FieldInv (s : State) : Prop :=
  (s.fsm = .gd → 1 ≤ s.work.gAcc ∧ (s.work.gsel = .len → gammaMode s.work)) ∧
  (s.fsm = .gc → 2 ≤ s.work.gAcc ∧ (s.work.gsel = .len → gammaMode s.work)) ∧
  (s.fsm = .gsel → 2 ≤ s.work.gAcc) ∧
  (s.fsm = .glo → s.work.mode = .gm) ∧
  (s.fsm = .glen → 2 ≤ s.work.gAcc ∧ gammaMode s.work) ∧
  (s.fsm = .nib → s.work.nibCnt < 4#3)

/-- Inside a token, while it copies (R216 to R218). -/
abbrev CopyInv (s : State) : Prop :=
  (s.fsm = .chk → 1 ≤ s.work.len ∧
    (s.work.mode = .rep → s.work.ovalid = true → s.lastOffsetValid = true)) ∧
  (s.fsm = .copy → 1 ≤ s.work.cnt ∧ 1 ≤ s.work.off ∧ s.work.off ≤ s.outLen ∧
    (s.work.mode = .rep → s.lastOffsetValid = true)) ∧
  (s.fsm = .fin → 1 ≤ s.work.off ∧ s.work.off ≤ s.outLen ∧
    (s.work.mode = .rep → s.lastOffsetValid = true))

/-- The invariant of the core: each part is decidable. -/
structure Inv (s : State) : Prop where
  memory   : MemoryInv s
  position : PositionInv s
  width    : WidthInv s
  status   : StatusInv s
  offset   : OffsetInv s
  fields   : FieldInv s
  copies   : CopyInv s

/-! ### Runs -/

/-- `n` transitions, stopping at the first fault or refusal. -/
def iterate (f : State → Host.Outcome State Fault Refusal) : Nat → State → Host.Outcome State Fault Refusal
  | 0, s => .next s
  | n + 1, s =>
    match f s with
    | .next t => iterate f n t
    | .fault r => .fault r
    | .refused r => .refused r

/-- Where the token level stands between transitions of a running decode: before `INIT` or at the top of the loop
(R160). -/
abbrev atBoundary (s : State) : Prop := s.fsm = .init ∨ s.fsm = .b1

/-- The decode has ended (R265). -/
abbrev stopped (s : State) : Prop := s.fsm = .stop

/-- The host asks for nothing: neither a reset nor a start. -/
abbrev portsLow (s : State) : Prop := s.ports.rst = false ∧ s.ports.start = false

/-- The ports leave this step to the core: no reset, and no start but one that is ignored (R263). -/
abbrev portsQuiet (s : State) : Prop := s.ports.rst = false ∧ (s.ports.start = true → s.status = .busy)

/-- The bits the bit reader can still take: the measure of the termination bound (R189). -/
def bitsLeft (s : State) : Nat := 8 * (s.inLenQ - s.rd.inPtr) + s.rd.bitcount.toNat

/-! ### What one token changes -/

/-- What no token writes: the parameters, the ports and their latched copies, and `IN` (R30, R51, R41). -/
abbrev sameSetup (s t : State) : Prop :=
  t.cfg = s.cfg ∧ t.ports = s.ports ∧ t.strictQ = s.strictQ ∧ t.inLenQ = s.inLenQ ∧ t.inMem = s.inMem

/-- The token completed and the loop goes on (R160): back at `S_B1`, the status registers and `done` as before, no
input read beyond the token's own fields. -/
abbrev goesOn (s t : State) : Prop :=
  t.fsm = .b1 ∧ t.status = s.status ∧ t.errCode = s.errCode ∧ t.recovered = s.recovered ∧ t.done = s.done ∧
  t.rd = s.rd ∧ sameSetup s t

/-- `last_offset` and its valid bit are unchanged. -/
abbrev sameOffset (s t : State) : Prop := t.lastOffset = s.lastOffset ∧ t.lastOffsetValid = s.lastOffsetValid

/-- `OUT` and `out_len` are unchanged. -/
abbrev sameOutput (s t : State) : Prop := t.outLen = s.outLen ∧ t.outMem = s.outMem

/-- Every byte of `OUT` at an index outside `lo .. hi-1` reads as before. -/
abbrev sameOutside (lo hi : Nat) (s t : State) : Prop :=
  ∀ a, a < lo ∨ hi ≤ a → t.outMem.read a = s.outMem.read a

/-- One byte `v` appended at `out_len` (R140). -/
abbrev appended (v : Byte) (s t : State) : Prop :=
  t.outLen = s.outLen + 1 ∧ t.outMem.read s.outLen = some v ∧ sameOutside s.outLen (s.outLen + 1) s t

/-- `n` bytes appended, the last `off` bytes of the output repeated with period `off` (R144). -/
abbrev copied (off n : Nat) (s t : State) : Prop :=
  t.outLen = s.outLen + n ∧
  (∀ i < n, t.outMem.read (s.outLen + i) = some (s.outByte (s.outLen - off + i % off))) ∧
  sameOutside s.outLen (s.outLen + n) s t

/-- The offset and length of a back-reference token, at the state it runs on (R84 to R87); nothing for the other
tokens. -/
def copyOf (i : Instr) (s : State) : Option (Nat × Nat) :=
  match i with
  | .init _ => none
  | .lit _ => none
  | .gmatch g lo n => some (gmatchOff s.lwm g lo, gmatchLen s.cfg n (gmatchOff s.lwm g lo))
  | .repmatch n => some (s.lastOffset, n)
  | .smatch raw => some (shortOff raw, shortLen raw)
  | .endMark _ => none
  | .nmatch nib => some (nibbleOff nib, 1)
  | .zlit => none

/-- R230's table: the code of each error kind. -/
abbrev codesOfTheTable : Prop :=
  (∀ p, errCodeOf (.truncatedInput p) = .truncatedInput) ∧ (∀ off n, errCodeOf (.invalidBackRef off n) = .invalidBackref) ∧
  (∀ n, errCodeOf (.outputOverflow n) = .outputOverflow) ∧ (∀ p, errCodeOf (.gammaOverflow p) = .gammaOverflow)

/-! ### Two decodes side by side -/

/-- The two cores agree on all that R190 lets a decode depend on: the parameters but `IN_CAP`, the input read so far
and to come, the registers, and the output so far. Working registers, bytes beyond `in_len` and `out_len` and the ports
may differ. -/
structure SameDecode (s t : State) : Prop where
  gammaW    : s.cfg.gammaW = t.cfg.gammaW
  outCap    : s.cfg.outCap = t.cfg.outCap
  bumps     : s.cfg.bumpA = t.cfg.bumpA ∧ s.cfg.bumpB = t.cfg.bumpB ∧ s.cfg.bumpC = t.cfg.bumpC
  input     : s.inLenQ = t.inLenQ ∧ ∀ a < s.inLenQ, s.inByte a = t.inByte a
  strictQ   : s.strictQ = t.strictQ
  control   : s.fsm = t.fsm ∧ s.status = t.status ∧ s.errCode = t.errCode ∧ s.recovered = t.recovered
  reader    : s.rd = t.rd
  offset    : s.lastOffset = t.lastOffset ∧ s.lastOffsetValid = t.lastOffsetValid
  flags     : s.lwm = t.lwm ∧ s.done = t.done
  output    : s.outLen = t.outLen ∧ ∀ a < s.outLen, s.outByte a = t.outByte a

/-- The output of `s` is a prefix of the output of `t` (R239). -/
abbrev outputPrefix (s t : State) : Prop := s.outLen ≤ t.outLen ∧ ∀ a < s.outLen, s.outByte a = t.outByte a

/-- The same decode with its input cut after `k` bytes (R239). -/
def State.cutInput (k : Nat) (s : State) : State := { s with inLenQ := k }

end Sys2Proof.Machine
end

