-- ==== Sys2Proof/Certificates/Slice0/Obligations.lean ====
section
/-! DEFINITION. The statements about the model, from the numbered rules of spec/. Each docstring names the rule, and
says where a clause rests on the spec's own decision (D<n>) or on a choice of the model (log <n>). Nothing is proved
here. -/

open Sys2Proof Sys2Proof.Machine

/-! ### Encoding and decoding -/

/-- Words written out from the formats of R81, one for each token, decode to the token they stand for. The bytes are
those of program P2 and vectors K4, P3 of 95_test_vectors.md, cut out at a fresh tag. -/
def Obligations.WordsDecodeToTheirTokens : Prop :=
  let start := Cursor.start
  let src := fun bytes : List Nat => Source.ofList (bytes.map (BitVec.ofNat 8))
  decodeInit (src [0x61]) start = .got (.init 0x61#8) ⟨1, 0#8, 0#3⟩ ∧
  decodeToken (src [0x52, 0x62]) 32 false start = .got (.lit 0x62#8) ⟨2, 0xA4#8, 7#3⟩ ∧
  decodeToken (src [0xA4, 0x02, 0x00]) 32 false start = .got (.gmatch 3 0x02#8 4) ⟨2, 0#8, 0#3⟩ ∧
  decodeToken (src [0x88]) 32 false start = .got (.repmatch 3) ⟨1, 0#8, 2#3⟩ ∧
  decodeToken (src [0xC0, 0x03]) 32 false start = .got (.smatch 0x03#8) ⟨2, 0#8, 5#3⟩ ∧
  decodeToken (src [0xC0, 0x00]) 32 false start = .got (.endMark 0x00#8) ⟨2, 0#8, 5#3⟩ ∧
  decodeToken (src [0xE3]) 32 false start = .got (.nmatch 1#4) ⟨1, 0x80#8, 1#3⟩ ∧
  decodeToken (src [0xE0]) 32 false start = .got .zlit ⟨1, 0#8, 1#3⟩ ∧
  decodeToken (src [0x80, 0xC8]) 32 true start = .got (.gmatch 2 0xC8#8 2) ⟨2, 0#8, 2#3⟩

/-- R81 with R82: from any reading position, the decoder answers a token exactly when the operands lie in the ranges of
its format, its selection condition holds under `lwm`, and reading the fields of its format in stream order gives these
fields and ends at the same position; and the same for `INIT`. So every operand at every value the encoding admits is
read, none is dropped, and exactly one format matches. R81 bounds no gamma value: that one is below `2^GAMMA_W` is R122
under the spec's decision D3, and `GAMMA_W >= 2` is DEDUCED, log 19. -/
def Obligations.DecoderReadsExactlyTheFormats : Prop :=
  (∀ (src : Source) (w : Nat) (lwm : Bool) (c c' : Cursor) (i : Instr), 2 ≤ w →
    (decodeToken src w lwm c = .got i c' ↔
      i.inLoop = true ∧ i.wf w = true ∧ i.selectedUnder lwm = true ∧ readsAs src (fieldsOf i) c = some c')) ∧
  (∀ (src : Source) (c c' : Cursor) (i : Instr),
    decodeInit src c = .got i c' ↔ ∃ l, i = .init l ∧ readsAs src (fieldsOf (.init l)) c = some c')

/-- One token encoded at a fresh tag, whatever bytes follow, decodes to itself and takes exactly its own bytes, at every
operand its format admits. Derived from R81, R82 and R106. -/
def Obligations.DecodeOfEncodeIsTheToken : Prop :=
  ∀ (w : Nat) (lwm : Bool) (i : Instr) (rest : List Byte),
    i.inLoop = true → i.wf w = true → i.selectedUnder lwm = true →
    ∃ c, decodeToken (Source.ofList (encode i ++ rest)) w lwm .start = .got i c ∧ c.inPtr = (encode i).length

/-- A whole stream, `INIT` and then any well-formed sequence of tokens, decodes to itself and takes exactly its own
bytes: tag bytes and raw bytes interleave as R80 and R106 say, at every tag position. -/
def Obligations.DecodeOfEncodedStreamIsTheStream : Prop :=
  ∀ (w : Nat) (l : Byte) (is : List Instr), streamWf w false is = true →
    ∃ c c', decodeInit (Source.ofList (encodeStream (.init l :: is))) .start = .got (.init l) c ∧
      decodeTokens (Source.ofList (encodeStream (.init l :: is))) w is.length false c = .got is c' ∧
      c'.inPtr = (encodeStream (.init l :: is)).length

/-- R90: no bit pattern is reserved or illegal. The decoder answers no token only at the end of the input; or in the
branch `1 0`, at the last data bit of a gamma field that goes on past `w - 1` pairs (the spec's decision D3; `w >= 2` is
log 19); or at an index that the input memory does not have (log 14). -/
def Obligations.NoPatternIsIllegal : Prop :=
  ∀ (src : Source) (w : Nat) (lwm : Bool) (c : Cursor), 2 ≤ w →
    (∀ e c', decodeToken src w lwm c = .raised e c' →
      (e = .truncatedInput c'.inPtr ∧ c'.inPtr = src.len) ∨
      (e = .gammaOverflow c'.inPtr ∧ ∃ (before : List Field) (bits : List Bool) (last : Bool), bits.length = w - 1 ∧
        readsAs src (.bit true :: .bit false :: before ++ bits.flatMap (fun b => [Field.bit b, Field.bit true]) ++
          [Field.bit last]) c = some c')) ∧
    (∀ a, decodeToken src w lwm c = .noByte a → src.byte a = none)

/-- R54: from an empty tag buffer, eight reads take one input byte and answer its bits 7 to 0 in that order. -/
def Obligations.TagBitsComeMostSignificantFirst : Prop :=
  ∀ (src : Source) (c : Cursor) (v : Byte), c.bitcount = 0#3 → c.inPtr ≠ src.len → src.byte c.inPtr = some v →
    readsAs src [.bit (v.getLsbD 7), .bit (v.getLsbD 6), .bit (v.getLsbD 5), .bit (v.getLsbD 4),
        .bit (v.getLsbD 3), .bit (v.getLsbD 2), .bit (v.getLsbD 1), .bit (v.getLsbD 0)] c =
      some ⟨c.inPtr + 1, 0#8, 0#3⟩

/-- R82 and R122: `Gamma` answers exactly the values from 2 to `2^w - 1`, each from its one field. -/
def Obligations.GammaFieldsAreExact : Prop :=
  ∀ (src : Source) (w v : Nat) (c c' : Cursor), 2 ≤ w →
    (readGamma src w c = .got v c' ↔ gammaFits w v = true ∧ readsAs src (gammaField v) c = some c')

/-- R123 (the spec's decision D3): after `w - 1` pairs that go on, the next data bit is consumed and the gamma value
overflows there, before any continuation bit is read. -/
def Obligations.GammaOverflowsAtTheLastDataBit : Prop :=
  ∀ (src : Source) (w : Nat) (bits : List Bool) (last : Bool) (c c' : Cursor), 2 ≤ w → bits.length = w - 1 →
    readsAs src (bits.flatMap (fun b => [Field.bit b, Field.bit true]) ++ [Field.bit last]) c = some c' →
    readGamma src w c = .raised (.gammaOverflow c'.inPtr) c'

/-! ### The bit reader on the core's state -/

/-- R101: `NextBit` on the state, in all its cases: from the tag without a memory access, from a refill, and
`TruncatedInput` with nothing changed. No flag and nothing else is written. -/
def Obligations.NextBitReadsTheTag : Prop :=
  ∀ s : State,
    (s.rd.bitcount ≠ 0#3 →
      nextBit s = .ok (s.rd.tag.getLsbD 7)
        { s with rd := ⟨s.rd.inPtr, s.rd.tag <<< 1, s.rd.bitcount - 1#3⟩ }) ∧
    (s.rd.bitcount = 0#3 → s.rd.inPtr ≠ s.inLenQ → s.rd.inPtr < s.cfg.inCap →
      nextBit s = .ok ((s.inByte s.rd.inPtr).getLsbD 7)
        { s with rd := ⟨s.rd.inPtr + 1, s.inByte s.rd.inPtr <<< 1, 7#3⟩ }) ∧
    (s.rd.bitcount = 0#3 → s.rd.inPtr = s.inLenQ → nextBit s = .raised (.truncatedInput s.rd.inPtr) s)

/-- R104: `NextByte` on the state. `tag` and `bitcount` are untouched; at the end of the input nothing changes. -/
def Obligations.NextByteBypassesTheTag : Prop :=
  ∀ s : State,
    (s.rd.inPtr ≠ s.inLenQ → s.rd.inPtr < s.cfg.inCap →
      nextByte s = .ok (s.inByte s.rd.inPtr) { s with rd := { s.rd with inPtr := s.rd.inPtr + 1 } }) ∧
    (s.rd.inPtr = s.inLenQ → nextByte s = .raised (.truncatedInput s.rd.inPtr) s)

/-! ### Operands -/

/-- R84: the offset and length of `GMATCH` with the spec's thresholds. The selection condition of R81 keeps `high` from
being negative. -/
def Obligations.GmatchOperandsAreAssembled : Prop :=
  (∀ (w : Nat) (lwm : Bool) (g : Nat) (lo : Byte) (n : Nat),
    (Instr.gmatch g lo n).wf w = true → (Instr.gmatch g lo n).selectedUnder lwm = true →
    ∃ high, high + (if lwm then 2 else 3) = g ∧ gmatchOff lwm g lo = (high <<< 8 ||| lo.toNat)) ∧
  (∀ (cfg : Config) (n off : Nat), cfg.bumpA = 32000 → cfg.bumpB = 1280 → cfg.bumpC = 128 →
    gmatchLen cfg n off =
      n + ((if 32000 ≤ off then 1 else 0) + (if 1280 ≤ off then 1 else 0) + (if off < 128 then 2 else 0)))

/-- R86: the offset and length in the raw byte of `SMATCH` and `END`, their ranges, and that for `END` the length bit has
no effect. -/
def Obligations.ShortOperandsAreAssembled : Prop :=
  (∀ raw : Byte, shortLen raw = 2 + raw.toNat % 2 ∧ shortOff raw = raw.toNat / 2 ∧
    shortOff raw ≤ 127 ∧ (shortLen raw = 2 ∨ shortLen raw = 3)) ∧
  (∀ (raw : Byte) (s : State), exec (.endMark (raw ||| 1#8)) s = exec (.endMark (raw &&& 0xFE#8)) s)

/-! ### What each token does: its result, completion and frame -/

/-- R162: `INIT` in a memory with room appends its byte and writes no flag. -/
def Obligations.InitAppendsItsByte : Prop :=
  ∀ (l : Byte) (s : State), s.outLen < s.cfg.outCap →
    ∃ t, exec (.init l) s = .next t ∧ appended l s t ∧ t.lwm = s.lwm ∧ sameOffset s t ∧ goesOn s t

/-- R163: `LIT` in a memory with room appends its byte and clears `lwm`; `last_offset` is unchanged. -/
def Obligations.LitAppendsItsByte : Prop :=
  ∀ (l : Byte) (s : State), s.outLen < s.cfg.outCap →
    ∃ t, exec (.lit l) s = .next t ∧ appended l s t ∧ t.lwm = false ∧ sameOffset s t ∧ goesOn s t

/-- R186: `ZLIT` in a memory with room appends one zero byte and clears `lwm`, whatever `last_offset` is. -/
def Obligations.ZlitAppendsZero : Prop :=
  ∀ s : State, s.outLen < s.cfg.outCap →
    ∃ t, exec .zlit s = .next t ∧ appended 0#8 s t ∧ t.lwm = false ∧ sameOffset s t ∧ goesOn s t

/-- R167, R170, R172: `GMATCH` with a valid offset and room copies its bytes, sets `last_offset` to the final offset and
sets `lwm`. -/
def Obligations.GmatchCopies : Prop :=
  ∀ (g : Nat) (lo : Byte) (n : Nat) (s : State) (off len : Nat),
    off = gmatchOff s.lwm g lo → len = n + bump s.cfg off →
    1 ≤ off → off ≤ s.outLen → s.outLen + len ≤ s.cfg.outCap →
    ∃ t, exec (.gmatch g lo n) s = .next t ∧ copied off len s t ∧
      t.lastOffset = off ∧ t.lastOffsetValid = true ∧ t.lwm = true ∧ goesOn s t

/-- R175, R85: `REPMATCH` with a valid `last_offset` and room copies `N` bytes, no bump, sets `lwm` and leaves
`last_offset`. -/
def Obligations.RepmatchCopies : Prop :=
  ∀ (n : Nat) (s : State),
    s.lastOffsetValid = true → 1 ≤ s.lastOffset → s.lastOffset ≤ s.outLen → s.outLen + n ≤ s.cfg.outCap →
    ∃ t, exec (.repmatch n) s = .next t ∧ copied s.lastOffset n s t ∧ sameOffset s t ∧ t.lwm = true ∧ goesOn s t

/-- R179, R180: `SMATCH` with a valid offset and room copies 2 or 3 bytes, sets `last_offset` and `lwm`. -/
def Obligations.SmatchCopies : Prop :=
  ∀ (raw : Byte) (s : State),
    1 ≤ shortOff raw → shortOff raw ≤ s.outLen → s.outLen + shortLen raw ≤ s.cfg.outCap →
    ∃ t, exec (.smatch raw) s = .next t ∧ copied (shortOff raw) (shortLen raw) s t ∧
      t.lastOffset = shortOff raw ∧ t.lastOffsetValid = true ∧ t.lwm = true ∧ goesOn s t

/-- R185: `NMATCH` with a valid offset and room copies one byte, clears `lwm` and leaves `last_offset`. -/
def Obligations.NmatchCopiesOneByte : Prop :=
  ∀ (nib : Nibble) (s : State), nib ≠ 0#4 → nib.toNat ≤ s.outLen → s.outLen < s.cfg.outCap →
    ∃ t, exec (.nmatch nib) s = .next t ∧ appended (s.outByte (s.outLen - nib.toNat)) s t ∧
      t.lwm = false ∧ sameOffset s t ∧ goesOn s t

/-- R183, R265, R208: `END` always completes: it sets `done`, `status` DONE with no error, and `S_STOP`; the output, the
reader and the rest are unchanged. The writes of `last_offset` and `lwm` are the spec's decision D8 (log 20). -/
def Obligations.EndMarkEndsTheDecode : Prop :=
  ∀ (raw : Byte) (s : State),
    ∃ t, exec (.endMark raw) s = .next t ∧ t.done = true ∧ t.lastOffset = 0 ∧ t.lastOffsetValid = true ∧
      t.lwm = true ∧ t.status = .done ∧ t.errCode = .none ∧ t.recovered = false ∧ stopped t ∧
      sameOutput s t ∧ t.rd = s.rd ∧ sameSetup s t

/-- R140, R142 (the spec's decision D4): the appending tokens in a full memory raise `OutputOverflow` and write
nothing. -/
def Obligations.AppendingTokensOverflow : Prop :=
  ∀ (i : Instr) (s : State), ((∃ l, i = .init l) ∨ (∃ l, i = .lit l) ∨ i = .zlit) → s.outLen = s.cfg.outCap →
    ∃ t, exec i s = .next t ∧ t.errCode = .outputOverflow ∧ stopped t ∧ t.lwm = s.lwm ∧ sameOffset s t ∧
      sameOutput s t ∧ t.rd = s.rd ∧ t.done = s.done ∧ sameSetup s t

/-- R143, R145, R176 (the spec's decisions D6, D9): a back-reference token whose offset is none, 0 or more than `out_len`
raises `InvalidBackRef`, and no byte, flag or offset register is written. -/
def Obligations.BadOffsetWritesNothing : Prop :=
  ∀ (i : Instr) (s : State) (off len : Nat), copyOf i s = some (off, len) →
    (off = 0 ∨ s.outLen < off ∨ ((∃ n, i = .repmatch n) ∧ s.lastOffsetValid = false)) →
    ∃ t, exec i s = .next t ∧ t.errCode = .invalidBackref ∧ stopped t ∧ t.lwm = s.lwm ∧ sameOffset s t ∧
      sameOutput s t ∧ t.rd = s.rd ∧ t.done = s.done ∧ sameSetup s t

/-- R146 (the spec's decision D4): a valid copy that does not fit raises `OutputOverflow` with the bytes copied before it
in place and `out_len = OUT_CAP`; no flag or offset register is written. -/
def Obligations.OverflowingCopyKeepsItsBytes : Prop :=
  ∀ (i : Instr) (s : State) (off len : Nat), copyOf i s = some (off, len) →
    1 ≤ off → off ≤ s.outLen → ((∃ n, i = .repmatch n) → s.lastOffsetValid = true) →
    s.outLen ≤ s.cfg.outCap → s.cfg.outCap < s.outLen + len →
    ∃ t, exec i s = .next t ∧ t.errCode = .outputOverflow ∧ stopped t ∧ t.outLen = s.cfg.outCap ∧
      copied off (s.cfg.outCap - s.outLen) s t ∧ t.lwm = s.lwm ∧ sameOffset s t ∧ t.rd = s.rd ∧
      t.done = s.done ∧ sameSetup s t

/-- The frame of the appending tokens `INIT`, `LIT`, `ZLIT` (R41, R140), on every path: every byte of `OUT` but the one
at `out_len` reads as before, and only `out_len`, `lwm`, the status registers and the working registers may change. -/
def Obligations.AppendingTokensFrame : Prop :=
  ∀ (i : Instr) (s t : State), ((∃ l, i = .init l) ∨ (∃ l, i = .lit l) ∨ i = .zlit) → exec i s = .next t →
    sameOutside s.outLen (s.outLen + 1) s t ∧ sameOffset s t ∧ t.done = s.done ∧ t.rd = s.rd ∧ sameSetup s t ∧
    ((∃ l, i = .init l) → t.lwm = s.lwm)

/-- The frame of the back-reference tokens (R41, R143), on every path: every byte of `OUT` outside the `len` bytes from
`out_len` on reads as before; `REPMATCH` and `NMATCH` leave `last_offset`; only the registers that R41 names may
change. -/
def Obligations.CopyingTokensFrame : Prop :=
  ∀ (i : Instr) (s t : State) (off len : Nat), copyOf i s = some (off, len) → exec i s = .next t →
    sameOutside s.outLen (s.outLen + len) s t ∧ t.outLen ≤ s.outLen + len ∧ t.done = s.done ∧ t.rd = s.rd ∧
    sameSetup s t ∧ (((∃ n, i = .repmatch n) ∨ (∃ nib, i = .nmatch nib)) → sameOffset s t)

/-- R25 (with the spec's decision D8 for `END`): after a token that completes, `lwm` is 0 for `LIT`, `NMATCH` and `ZLIT`,
1 for `GMATCH`, `REPMATCH`, `SMATCH` and `END`, and unchanged for `INIT`; a token that raises an error leaves it. -/
def Obligations.LwmHasExactlyItsWriters : Prop :=
  ∀ (i : Instr) (s t : State), exec i s = .next t →
    (t.fsm = .b1 ∨ (∃ raw, i = .endMark raw) → t.lwm = i.lwmAfter s.lwm) ∧
    (t.fsm = .stop → (∀ raw, i ≠ .endMark raw) → t.lwm = s.lwm)

/-! ### Errors -/

/-- R233: in strict mode an error sets `status` ERROR, the error's code by R230's table and `recovered` 0, and the decode
has no result. -/
def Obligations.StrictErrorIsReported : Prop :=
  codesOfTheTable ∧ ∀ (e : ErrorKind) (s : State), s.strictQ = true →
    (s.takeError e).status = .error ∧ (s.takeError e).errCode = errCodeOf e ∧ (s.takeError e).recovered = false ∧
    (s.takeError e).result = none

/-- R234, R235 (the spec's decision D11): in lenient mode every error kind ends the decode with `status` DONE,
`recovered` 1 and the error's code by R230's table, and the result is the output so far. -/
def Obligations.LenientErrorKeepsTheOutput : Prop :=
  codesOfTheTable ∧ ∀ (e : ErrorKind) (s : State), s.strictQ = false →
    (s.takeError e).status = .done ∧ (s.takeError e).errCode = errCodeOf e ∧ (s.takeError e).recovered = true ∧
    (s.takeError e).result = some ((List.range s.outLen).map s.outByte)

/-- R232: after an error the control state is `S_STOP`, the loop does not continue (with low ports every further step
changes nothing, so nothing is read or written), and `in_ptr`, `out_len`, `tag`, `bitcount`, `last_offset`, its valid
bit, `lwm` and `done` keep their values, as do both memories; strict mode and lenient mode set the status registers as
R233, R234 and the table of R230 say. `S_STOP` is the spec's decision D1, the lenient codes its decision D11. -/
def Obligations.ErrorStopsTheDecodeInPlace : Prop :=
  codesOfTheTable ∧ ∀ (e : ErrorKind) (s t : State), t = s.takeError e →
    stopped t ∧ t.rd = s.rd ∧ sameOutput s t ∧ sameOffset s t ∧ t.lwm = s.lwm ∧ t.done = s.done ∧ t.inMem = s.inMem ∧
    (s.strictQ = true → t.status = .error ∧ t.errCode = errCodeOf e ∧ t.recovered = false) ∧
    (s.strictQ = false → t.status = .done ∧ t.errCode = errCodeOf e ∧ t.recovered = true) ∧
    (portsLow s → ∀ n, iterate step n t = .next t ∧ iterate microMachine n t = .next t)

/-- R164 (the spec's decision D10): a step in which a token raises an error, while its fields are read or while it runs,
writes none of `last_offset`, its valid bit, `lwm` and `done`. R172 and R180: `GMATCH` and `SMATCH` write their own final
offset when they complete, and nothing of it when they fail. -/
def Obligations.FailedTokenWritesNoFlag : Prop :=
  (∀ s t : State, atBoundary s → portsQuiet s → step s = .next t → t.fsm = .stop → t.errCode ≠ .none →
    sameOffset s t ∧ t.lwm = s.lwm ∧ t.done = s.done) ∧
  (∀ (g : Nat) (lo : Byte) (n : Nat) (s t : State), exec (.gmatch g lo n) s = .next t →
    (t.fsm = .b1 ∧ t.lastOffset = gmatchOff s.lwm g lo ∧ t.lastOffsetValid = true ∧ t.lwm = true) ∨
    (t.fsm = .stop ∧ sameOffset s t ∧ t.lwm = s.lwm)) ∧
  (∀ (raw : Byte) (s t : State), exec (.smatch raw) s = .next t →
    (t.fsm = .b1 ∧ t.lastOffset = shortOff raw ∧ t.lastOffsetValid = true ∧ t.lwm = true) ∨
    (t.fsm = .stop ∧ sameOffset s t ∧ t.lwm = s.lwm))

/-- R249 (the spec's decision D17): a recorded error is changed by nothing but a reset or a start. -/
def Obligations.RecordedErrorStays : Prop :=
  ∀ s t : State, Inv s → s.errCode ≠ .none → step s = .next t → s.ports.rst = false → s.ports.start = false →
    t.errCode = s.errCode ∧ t.status = s.status ∧ t.recovered = s.recovered

/-! ### Steps -/

/-- R160, R161: at the top of the loop, with quiet ports, when the bits at the reading position decode to a token, the
step is that token's meaning after the reader has moved past its fields; before the loop the same for `INIT`. When
reading the fields raises an error, the step takes it, with the fields read so far consumed (R164, R165). -/
def Obligations.StepRunsTheDecodedToken : Prop :=
  (∀ (s : State) (i : Instr) (c : Cursor), portsQuiet s → s.fsm = .b1 →
    decodeToken s.source s.cfg.gammaW s.lwm s.rd = .got i c → step s = exec i { s with rd := c }) ∧
  (∀ (s : State) (i : Instr) (c : Cursor), portsQuiet s → s.fsm = .init →
    decodeInit s.source s.rd = .got i c → step s = exec i { s with rd := c }) ∧
  (∀ (s : State) (e : ErrorKind) (c : Cursor), portsQuiet s → s.fsm = .b1 →
    decodeToken s.source s.cfg.gammaW s.lwm s.rd = .raised e c → step s = .next ({ s with rd := c }.takeError e)) ∧
  (∀ (s : State) (e : ErrorKind) (c : Cursor), portsQuiet s → s.fsm = .init →
    decodeInit s.source s.rd = .raised e c → step s = .next ({ s with rd := c }.takeError e))

/-- R260, R37, R261 (the spec's decisions D15, D16): a reset sets every named register to its reset value in any state,
also in the middle of a decode, leaves `IN`, and leaves `OUT` unless it abandons a running decode (I8, log 8). -/
def Obligations.ResetSetsEveryRegister : Prop :=
  ∀ s : State, s.ports.rst = true → s.ports.start = false →
    ∃ t, step s = .next t ∧ t.status = .idle ∧ t.errCode = .none ∧ t.recovered = false ∧ t.fsm = .idle ∧
      t.rd = ⟨0, 0#8, 0#3⟩ ∧ t.outLen = 0 ∧ t.lastOffset = 0 ∧ t.lastOffsetValid = false ∧ t.lwm = false ∧
      t.done = false ∧ t.strictQ = false ∧ t.inLenQ = 0 ∧ t.inMem = s.inMem ∧ t.cfg = s.cfg ∧ t.ports = s.ports ∧
      (s.status ≠ .busy → t.outMem = s.outMem)

/-- R262, R38 (the spec's decisions D7, D13): a start from IDLE, DONE or ERROR with a legal `in_len` latches the ports
and sets the per-decode state; both memories are unchanged (of `OUT` that is the model's list, log 25). -/
def Obligations.StartSetsThePerDecodeState : Prop :=
  ∀ s : State, s.ports.rst = false → s.ports.start = true → s.status ≠ .busy → s.ports.inLen ≤ s.cfg.inCap →
    ∃ t, step s = .next t ∧ t.inLenQ = s.ports.inLen ∧ t.strictQ = s.ports.strict ∧ t.rd = ⟨0, 0#8, 0#3⟩ ∧
      t.outLen = 0 ∧ t.lastOffset = 0 ∧ t.lastOffsetValid = false ∧ t.lwm = false ∧ t.done = false ∧
      t.errCode = .none ∧ t.recovered = false ∧ t.status = .busy ∧ t.fsm = .init ∧
      t.inMem = s.inMem ∧ t.outMem = s.outMem ∧ t.cfg = s.cfg ∧ t.ports = s.ports

/-- R262 and I13 (decision D5; log 9, log 10): the two host steps that the spec gives no meaning are refused by name. -/
def Obligations.MeaninglessHostStepsAreRefused : Prop :=
  (∀ s : State, s.ports.rst = false → s.ports.start = true → s.status ≠ .busy → s.cfg.inCap < s.ports.inLen →
    step s = .refused (.startBeyondInput s.ports.inLen)) ∧
  (∀ s : State, s.ports.rst = true → s.ports.start = true → step s = .refused .resetWithStart)

/-- R263 (the spec's decision D15; I7, log 11): a start while busy is ignored, at both levels: the step goes as it would
with `start` low, and the live ports `strict` and `in_len` are not read either (R30). -/
def Obligations.StartWhileBusyIsIgnored : Prop :=
  ∀ (s t : State) (p : Ports), s.status = .busy → portsLow s → p.rst = false →
    (step s = .next t → step (s.drive p) = .next (t.drive p)) ∧
    (microMachine s = .next t → microMachine (s.drive p) = .next (t.drive p))

/-- R202, R219 (the spec's decisions D15, D17): with low ports `S_IDLE` and `S_STOP` take no action, at both levels. -/
def Obligations.IdleAndStopAreStable : Prop :=
  ∀ s : State, portsLow s → s.fsm = .idle ∨ s.fsm = .stop → step s = .next s ∧ microMachine s = .next s

/-- R26: only `END` writes 1 to `done`: when the loop decodes the end marker, or inside a token (log 1) at the
micro-state of R208 (the spec's decision D1), when it reads a byte with bits 7 to 1 zero. The end state has the writes of
the spec's decision D8 (log 20). A decode with `done = 1` has stopped. -/
def Obligations.OnlyTheEndMarkerSetsDone : Prop :=
  (∀ s t : State, step s = .next t → s.done = false → t.done = true →
    (s.fsm = .b1 ∧ ∃ raw c, decodeToken s.source s.cfg.gammaW s.lwm s.rd = .got (.endMark raw) c ∧
      t = { s with rd := c }.endDecode) ∨
    (s.fsm = .sraw ∧ ∃ raw u, nextByte s = .ok raw u ∧ raw.extractLsb' 1 7 = 0#7 ∧ t = u.endDecode)) ∧
  (∀ s : State, Inv s → s.done = true → stopped s)

/-- R188: a step between tokens either goes on to the top of the loop, or it ends the decode, and then because `END` was
decoded or because of an error, with that error's code. In particular no output length ends it. -/
def Obligations.LoopEndsOnlyAtEndOrError : Prop :=
  ∀ s t : State, atBoundary s → portsQuiet s → step s = .next t →
    t.fsm = .b1 ∨
    (stopped t ∧ t.errCode = .none ∧ t.done = true ∧ s.fsm = .b1 ∧
      ∃ raw c, decodeToken s.source s.cfg.gammaW s.lwm s.rd = .got (.endMark raw) c) ∨
    (stopped t ∧ t.errCode ≠ .none)

/-- R52, R27: `OUT` is append-only while a decode runs: no byte already written changes, and no byte beyond the new
`out_len` is touched. -/
def Obligations.OutputIsAppendOnly : Prop :=
  ∀ s t : State, portsQuiet s → step s = .next t → s.outLen ≤ t.outLen ∧ sameOutside s.outLen t.outLen s t

/-- R51, R21, R66: no step of either level writes `IN`; and while a decode runs `in_ptr` never decreases. -/
def Obligations.InputIsReadForwardOnly : Prop :=
  ∀ s t : State, step s = .next t ∨ microMachine s = .next t →
    t.inMem = s.inMem ∧ (portsQuiet s → s.rd.inPtr ≤ t.rd.inPtr)

/-- R144: a copy repeats the last `off` bytes of the output with period `off`, whatever the overlap, and R147 with
`off = 1` repeats the last byte. -/
def Obligations.OverlappingCopyIsPeriodic : Prop :=
  ∀ (off len : Nat) (s : State), 1 ≤ off → off ≤ s.outLen → s.outLen + len ≤ s.cfg.outCap →
    ∃ t, backRef off len true s = .ok () t ∧ copied off len s t ∧
      (off = 1 → ∀ i < len, t.outByte (s.outLen + i) = s.outByte (s.outLen - 1))

/-! ### The invariant -/

/-- The invariant of Safety.lean holds at reset (R37). -/
def Obligations.ResetMeetsTheInvariant : Prop := Inv State.reset

/-- Every step keeps the invariant: canonical memories inside their arrays, `in_ptr <= in_len_q <= IN_CAP` (R21, R262),
`out_len <= OUT_CAP` (R27), zero bits below the unconsumed bits of `tag` (R22), every register within its width (R7,
R28), `status`, `fsm`, `done`, `err_code` and `recovered` in agreement (R31 to R33, R265), and `last_offset` between 1 and
`out_len` while it is valid (R24, R177). From any state that meets it, at the token level and at the micro-step level. -/
def Obligations.EveryStepKeepsTheInvariant : Prop :=
  ∀ s t : State, Inv s → (step s = .next t ∨ microMachine s = .next t) → Inv t

/-- A core that meets the invariant always goes on: with quiet ports no step of either level faults or is refused. -/
def Obligations.RunningCoreNeverFaults : Prop :=
  ∀ s : State, Inv s → portsQuiet s → (∃ t, step s = .next t) ∧ (∃ t, microMachine s = .next t)

/-! ### The two levels, termination, determinism, prefixes -/

/-- R221 (the spec's level choice D1): from before `INIT` or the top of the loop, one token step is reached by
micro-steps, in every part of the state, and the micro-states between are inside the token. -/
def Obligations.MicroStepsPerformTheToken : Prop :=
  ∀ s t : State, Inv s → atBoundary s → portsQuiet s → step s = .next t →
    ∃ n, 0 < n ∧ iterate microMachine n s = .next t ∧
      ∀ k, 0 < k → k < n → ∃ u, iterate microMachine k s = .next u ∧ ¬ atBoundary u ∧ ¬ stopped u ∧ u.fsm ≠ .idle

/-- R201 (the spec's decision D1): a micro-step reads at most one input byte and appends at most one output byte. -/
def Obligations.MicroStepMakesOneAccessOfAKind : Prop :=
  ∀ s t : State, microStep s = .next t →
    (t.rd.inPtr = s.rd.inPtr ∨ t.rd.inPtr = s.rd.inPtr + 1) ∧ (t.outLen = s.outLen ∨ t.outLen = s.outLen + 1) ∧
    sameOutside s.outLen t.outLen s t

/-- R204, R206, R207, R212 (the spec's decision D1): where the micro-states that read a control or continuation bit
go. -/
def Obligations.MicroStatesFollowTheBits : Prop :=
  ∀ (s u : State) (b : Bool), nextBit s = .ok b u →
    (s.fsm = .b1 → microStep s = .next { u with fsm := if b then .b2 else .lit }) ∧
    (s.fsm = .b2 → microStep s = .next (if b then { u with fsm := .b3 }
      else { u with fsm := .gd, work := { u.work with gAcc := 1, gsel := .off } })) ∧
    (s.fsm = .b3 → microStep s = .next (if b then { u with fsm := .nib, work := { u.work with nib := 0#4, nibCnt := 0#3 } }
      else { u with fsm := .sraw })) ∧
    (s.fsm = .gc → microStep s = .next { u with
      fsm := if b then .gd else if s.work.gsel = .off then .gsel else .glen })

/-- R203, R205, R208, R209, R210 (the spec's decision D1): the micro-states that read a byte or append one, and the nibble
state. -/
def Obligations.MicroStatesReadAndAppend : Prop :=
  ∀ s u : State,
    (∀ l v, nextByte s = .ok l u → append l u = .ok () v →
      (s.fsm = .init → microStep s = .next (v.leaveToken .b1)) ∧
      (s.fsm = .lit → microStep s = .next ({ v with lwm := false }.leaveToken .b1))) ∧
    (append 0#8 s = .ok () u → s.fsm = .zlit → microStep s = .next ({ u with lwm := false }.leaveToken .b1)) ∧
    (∀ raw, nextByte s = .ok raw u → s.fsm = .sraw →
      (raw.extractLsb' 1 7 ≠ 0#7 → microStep s = .next { u with
        fsm := .chk
        work := { u.work with
          raw := raw, off := (raw.extractLsb' 1 7).toNat, len := 2 + (raw.extractLsb' 0 1).toNat, ovalid := true,
          mode := .sm } }) ∧
      (raw.extractLsb' 1 7 = 0#7 → ∃ t, microStep s = .next t ∧ t.done = true ∧ t.lastOffset = 0 ∧
        t.lastOffsetValid = true ∧ t.lwm = true ∧ t.status = .done ∧ t.errCode = .none ∧ t.recovered = false ∧
        stopped t ∧ sameOutput s t ∧ t.rd = u.rd)) ∧
    (∀ b nib, nextBit s = .ok b u → s.fsm = .nib → nib.toNat = (2 * s.work.nib.toNat + b.toNat) % 16 →
      (s.work.nibCnt.toNat < 3 → microStep s = .next { u with
        work := { u.work with nib := nib, nibCnt := s.work.nibCnt + 1#3 } }) ∧
      (s.work.nibCnt.toNat = 3 → nib ≠ 0#4 → microStep s = .next { u with
        fsm := .chk
        work := { u.work with nib := nib, nibCnt := 4#3, off := nib.toNat, len := 1, ovalid := true, mode := .nm } }) ∧
      (s.work.nibCnt.toNat = 3 → nib = 0#4 → microStep s = .next { u with
        fsm := .zlit, work := { u.work with nib := nib, nibCnt := 4#3 } }))

/-- R211, R213, R214, R215 (the spec's decision D1): the micro-states of the gamma-coded branch. -/
def Obligations.MicroStatesOfTheGammaBranch : Prop :=
  ∀ s : State,
    (∀ b u, nextBit s = .ok b u → s.fsm = .gd →
      (s.work.gAcc.testBit (s.cfg.gammaW - 1) = true → microStep s = .next (u.takeError (.gammaOverflow u.rd.inPtr))) ∧
      (s.work.gAcc.testBit (s.cfg.gammaW - 1) = false → microStep s = .next { u with
        fsm := .gc, work := { u.work with gAcc := s.work.gAcc <<< 1 ||| b.toNat } })) ∧
    (s.fsm = .gsel →
      (s.lwm = false → s.work.gAcc = 2 → microStep s = .next { s with
        fsm := .gd, work := { s.work with mode := .rep, gAcc := 1, gsel := .len } }) ∧
      (s.lwm = false → 3 ≤ s.work.gAcc → microStep s = .next { s with
        fsm := .glo, work := { s.work with mode := .gm, high := s.work.gAcc - 3 } }) ∧
      (s.lwm = true → microStep s = .next { s with
        fsm := .glo, work := { s.work with mode := .gm, high := s.work.gAcc - 2 } })) ∧
    (∀ lo u, nextByte s = .ok lo u → s.fsm = .glo → microStep s = .next { u with
      fsm := .gd
      work := { u.work with raw := lo, off := s.work.high <<< 8 ||| lo.toNat, gAcc := 1, gsel := .len } }) ∧
    (s.fsm = .glen →
      (s.work.mode = .gm → microStep s = .next { s with
        fsm := .chk, work := { s.work with len := s.work.gAcc + bump s.cfg s.work.off, ovalid := true } }) ∧
      (s.work.mode = .rep → microStep s = .next { s with
        fsm := .chk, work := { s.work with len := s.work.gAcc, off := s.lastOffset, ovalid := s.lastOffsetValid } }))

/-- R216, R217, R218 (the spec's decisions D1, D9): the micro-states of the copy engine. -/
def Obligations.MicroStatesOfTheCopyEngine : Prop :=
  ∀ s : State,
    (s.fsm = .chk →
      (s.work.ovalid = false ∨ s.work.off = 0 ∨ s.outLen < s.work.off →
        microStep s = .next (s.takeError (.invalidBackRef s.work.off s.outLen))) ∧
      (s.work.ovalid = true → 1 ≤ s.work.off → s.work.off ≤ s.outLen → microStep s = .next { s with
        fsm := .copy, work := { s.work with cnt := s.work.len } })) ∧
    (s.fsm = .copy → 1 ≤ s.work.cnt → 1 ≤ s.work.off → s.work.off ≤ s.outLen →
      (s.outLen < s.cfg.outCap → ∃ t, microStep s = .next t ∧ appended (s.outByte (s.outLen - s.work.off)) s t ∧
        t.work.cnt + 1 = s.work.cnt ∧ (t.work.cnt ≠ 0 → t.fsm = .copy) ∧ (t.work.cnt = 0 → t.fsm = .fin)) ∧
      (s.outLen = s.cfg.outCap → microStep s = .next (s.takeError (.outputOverflow s.outLen)))) ∧
    (s.fsm = .fin → ∃ t, microStep s = .next t ∧ t.fsm = .b1 ∧ sameOutput s t ∧
      (s.work.mode = .gm ∨ s.work.mode = .sm →
        t.lastOffset = s.work.off ∧ t.lastOffsetValid = true ∧ t.lwm = true) ∧
      (s.work.mode = .rep → sameOffset s t ∧ t.lwm = true) ∧
      (s.work.mode = .nm → sameOffset s t ∧ t.lwm = false))

/-- R189: every decode ends: from any state of a running decode between tokens, at most one step more than the bits left
to read leads to `S_STOP`. At a start that is `8 * in_len + 1` steps. -/
def Obligations.EveryDecodeStops : Prop :=
  ∀ s : State, Inv s → atBoundary s → portsLow s →
    ∃ n t, n ≤ bitsLeft s + 1 ∧ iterate step n s = .next t ∧ stopped t

/-- R190: a decode depends on nothing but its input below `in_len`, `in_len`, `strict_q`, the parameters `OUT_CAP`,
`GAMMA_W` and the bump thresholds: two cores that agree on these and on the registers agree after every run of tokens,
whatever their working registers, the bytes beyond, `IN_CAP` and the free values are. -/
def Obligations.DecodeDependsOnItsInputAlone : Prop :=
  ∀ (n : Nat) (s s' t t' : State), Inv s → Inv s' → SameDecode s s' → atBoundary s → portsLow s → portsLow s' →
    iterate step n s = .next t → iterate step n s' = .next t' → SameDecode t t'

/-- R239: a lenient decode of a cut input ends with a prefix of what the whole input gives; if it ends by the cut, a
strict decode of the cut input ends with `status` ERROR. -/
def Obligations.CutInputGivesAPrefix : Prop :=
  ∀ (s t u : State) (k m n : Nat), Inv s → atBoundary s → portsLow s → s.rd.inPtr ≤ k → k ≤ s.inLenQ →
    iterate step m (s.cutInput k) = .next t → stopped t → iterate step n s = .next u → stopped u →
    outputPrefix t u ∧ (t.errCode = .truncatedInput → s.strictQ = true → t.status = .error)

/-- I3 (log 5): every token writes each working register before it reads it, so a run of the micro-step machine from
between tokens to between tokens does not depend on what they held. -/
def Obligations.WorkingRegistersAreWrittenFirst : Prop :=
  ∀ (s t : State) (w : Work) (n : Nat), atBoundary s → 0 < n → iterate microStep n s = .next t →
    t.fsm = .b1 ∨ stopped t → iterate microStep n { s with work := w } = .next t

/-! ### The host -/

/-- R53, R65, R31 to R34: what the host sees: the result is the output when `status` is DONE, and a read of one of its
bytes answers it; there is none when `status` is ERROR; `busy` is (`status = BUSY`); the codes are those of the tables;
while busy the host's accesses, a load of a whole input among them, are refused (I6, log 12). -/
def Obligations.HostSeesTheResult : Prop :=
  (∀ s : State, (s.status = .done → s.result = some ((List.range s.outLen).map s.outByte)) ∧
    (s.status = .error → s.result = none) ∧ (s.busy = true ↔ s.status = .busy) ∧
    (∀ a, s.status = .done → a < s.outLen → a < s.cfg.outCap → hostReadOut a s = .byte (s.outByte a))) ∧
  (Status.idle.code = 0#2 ∧ Status.busy.code = 1#2 ∧ Status.done.code = 2#2 ∧ Status.error.code = 3#2) ∧
  (ErrCode.none.code = 0#3 ∧ ErrCode.truncatedInput.code = 1#3 ∧ ErrCode.invalidBackref.code = 2#3 ∧
    ErrCode.outputOverflow.code = 3#3 ∧ ErrCode.gammaOverflow.code = 4#3) ∧
  (∀ (s : State) (a : Nat) (v : Byte), s.status = .busy → a < s.cfg.outCap →
    hostReadOut a s = .refused (.hostTouchesBusyOutput a) ∧
    hostWriteOut a v s = .refused (.hostTouchesBusyOutput a)) ∧
  (∀ (s : State) (a : Nat) (v : Byte), s.status = .busy → a < s.inLenQ → a < s.cfg.inCap →
    hostWriteIn a v s = .refused (.hostWritesBusyInput a)) ∧
  (∀ (s : State) (bs : List Byte), s.status = .busy → bs ≠ [] → 0 < s.inLenQ → 0 < s.cfg.inCap →
    hostLoad 0 bs s = .refused (.hostWritesBusyInput 0))

/-- The host's own moves, where they are not refused, keep the invariant. -/
def Obligations.HostMovesKeepTheInvariant : Prop :=
  ∀ (s t : State), Inv s →
    (∀ a v, hostWriteIn a v s = .next t → Inv t) ∧ (∀ a bs, hostLoad a bs s = .next t → Inv t) ∧
    (∀ a v, hostWriteOut a v s = .next t → Inv t) ∧
    (∀ p : Ports, p.inLen < 2 ^ s.cfg.inAw → Inv (s.drive p))

/-- R72 to R74 (host side, outside the core, R6): in strict mode with a header, bytes to decode whose number is not
`packed_size` or whose CRC-32 is not `packed_crc32` end the call before the core starts; then a core error is surfaced
first; then an output whose number of bytes is not `orig_size` or whose CRC-32 is not `orig_crc32` ends the call. Lenient
mode checks nothing. A call without the magic at the start of its data decodes all of it and checks nothing. The slice and
the parameters of the CRC-32 are PRESUMED (log 22). -/
def Obligations.FramingChecksOnlyInStrictMode : Prop :=
  (∀ (cfg : Config) (h : Header) (data slice : List Byte),
    slice = (data.drop h.headerSize.toNat).take h.packedSize.toNat →
    (¬ (slice.length = h.packedSize.toNat ∧ crc32 slice = h.packedCrc32) →
      decodeFramed cfg true h data = .headerMismatch) ∧
    (slice.length = h.packedSize.toNat → crc32 slice = h.packedCrc32 →
      (∀ e, decodePlain cfg true slice = .decodeError e → decodeFramed cfg true h data = .decodeError e) ∧
      (∀ out, decodePlain cfg true slice = .bytes out →
        (out.length = h.origSize.toNat ∧ crc32 out = h.origCrc32 → decodeFramed cfg true h data = .bytes out) ∧
        (¬ (out.length = h.origSize.toNat ∧ crc32 out = h.origCrc32) →
          decodeFramed cfg true h data = .headerMismatch))) ∧
    decodeFramed cfg false h data = decodePlain cfg false slice) ∧
  (∀ (cfg : Config) (magic : Vector Byte 4) (data : List Byte) (strict : Bool),
    (data.take 4 ≠ magic.toList → decompress cfg magic data strict = decodePlain cfg strict data) ∧
    (∀ h, data.take 4 = magic.toList → parseHeader data = some h →
      decompress cfg magic data strict = decodeFramed cfg strict h data))
end

