-- ==== Sys2Proof/Laws/Decode.lean ====
section
/-! SUPPORT. What each read of the bit reader can do (R101, R104, R120), and the spec's shifts as the arithmetic that
the definitions use. -/

namespace Sys2Proof

/-- `(v << 1) | b` is `2 v + b` (R55). -/
theorem shiftIn_eq_shift_or (v : Nat) (b : Bool) : shiftIn v b = (v <<< 1 ||| b.toNat) := by
  have h : b.toNat < 2 ^ 1 := by cases b <;> decide
  rw [shiftIn, ← Nat.shiftLeft_add_eq_or_of_lt h, Nat.shiftLeft_eq]; omega

/-- `NextBit` answers a bit in two ways: from the tag, or from a refill. -/
theorem readBit_got {src : Source} {c c' : Cursor} {b : Bool} (h : readBit src c = .got b c') :
    (c.bitcount ≠ 0#3 ∧ b = c.tag.getLsbD 7 ∧ c' = ⟨c.inPtr, c.tag <<< 1, c.bitcount - 1#3⟩) ∨
    (c.bitcount = 0#3 ∧ c.inPtr ≠ src.len ∧ ∃ v, src.byte c.inPtr = some v ∧ b = v.getLsbD 7 ∧
      c' = ⟨c.inPtr + 1, v <<< 1, 7#3⟩) := by
  unfold readBit at h
  split at h
  · next h0 =>
    split at h
    · cases h
    · next hl =>
      split at h
      · cases h
      · next v hv => cases h; exact .inr ⟨h0, hl, v, hv, rfl, rfl⟩
  · next h0 => cases h; exact .inl ⟨h0, rfl, rfl⟩

/-- `NextBit` raises in one way, and changes nothing (R103). -/
theorem readBit_raised {src : Source} {c c' : Cursor} {e : ErrorKind} (h : readBit src c = .raised e c') :
    c.bitcount = 0#3 ∧ c.inPtr = src.len ∧ e = .truncatedInput c.inPtr ∧ c' = c := by
  unfold readBit at h
  split at h
  · next h0 =>
    split at h
    · next hl => cases h; exact ⟨h0, hl, rfl, rfl⟩
    · split at h <;> cases h
  · cases h

/-- `NextByte` answers the byte at `in_ptr`. -/
theorem readByte_got {src : Source} {c c' : Cursor} {v : Byte} (h : readByte src c = .got v c') :
    c.inPtr ≠ src.len ∧ src.byte c.inPtr = some v ∧ c' = { c with inPtr := c.inPtr + 1 } := by
  unfold readByte at h
  split at h
  · cases h
  · next hl =>
    split at h
    · cases h
    · next w hw => cases h; exact ⟨hl, hw, rfl⟩

/-- `NextByte` raises in one way, and changes nothing. -/
theorem readByte_raised {src : Source} {c c' : Cursor} {e : ErrorKind} (h : readByte src c = .raised e c') :
    c.inPtr = src.len ∧ e = .truncatedInput c.inPtr ∧ c' = c := by
  unfold readByte at h
  split at h
  · next hl => cases h; exact ⟨hl, rfl, rfl⟩
  · split at h <;> cases h

/-- A read in sequence answers a value only through a first value. -/
theorem Read.bind_got {α β : Type} {r : Read α} {k : α → Cursor → Read β} {v : β} {c : Cursor}
    (h : r.bind k = .got v c) : ∃ a d, r = .got a d ∧ k a d = .got v c := by
  cases r with
  | got a d => exact ⟨a, d, rfl, h⟩
  | raised e d => cases h
  | noByte a => cases h

/-- A read in sequence raises first or after a first value. -/
theorem Read.bind_raised {α β : Type} {r : Read α} {k : α → Cursor → Read β} {e : ErrorKind} {c : Cursor}
    (h : r.bind k = .raised e c) : r = .raised e c ∨ ∃ a d, r = .got a d ∧ k a d = .raised e c := by
  cases r with
  | got a d => exact .inr ⟨a, d, rfl, h⟩
  | raised e d => cases h; exact .inl rfl
  | noByte a => cases h

/-- `NextBit` asks for a byte that the memory does not have only where it has none. -/
theorem readBit_noByte {src : Source} {c : Cursor} {a : Nat} (h : readBit src c = .noByte a) : src.byte a = none := by
  unfold readBit at h
  split at h
  · split at h
    · cases h
    · split at h
      · next hb => cases h; exact hb
      · cases h
  · cases h

/-- `NextByte` asks for a byte that the memory does not have only where it has none. -/
theorem readByte_noByte {src : Source} {c : Cursor} {a : Nat} (h : readByte src c = .noByte a) : src.byte a = none := by
  unfold readByte at h
  split at h
  · cases h
  · split at h
    · next hb => cases h; exact hb
    · cases h

/-- A read in sequence lacks a byte first or after a first value. -/
theorem Read.bind_noByte {α β : Type} {r : Read α} {k : α → Cursor → Read β} {i : Nat} (h : r.bind k = .noByte i) :
    r = .noByte i ∨ ∃ a d, r = .got a d ∧ k a d = .noByte i := by
  cases r with
  | got a d => exact .inr ⟨a, d, rfl, h⟩
  | raised e d => cases h
  | noByte a => cases h; exact .inl rfl

/-- Reading a list of fields after another. -/
theorem readsAs_append {src : Source} {fs : List Field} (gs : List Field) {c d : Cursor} (h : readsAs src fs c = some d) :
    readsAs src (fs ++ gs) c = readsAs src gs d := by
  induction fs generalizing c with
  | nil => cases h; rfl
  | cons f fs ih =>
    cases f <;> simp only [readsAs, List.cons_append] at h ⊢ <;> split at h
    any_goals cases h
    all_goals
      split at h
      · next hr hb => subst hb; simpa only [hr, if_true] using ih h
      · cases h

@[simp] theorem Read.got_bind {α β : Type} (a : α) (c : Cursor) (k : α → Cursor → Read β) :
    (Read.got a c).bind k = k a c := rfl

/-- The accumulator is full exactly from half its range on. -/
theorem gammaFull_iff {w acc : Nat} (hw : 1 ≤ w) (h : acc < 2 ^ w) : gammaFull w acc = true ↔ 2 ^ (w - 1) ≤ acc := by
  obtain ⟨k, rfl⟩ : ∃ k, w = k + 1 := ⟨w - 1, by omega⟩
  simp only [gammaFull, Nat.add_sub_cancel]
  constructor
  · exact Nat.ge_two_pow_of_testBit
  · intro hk
    rw [Nat.testBit_eq_decide_div_mod_eq, decide_eq_true_eq]
    have h1 : acc / 2 ^ k < 2 := Nat.div_lt_of_lt_mul (by rw [← Nat.pow_succ]; exact h)
    have h2 : 1 ≤ acc / 2 ^ k := (Nat.one_le_div_iff (by positivity)).2 hk
    omega

end Sys2Proof
end

