-- ==== Sys2Proof/Laws/Memory.lean ====
section
/-! SUPPORT. The laws of a byte memory: read after write, and that every memory operation keeps the canonical form. -/

namespace Sys2Proof.Machine.Memory

@[simp] theorem read_nil (a : Nat) : Memory.read [] a = none := rfl

@[simp] theorem read_write_same (m : Memory) (a : Nat) (v : Byte) : (m.write a v).read a = some v := by
  induction m with
  | nil => simp [write, read]
  | cons c m ih =>
    obtain ⟨k, w⟩ := c
    by_cases h : a < k
    · simp [write, read, h]
    · by_cases h' : a = k
      · simp [write, read, h']
      · simp only [write, h, h', if_false, read]
        rw [if_neg (fun hk => h' hk.symm), ih]

@[simp] theorem read_write_other (m : Memory) {a b : Nat} (v : Byte) (h : b ≠ a) :
    (m.write a v).read b = m.read b := by
  induction m with
  | nil => simp [write, read, Ne.symm h]
  | cons c m ih =>
    obtain ⟨k, w⟩ := c
    by_cases h1 : a < k
    · simp [write, read, h1, Ne.symm h]
    · by_cases h2 : a = k
      · subst h2; simp [write, read, Ne.symm h]
      · simp only [write, h1, h2, if_false, read, ih]

/-- A memory holds only the indices it held and the one written. -/
theorem mem_write {m : Memory} {a : Nat} {v : Byte} {c : Host.Cell} (h : c ∈ m.write a v) : c = (a, v) ∨ c ∈ m := by
  induction m with
  | nil => simpa [write] using h
  | cons d m ih =>
    obtain ⟨k, w⟩ := d
    simp only [write] at h
    split at h
    · simpa using h
    · split at h
      · rcases List.mem_cons.1 h with h | h
        · exact .inl h
        · exact .inr (List.mem_cons_of_mem _ h)
      · rcases List.mem_cons.1 h with h | h
        · exact .inr (h ▸ List.mem_cons_self ..)
        · exact (ih h).imp_right (List.mem_cons_of_mem _)

/-- A write keeps the canonical form. -/
theorem wf_write {m : Memory} (hm : m.wf) (a : Nat) (v : Byte) : (m.write a v).wf := by
  induction m with
  | nil => simp [write, wf]
  | cons c m ih =>
    obtain ⟨k, w⟩ := c
    obtain ⟨hk, ht⟩ := List.pairwise_cons.1 hm
    simp only [write]
    split
    · next h =>
      refine List.pairwise_cons.2 ⟨fun c hc => ?_, List.pairwise_cons.2 ⟨hk, ht⟩⟩
      rcases List.mem_cons.1 hc with rfl | hc
      · exact h
      · exact Nat.lt_trans h (hk c hc)
    · split
      · next h => subst h; exact List.pairwise_cons.2 ⟨hk, ht⟩
      · next h1 h2 =>
        refine List.pairwise_cons.2 ⟨fun c hc => ?_, ih ht⟩
        rcases mem_write hc with rfl | hc
        · show k < a; omega
        · exact hk c hc

/-- Writing a list of bytes keeps the canonical form. -/
theorem wf_writeAll {m : Memory} (hm : m.wf) (a : Nat) (vs : List Byte) : (m.writeAll a vs).wf := by
  induction vs generalizing m a with
  | nil => exact hm
  | cons v vs ih => exact ih (wf_write hm a v) (a + 1)

/-- New bytes at the same indices keep the canonical form. -/
theorem wf_map_bytes {m : Memory} (hm : m.wf) (f : Host.Cell → Byte) : Memory.wf (m.map fun c => (c.1, f c)) :=
  List.pairwise_map.2 hm

/-- What a reset makes of `OUT` keeps the canonical form. -/
theorem wf_outAfterReset {s : State} (h : s.outMem.wf) : (outAfterReset s).wf := by
  unfold outAfterReset; split
  · exact wf_map_bytes h _
  · exact h

/-- Reading below and past a block of written bytes. -/
theorem read_writeAll_outside (m : Memory) (a b : Nat) (vs : List Byte) (h : b < a ∨ a + vs.length ≤ b) :
    (m.writeAll a vs).read b = m.read b := by
  induction vs generalizing m a with
  | nil => rfl
  | cons v vs ih =>
    simp only [List.length_cons] at h
    rw [writeAll, ih _ _ (by omega), read_write_other _ _ (by omega)]

/-- Reading inside a block of written bytes. -/
theorem read_writeAll_inside (m : Memory) (a : Nat) (vs : List Byte) (i : Nat) (h : i < vs.length) :
    (m.writeAll a vs).read (a + i) = some vs[i] := by
  induction vs generalizing m a i with
  | nil => simp at h
  | cons v vs ih =>
    cases i with
    | zero => rw [writeAll, read_writeAll_outside _ _ _ _ (by omega)]; simp
    | succ i =>
      have := ih (m.write a v) (a + 1) i (by simpa using h)
      simpa [writeAll, Nat.add_assoc, Nat.add_comm 1] using this

end Sys2Proof.Machine.Memory

namespace Sys2Proof.Machine

/-- The host's write into `IN` goes on in one way: inside the memory and not into a running decode's input. -/
theorem hostWriteIn_next {a : Nat} {v : Byte} {s t : State} (h : hostWriteIn a v s = .next t) :
    a < s.cfg.inCap ∧ (s.status = .busy → s.inLenQ ≤ a) ∧ t = { s with inMem := s.inMem.write a v } := by
  unfold hostWriteIn at h
  split at h
  · cases h
  · split at h
    · cases h
    · next h1 h2 => cases h; exact ⟨by omega, fun hb => Nat.le_of_not_lt fun ha => h2 ⟨hb, ha⟩, rfl⟩

/-- A load that goes on has written its bytes into `IN` and nothing else, all under the conditions of one write. -/
theorem hostLoad_next {a : Nat} {bs : List Byte} {s t : State} (h : hostLoad a bs s = .next t) :
    (bs ≠ [] → a + bs.length ≤ s.cfg.inCap ∧ (s.status = .busy → s.inLenQ ≤ a)) ∧
    t = { s with inMem := s.inMem.writeAll a bs } := by
  induction bs generalizing a s with
  | nil => cases h; exact ⟨fun h => absurd rfl h, rfl⟩
  | cons v vs ih =>
    unfold hostLoad at h
    split at h
    · next u hu =>
      obtain ⟨ha, hb, rfl⟩ := hostWriteIn_next hu
      obtain ⟨hl, rfl⟩ := ih h
      refine ⟨fun _ => ⟨?_, hb⟩, rfl⟩
      cases vs with
      | nil => simpa using ha
      | cons w ws =>
        have := (hl (by simp)).1
        simp only [List.length_cons] at this ⊢
        omega
    · cases h
    · cases h

/-- A load of a core that is not busy, within `IN`, goes on. -/
theorem hostLoad_of_room {a : Nat} {bs : List Byte} {s : State} (hs : s.status ≠ .busy) (h : a + bs.length ≤ s.cfg.inCap) :
    hostLoad a bs s = .next { s with inMem := s.inMem.writeAll a bs } := by
  induction bs generalizing a s with
  | nil => rfl
  | cons v vs ih =>
    simp only [List.length_cons] at h
    have hw : hostWriteIn a v s = .next { s with inMem := s.inMem.write a v } := by
      simp [hostWriteIn, hs, show ¬ s.cfg.inCap ≤ a by omega]
    rw [hostLoad, hw]
    exact ih hs (by show a + 1 + vs.length ≤ s.cfg.inCap; omega)

end Sys2Proof.Machine
end

