-- ==== Sys2Proof/Laws/State.lean ====
section
/-! SUPPORT. One lemma for each field under each named update, so that no proof unfolds a record update. -/

namespace Sys2Proof.Machine.State

variable (s : State)

/-! ### `goto` -/

@[simp] theorem goto_cfg (f : Fsm) : (s.goto f).cfg = s.cfg := rfl
@[simp] theorem goto_ports (f : Fsm) : (s.goto f).ports = s.ports := rfl
@[simp] theorem goto_status (f : Fsm) : (s.goto f).status = s.status := rfl
@[simp] theorem goto_errCode (f : Fsm) : (s.goto f).errCode = s.errCode := rfl
@[simp] theorem goto_recovered (f : Fsm) : (s.goto f).recovered = s.recovered := rfl
@[simp] theorem goto_strictQ (f : Fsm) : (s.goto f).strictQ = s.strictQ := rfl
@[simp] theorem goto_inLenQ (f : Fsm) : (s.goto f).inLenQ = s.inLenQ := rfl
@[simp] theorem goto_fsm (f : Fsm) : (s.goto f).fsm = f := rfl
@[simp] theorem goto_rd (f : Fsm) : (s.goto f).rd = s.rd := rfl
@[simp] theorem goto_lastOffset (f : Fsm) : (s.goto f).lastOffset = s.lastOffset := rfl
@[simp] theorem goto_lastOffsetValid (f : Fsm) : (s.goto f).lastOffsetValid = s.lastOffsetValid := rfl
@[simp] theorem goto_lwm (f : Fsm) : (s.goto f).lwm = s.lwm := rfl
@[simp] theorem goto_done (f : Fsm) : (s.goto f).done = s.done := rfl
@[simp] theorem goto_outLen (f : Fsm) : (s.goto f).outLen = s.outLen := rfl
@[simp] theorem goto_work (f : Fsm) : (s.goto f).work = s.work := rfl
@[simp] theorem goto_inMem (f : Fsm) : (s.goto f).inMem = s.inMem := rfl
@[simp] theorem goto_outMem (f : Fsm) : (s.goto f).outMem = s.outMem := rfl
@[simp] theorem goto_draws (f : Fsm) : (s.goto f).draws = s.draws := rfl

/-! ### `setReader` -/

@[simp] theorem setReader_cfg (c : Cursor) : (s.setReader c).cfg = s.cfg := rfl
@[simp] theorem setReader_ports (c : Cursor) : (s.setReader c).ports = s.ports := rfl
@[simp] theorem setReader_status (c : Cursor) : (s.setReader c).status = s.status := rfl
@[simp] theorem setReader_errCode (c : Cursor) : (s.setReader c).errCode = s.errCode := rfl
@[simp] theorem setReader_recovered (c : Cursor) : (s.setReader c).recovered = s.recovered := rfl
@[simp] theorem setReader_strictQ (c : Cursor) : (s.setReader c).strictQ = s.strictQ := rfl
@[simp] theorem setReader_inLenQ (c : Cursor) : (s.setReader c).inLenQ = s.inLenQ := rfl
@[simp] theorem setReader_fsm (c : Cursor) : (s.setReader c).fsm = s.fsm := rfl
@[simp] theorem setReader_rd (c : Cursor) : (s.setReader c).rd = c := rfl
@[simp] theorem setReader_lastOffset (c : Cursor) : (s.setReader c).lastOffset = s.lastOffset := rfl
@[simp] theorem setReader_lastOffsetValid (c : Cursor) : (s.setReader c).lastOffsetValid = s.lastOffsetValid := rfl
@[simp] theorem setReader_lwm (c : Cursor) : (s.setReader c).lwm = s.lwm := rfl
@[simp] theorem setReader_done (c : Cursor) : (s.setReader c).done = s.done := rfl
@[simp] theorem setReader_outLen (c : Cursor) : (s.setReader c).outLen = s.outLen := rfl
@[simp] theorem setReader_work (c : Cursor) : (s.setReader c).work = s.work := rfl
@[simp] theorem setReader_inMem (c : Cursor) : (s.setReader c).inMem = s.inMem := rfl
@[simp] theorem setReader_outMem (c : Cursor) : (s.setReader c).outMem = s.outMem := rfl
@[simp] theorem setReader_draws (c : Cursor) : (s.setReader c).draws = s.draws := rfl

/-! ### `setWork` -/

@[simp] theorem setWork_cfg (w : Work) : (s.setWork w).cfg = s.cfg := rfl
@[simp] theorem setWork_ports (w : Work) : (s.setWork w).ports = s.ports := rfl
@[simp] theorem setWork_status (w : Work) : (s.setWork w).status = s.status := rfl
@[simp] theorem setWork_errCode (w : Work) : (s.setWork w).errCode = s.errCode := rfl
@[simp] theorem setWork_recovered (w : Work) : (s.setWork w).recovered = s.recovered := rfl
@[simp] theorem setWork_strictQ (w : Work) : (s.setWork w).strictQ = s.strictQ := rfl
@[simp] theorem setWork_inLenQ (w : Work) : (s.setWork w).inLenQ = s.inLenQ := rfl
@[simp] theorem setWork_fsm (w : Work) : (s.setWork w).fsm = s.fsm := rfl
@[simp] theorem setWork_rd (w : Work) : (s.setWork w).rd = s.rd := rfl
@[simp] theorem setWork_lastOffset (w : Work) : (s.setWork w).lastOffset = s.lastOffset := rfl
@[simp] theorem setWork_lastOffsetValid (w : Work) : (s.setWork w).lastOffsetValid = s.lastOffsetValid := rfl
@[simp] theorem setWork_lwm (w : Work) : (s.setWork w).lwm = s.lwm := rfl
@[simp] theorem setWork_done (w : Work) : (s.setWork w).done = s.done := rfl
@[simp] theorem setWork_outLen (w : Work) : (s.setWork w).outLen = s.outLen := rfl
@[simp] theorem setWork_work (w : Work) : (s.setWork w).work = w := rfl
@[simp] theorem setWork_inMem (w : Work) : (s.setWork w).inMem = s.inMem := rfl
@[simp] theorem setWork_outMem (w : Work) : (s.setWork w).outMem = s.outMem := rfl
@[simp] theorem setWork_draws (w : Work) : (s.setWork w).draws = s.draws := rfl

/-! ### `storeOut` -/

@[simp] theorem storeOut_cfg (v : Byte) : (s.storeOut v).cfg = s.cfg := rfl
@[simp] theorem storeOut_ports (v : Byte) : (s.storeOut v).ports = s.ports := rfl
@[simp] theorem storeOut_status (v : Byte) : (s.storeOut v).status = s.status := rfl
@[simp] theorem storeOut_errCode (v : Byte) : (s.storeOut v).errCode = s.errCode := rfl
@[simp] theorem storeOut_recovered (v : Byte) : (s.storeOut v).recovered = s.recovered := rfl
@[simp] theorem storeOut_strictQ (v : Byte) : (s.storeOut v).strictQ = s.strictQ := rfl
@[simp] theorem storeOut_inLenQ (v : Byte) : (s.storeOut v).inLenQ = s.inLenQ := rfl
@[simp] theorem storeOut_fsm (v : Byte) : (s.storeOut v).fsm = s.fsm := rfl
@[simp] theorem storeOut_rd (v : Byte) : (s.storeOut v).rd = s.rd := rfl
@[simp] theorem storeOut_lastOffset (v : Byte) : (s.storeOut v).lastOffset = s.lastOffset := rfl
@[simp] theorem storeOut_lastOffsetValid (v : Byte) : (s.storeOut v).lastOffsetValid = s.lastOffsetValid := rfl
@[simp] theorem storeOut_lwm (v : Byte) : (s.storeOut v).lwm = s.lwm := rfl
@[simp] theorem storeOut_done (v : Byte) : (s.storeOut v).done = s.done := rfl
@[simp] theorem storeOut_outLen (v : Byte) : (s.storeOut v).outLen = s.outLen + 1 := rfl
@[simp] theorem storeOut_work (v : Byte) : (s.storeOut v).work = s.work := rfl
@[simp] theorem storeOut_inMem (v : Byte) : (s.storeOut v).inMem = s.inMem := rfl
@[simp] theorem storeOut_outMem (v : Byte) : (s.storeOut v).outMem = s.outMem.write s.outLen v := rfl
@[simp] theorem storeOut_draws (v : Byte) : (s.storeOut v).draws = s.draws := rfl

/-! ### `setLwm` -/

@[simp] theorem setLwm_cfg (b : Bool) : (s.setLwm b).cfg = s.cfg := rfl
@[simp] theorem setLwm_ports (b : Bool) : (s.setLwm b).ports = s.ports := rfl
@[simp] theorem setLwm_status (b : Bool) : (s.setLwm b).status = s.status := rfl
@[simp] theorem setLwm_errCode (b : Bool) : (s.setLwm b).errCode = s.errCode := rfl
@[simp] theorem setLwm_recovered (b : Bool) : (s.setLwm b).recovered = s.recovered := rfl
@[simp] theorem setLwm_strictQ (b : Bool) : (s.setLwm b).strictQ = s.strictQ := rfl
@[simp] theorem setLwm_inLenQ (b : Bool) : (s.setLwm b).inLenQ = s.inLenQ := rfl
@[simp] theorem setLwm_fsm (b : Bool) : (s.setLwm b).fsm = s.fsm := rfl
@[simp] theorem setLwm_rd (b : Bool) : (s.setLwm b).rd = s.rd := rfl
@[simp] theorem setLwm_lastOffset (b : Bool) : (s.setLwm b).lastOffset = s.lastOffset := rfl
@[simp] theorem setLwm_lastOffsetValid (b : Bool) : (s.setLwm b).lastOffsetValid = s.lastOffsetValid := rfl
@[simp] theorem setLwm_lwm (b : Bool) : (s.setLwm b).lwm = b := rfl
@[simp] theorem setLwm_done (b : Bool) : (s.setLwm b).done = s.done := rfl
@[simp] theorem setLwm_outLen (b : Bool) : (s.setLwm b).outLen = s.outLen := rfl
@[simp] theorem setLwm_work (b : Bool) : (s.setLwm b).work = s.work := rfl
@[simp] theorem setLwm_inMem (b : Bool) : (s.setLwm b).inMem = s.inMem := rfl
@[simp] theorem setLwm_outMem (b : Bool) : (s.setLwm b).outMem = s.outMem := rfl
@[simp] theorem setLwm_draws (b : Bool) : (s.setLwm b).draws = s.draws := rfl

/-! ### `setLastOffset` -/

@[simp] theorem setLastOffset_cfg (off : Nat) : (s.setLastOffset off).cfg = s.cfg := rfl
@[simp] theorem setLastOffset_ports (off : Nat) : (s.setLastOffset off).ports = s.ports := rfl
@[simp] theorem setLastOffset_status (off : Nat) : (s.setLastOffset off).status = s.status := rfl
@[simp] theorem setLastOffset_errCode (off : Nat) : (s.setLastOffset off).errCode = s.errCode := rfl
@[simp] theorem setLastOffset_recovered (off : Nat) : (s.setLastOffset off).recovered = s.recovered := rfl
@[simp] theorem setLastOffset_strictQ (off : Nat) : (s.setLastOffset off).strictQ = s.strictQ := rfl
@[simp] theorem setLastOffset_inLenQ (off : Nat) : (s.setLastOffset off).inLenQ = s.inLenQ := rfl
@[simp] theorem setLastOffset_fsm (off : Nat) : (s.setLastOffset off).fsm = s.fsm := rfl
@[simp] theorem setLastOffset_rd (off : Nat) : (s.setLastOffset off).rd = s.rd := rfl
@[simp] theorem setLastOffset_lastOffset (off : Nat) : (s.setLastOffset off).lastOffset = off := rfl
@[simp] theorem setLastOffset_lastOffsetValid (off : Nat) : (s.setLastOffset off).lastOffsetValid = true := rfl
@[simp] theorem setLastOffset_lwm (off : Nat) : (s.setLastOffset off).lwm = s.lwm := rfl
@[simp] theorem setLastOffset_done (off : Nat) : (s.setLastOffset off).done = s.done := rfl
@[simp] theorem setLastOffset_outLen (off : Nat) : (s.setLastOffset off).outLen = s.outLen := rfl
@[simp] theorem setLastOffset_work (off : Nat) : (s.setLastOffset off).work = s.work := rfl
@[simp] theorem setLastOffset_inMem (off : Nat) : (s.setLastOffset off).inMem = s.inMem := rfl
@[simp] theorem setLastOffset_outMem (off : Nat) : (s.setLastOffset off).outMem = s.outMem := rfl
@[simp] theorem setLastOffset_draws (off : Nat) : (s.setLastOffset off).draws = s.draws := rfl

/-! ### `commitMatch` -/

@[simp] theorem commitMatch_cfg (off : Nat) : (s.commitMatch off).cfg = s.cfg := rfl
@[simp] theorem commitMatch_ports (off : Nat) : (s.commitMatch off).ports = s.ports := rfl
@[simp] theorem commitMatch_status (off : Nat) : (s.commitMatch off).status = s.status := rfl
@[simp] theorem commitMatch_errCode (off : Nat) : (s.commitMatch off).errCode = s.errCode := rfl
@[simp] theorem commitMatch_recovered (off : Nat) : (s.commitMatch off).recovered = s.recovered := rfl
@[simp] theorem commitMatch_strictQ (off : Nat) : (s.commitMatch off).strictQ = s.strictQ := rfl
@[simp] theorem commitMatch_inLenQ (off : Nat) : (s.commitMatch off).inLenQ = s.inLenQ := rfl
@[simp] theorem commitMatch_fsm (off : Nat) : (s.commitMatch off).fsm = s.fsm := rfl
@[simp] theorem commitMatch_rd (off : Nat) : (s.commitMatch off).rd = s.rd := rfl
@[simp] theorem commitMatch_lastOffset (off : Nat) : (s.commitMatch off).lastOffset = off := rfl
@[simp] theorem commitMatch_lastOffsetValid (off : Nat) : (s.commitMatch off).lastOffsetValid = true := rfl
@[simp] theorem commitMatch_lwm (off : Nat) : (s.commitMatch off).lwm = true := rfl
@[simp] theorem commitMatch_done (off : Nat) : (s.commitMatch off).done = s.done := rfl
@[simp] theorem commitMatch_outLen (off : Nat) : (s.commitMatch off).outLen = s.outLen := rfl
@[simp] theorem commitMatch_work (off : Nat) : (s.commitMatch off).work = s.work := rfl
@[simp] theorem commitMatch_inMem (off : Nat) : (s.commitMatch off).inMem = s.inMem := rfl
@[simp] theorem commitMatch_outMem (off : Nat) : (s.commitMatch off).outMem = s.outMem := rfl
@[simp] theorem commitMatch_draws (off : Nat) : (s.commitMatch off).draws = s.draws := rfl

/-! ### `leaveToken` -/

@[simp] theorem leaveToken_cfg (f : Fsm) : (s.leaveToken f).cfg = s.cfg := rfl
@[simp] theorem leaveToken_ports (f : Fsm) : (s.leaveToken f).ports = s.ports := rfl
@[simp] theorem leaveToken_status (f : Fsm) : (s.leaveToken f).status = s.status := rfl
@[simp] theorem leaveToken_errCode (f : Fsm) : (s.leaveToken f).errCode = s.errCode := rfl
@[simp] theorem leaveToken_recovered (f : Fsm) : (s.leaveToken f).recovered = s.recovered := rfl
@[simp] theorem leaveToken_strictQ (f : Fsm) : (s.leaveToken f).strictQ = s.strictQ := rfl
@[simp] theorem leaveToken_inLenQ (f : Fsm) : (s.leaveToken f).inLenQ = s.inLenQ := rfl
@[simp] theorem leaveToken_fsm (f : Fsm) : (s.leaveToken f).fsm = f := rfl
@[simp] theorem leaveToken_rd (f : Fsm) : (s.leaveToken f).rd = s.rd := rfl
@[simp] theorem leaveToken_lastOffset (f : Fsm) : (s.leaveToken f).lastOffset = s.lastOffset := rfl
@[simp] theorem leaveToken_lastOffsetValid (f : Fsm) : (s.leaveToken f).lastOffsetValid = s.lastOffsetValid := rfl
@[simp] theorem leaveToken_lwm (f : Fsm) : (s.leaveToken f).lwm = s.lwm := rfl
@[simp] theorem leaveToken_done (f : Fsm) : (s.leaveToken f).done = s.done := rfl
@[simp] theorem leaveToken_outLen (f : Fsm) : (s.leaveToken f).outLen = s.outLen := rfl
@[simp] theorem leaveToken_work (f : Fsm) : (s.leaveToken f).work = freeWork s.cfg s.draws := rfl
@[simp] theorem leaveToken_inMem (f : Fsm) : (s.leaveToken f).inMem = s.inMem := rfl
@[simp] theorem leaveToken_outMem (f : Fsm) : (s.leaveToken f).outMem = s.outMem := rfl
@[simp] theorem leaveToken_draws (f : Fsm) : (s.leaveToken f).draws = s.draws + 1 := rfl

/-! ### `takeError` -/

@[simp] theorem takeError_cfg (e : ErrorKind) : (s.takeError e).cfg = s.cfg := rfl
@[simp] theorem takeError_ports (e : ErrorKind) : (s.takeError e).ports = s.ports := rfl
@[simp] theorem takeError_status (e : ErrorKind) : (s.takeError e).status = if s.strictQ then .error else .done := rfl
@[simp] theorem takeError_errCode (e : ErrorKind) : (s.takeError e).errCode = errCodeOf e := rfl
@[simp] theorem takeError_recovered (e : ErrorKind) : (s.takeError e).recovered = !s.strictQ := rfl
@[simp] theorem takeError_strictQ (e : ErrorKind) : (s.takeError e).strictQ = s.strictQ := rfl
@[simp] theorem takeError_inLenQ (e : ErrorKind) : (s.takeError e).inLenQ = s.inLenQ := rfl
@[simp] theorem takeError_fsm (e : ErrorKind) : (s.takeError e).fsm = .stop := rfl
@[simp] theorem takeError_rd (e : ErrorKind) : (s.takeError e).rd = s.rd := rfl
@[simp] theorem takeError_lastOffset (e : ErrorKind) : (s.takeError e).lastOffset = s.lastOffset := rfl
@[simp] theorem takeError_lastOffsetValid (e : ErrorKind) : (s.takeError e).lastOffsetValid = s.lastOffsetValid := rfl
@[simp] theorem takeError_lwm (e : ErrorKind) : (s.takeError e).lwm = s.lwm := rfl
@[simp] theorem takeError_done (e : ErrorKind) : (s.takeError e).done = s.done := rfl
@[simp] theorem takeError_outLen (e : ErrorKind) : (s.takeError e).outLen = s.outLen := rfl
@[simp] theorem takeError_work (e : ErrorKind) : (s.takeError e).work = freeWork s.cfg s.draws := rfl
@[simp] theorem takeError_inMem (e : ErrorKind) : (s.takeError e).inMem = s.inMem := rfl
@[simp] theorem takeError_outMem (e : ErrorKind) : (s.takeError e).outMem = s.outMem := rfl
@[simp] theorem takeError_draws (e : ErrorKind) : (s.takeError e).draws = s.draws + 1 := rfl

/-! ### `endDecode` -/

@[simp] theorem endDecode_cfg : (s.endDecode).cfg = s.cfg := rfl
@[simp] theorem endDecode_ports : (s.endDecode).ports = s.ports := rfl
@[simp] theorem endDecode_status : (s.endDecode).status = .done := rfl
@[simp] theorem endDecode_errCode : (s.endDecode).errCode = .none := rfl
@[simp] theorem endDecode_recovered : (s.endDecode).recovered = false := rfl
@[simp] theorem endDecode_strictQ : (s.endDecode).strictQ = s.strictQ := rfl
@[simp] theorem endDecode_inLenQ : (s.endDecode).inLenQ = s.inLenQ := rfl
@[simp] theorem endDecode_fsm : (s.endDecode).fsm = .stop := rfl
@[simp] theorem endDecode_rd : (s.endDecode).rd = s.rd := rfl
@[simp] theorem endDecode_lastOffset : (s.endDecode).lastOffset = 0 := rfl
@[simp] theorem endDecode_lastOffsetValid : (s.endDecode).lastOffsetValid = true := rfl
@[simp] theorem endDecode_lwm : (s.endDecode).lwm = true := rfl
@[simp] theorem endDecode_done : (s.endDecode).done = true := rfl
@[simp] theorem endDecode_outLen : (s.endDecode).outLen = s.outLen := rfl
@[simp] theorem endDecode_work : (s.endDecode).work = freeWork s.cfg s.draws := rfl
@[simp] theorem endDecode_inMem : (s.endDecode).inMem = s.inMem := rfl
@[simp] theorem endDecode_outMem : (s.endDecode).outMem = s.outMem := rfl
@[simp] theorem endDecode_draws : (s.endDecode).draws = s.draws + 1 := rfl

/-! ### `applyReset` -/

@[simp] theorem applyReset_cfg : (s.applyReset).cfg = s.cfg := rfl
@[simp] theorem applyReset_ports : (s.applyReset).ports = s.ports := rfl
@[simp] theorem applyReset_status : (s.applyReset).status = .idle := rfl
@[simp] theorem applyReset_errCode : (s.applyReset).errCode = .none := rfl
@[simp] theorem applyReset_recovered : (s.applyReset).recovered = false := rfl
@[simp] theorem applyReset_strictQ : (s.applyReset).strictQ = false := rfl
@[simp] theorem applyReset_inLenQ : (s.applyReset).inLenQ = 0 := rfl
@[simp] theorem applyReset_fsm : (s.applyReset).fsm = .idle := rfl
@[simp] theorem applyReset_rd : (s.applyReset).rd = { inPtr := 0, tag := 0#8, bitcount := 0#3 } := rfl
@[simp] theorem applyReset_lastOffset : (s.applyReset).lastOffset = 0 := rfl
@[simp] theorem applyReset_lastOffsetValid : (s.applyReset).lastOffsetValid = false := rfl
@[simp] theorem applyReset_lwm : (s.applyReset).lwm = false := rfl
@[simp] theorem applyReset_done : (s.applyReset).done = false := rfl
@[simp] theorem applyReset_outLen : (s.applyReset).outLen = 0 := rfl
@[simp] theorem applyReset_work : (s.applyReset).work = freeWork s.cfg s.draws := rfl
@[simp] theorem applyReset_inMem : (s.applyReset).inMem = s.inMem := rfl
@[simp] theorem applyReset_outMem : (s.applyReset).outMem = outAfterReset s := rfl
@[simp] theorem applyReset_draws : (s.applyReset).draws = s.draws + 1 := rfl

/-! ### `beginDecode` -/

@[simp] theorem beginDecode_cfg : (s.beginDecode).cfg = s.cfg := rfl
@[simp] theorem beginDecode_ports : (s.beginDecode).ports = s.ports := rfl
@[simp] theorem beginDecode_status : (s.beginDecode).status = .busy := rfl
@[simp] theorem beginDecode_errCode : (s.beginDecode).errCode = .none := rfl
@[simp] theorem beginDecode_recovered : (s.beginDecode).recovered = false := rfl
@[simp] theorem beginDecode_strictQ : (s.beginDecode).strictQ = s.ports.strict := rfl
@[simp] theorem beginDecode_inLenQ : (s.beginDecode).inLenQ = s.ports.inLen := rfl
@[simp] theorem beginDecode_fsm : (s.beginDecode).fsm = .init := rfl
@[simp] theorem beginDecode_rd : (s.beginDecode).rd = { inPtr := 0, tag := 0#8, bitcount := 0#3 } := rfl
@[simp] theorem beginDecode_lastOffset : (s.beginDecode).lastOffset = 0 := rfl
@[simp] theorem beginDecode_lastOffsetValid : (s.beginDecode).lastOffsetValid = false := rfl
@[simp] theorem beginDecode_lwm : (s.beginDecode).lwm = false := rfl
@[simp] theorem beginDecode_done : (s.beginDecode).done = false := rfl
@[simp] theorem beginDecode_outLen : (s.beginDecode).outLen = 0 := rfl
@[simp] theorem beginDecode_work : (s.beginDecode).work = s.work := rfl
@[simp] theorem beginDecode_inMem : (s.beginDecode).inMem = s.inMem := rfl
@[simp] theorem beginDecode_outMem : (s.beginDecode).outMem = s.outMem := rfl
@[simp] theorem beginDecode_draws : (s.beginDecode).draws = s.draws := rfl

/-! ### `drive` -/

@[simp] theorem drive_cfg (p : Ports) : (s.drive p).cfg = s.cfg := rfl
@[simp] theorem drive_ports (p : Ports) : (s.drive p).ports = p := rfl
@[simp] theorem drive_status (p : Ports) : (s.drive p).status = s.status := rfl
@[simp] theorem drive_errCode (p : Ports) : (s.drive p).errCode = s.errCode := rfl
@[simp] theorem drive_recovered (p : Ports) : (s.drive p).recovered = s.recovered := rfl
@[simp] theorem drive_strictQ (p : Ports) : (s.drive p).strictQ = s.strictQ := rfl
@[simp] theorem drive_inLenQ (p : Ports) : (s.drive p).inLenQ = s.inLenQ := rfl
@[simp] theorem drive_fsm (p : Ports) : (s.drive p).fsm = s.fsm := rfl
@[simp] theorem drive_rd (p : Ports) : (s.drive p).rd = s.rd := rfl
@[simp] theorem drive_lastOffset (p : Ports) : (s.drive p).lastOffset = s.lastOffset := rfl
@[simp] theorem drive_lastOffsetValid (p : Ports) : (s.drive p).lastOffsetValid = s.lastOffsetValid := rfl
@[simp] theorem drive_lwm (p : Ports) : (s.drive p).lwm = s.lwm := rfl
@[simp] theorem drive_done (p : Ports) : (s.drive p).done = s.done := rfl
@[simp] theorem drive_outLen (p : Ports) : (s.drive p).outLen = s.outLen := rfl
@[simp] theorem drive_work (p : Ports) : (s.drive p).work = s.work := rfl
@[simp] theorem drive_inMem (p : Ports) : (s.drive p).inMem = s.inMem := rfl
@[simp] theorem drive_outMem (p : Ports) : (s.drive p).outMem = s.outMem := rfl
@[simp] theorem drive_draws (p : Ports) : (s.drive p).draws = s.draws := rfl

end Sys2Proof.Machine.State
end

