-- ==== Sys2Proof/Laws/Ops.lean ====
section
/-! SUPPORT. One lemma for each shared operation that says once all it can do. -/

namespace Sys2Proof.Machine

/-- `off = (high << 8) | LO` (R169) as the arithmetic of `offsetOf`. -/
theorem offsetOf_eq_shift_or (high : Nat) (lo : Byte) : offsetOf high lo = (high <<< 8 ||| lo.toNat) := by
  rw [offsetOf, ← Nat.shiftLeft_add_eq_or_of_lt lo.isLt, Nat.shiftLeft_eq]

/-- A lifted read that answers a value moves the reader only. -/
theorem liftRead_ok {α : Type} {s t : State} {r : Read α} {v : α} (h : liftRead s r = .ok v t) :
    ∃ c, r = .got v c ∧ t = s.setReader c := by
  cases r <;> cases h; exact ⟨_, rfl, rfl⟩

/-- A lifted read that raises moves the reader only. -/
theorem liftRead_raised {α : Type} {s t : State} {r : Read α} {e : ErrorKind} (h : liftRead s r = .raised e t) :
    ∃ c, r = .raised e c ∧ t = s.setReader c := by
  cases r <;> cases h; exact ⟨_, rfl, rfl⟩

@[simp] theorem Res.ok_bind {α β : Type} (v : α) (s : State) (k : α → State → Res β) : (Res.ok v s).bind k = k v s := rfl

/-- A sequence completes only through its first operation. -/
theorem Res.bind_ok {α β : Type} {r : Res α} {k : α → State → Res β} {v : β} {t : State} (h : r.bind k = .ok v t) :
    ∃ a s, r = .ok a s ∧ k a s = .ok v t := by
  cases r with
  | ok a s => exact ⟨a, s, rfl, h⟩
  | raised e s => cases h
  | fault f => cases h

/-- A sequence raises in its first operation or after it. -/
theorem Res.bind_raised {α β : Type} {r : Res α} {k : α → State → Res β} {e : ErrorKind} {t : State}
    (h : r.bind k = .raised e t) : r = .raised e t ∨ ∃ a s, r = .ok a s ∧ k a s = .raised e t := by
  cases r with
  | ok a s => exact .inr ⟨a, s, rfl, h⟩
  | raised e s => cases h; exact .inl rfl
  | fault f => cases h

/-- `Append` in a memory with room (R140). -/
theorem append_of_room {v : Byte} {s : State} (h : s.outLen < s.cfg.outCap) : append v s = .ok () (s.storeOut v) := by
  simp [append, h, Nat.ne_of_lt h]

/-- `Append` in a full memory (R140). -/
theorem append_of_full {v : Byte} {s : State} (h : s.outLen = s.cfg.outCap) :
    append v s = .raised (.outputOverflow s.outLen) s := if_pos h

/-- `Append` completes in one way. -/
theorem append_ok {v : Byte} {s t : State} {u : Unit} (h : append v s = .ok u t) :
    s.outLen < s.cfg.outCap ∧ t = s.storeOut v := by
  unfold append at h
  split at h
  · cases h
  · split at h
    · next hr => cases h; exact ⟨hr, rfl⟩
    · cases h

/-- `Append` raises in one way, with nothing written. -/
theorem append_raised {v : Byte} {s t : State} {e : ErrorKind} (h : append v s = .raised e t) :
    s.outLen = s.cfg.outCap ∧ e = .outputOverflow s.outLen ∧ t = s := by
  unfold append at h
  split at h
  · next hr => cases h; exact ⟨hr, rfl, rfl⟩
  · split at h <;> cases h

/-- One pass of the copy loop in a memory with room. -/
theorem copyByte_of_room {off : Nat} {s : State} (h : s.outLen < s.cfg.outCap) :
    copyByte off s = .ok () (s.storeOut (s.outByte (s.outLen - off))) := by
  have : s.outLen - off < s.cfg.outCap := Nat.lt_of_le_of_lt (Nat.sub_le ..) h
  simp [copyByte, readOutByte, this, append_of_room h]

/-- One pass of the copy loop completes in one way. -/
theorem copyByte_ok {off : Nat} {s t : State} {u : Unit} (h : copyByte off s = .ok u t) :
    s.outLen < s.cfg.outCap ∧ t = s.storeOut (s.outByte (s.outLen - off)) := by
  obtain ⟨v, s', h1, h2⟩ := Res.bind_ok h
  unfold readOutByte at h1
  split at h1
  · cases h1; exact append_ok h2
  · cases h1

/-- One pass of the copy loop raises in one way, with nothing written. -/
theorem copyByte_raised {off : Nat} {s t : State} {e : ErrorKind} (h : copyByte off s = .raised e t) :
    s.outLen = s.cfg.outCap ∧ e = .outputOverflow s.outLen ∧ t = s := by
  rcases Res.bind_raised h with h | ⟨v, s', h1, h2⟩ <;> unfold readOutByte at *
  · split at h <;> cases h
  · split at h1
    · cases h1; exact append_raised h2
    · cases h1

/-- What output writes leave alone: everything but `OUT` and `out_len`. -/
abbrev onlyOutput (s t : State) : Prop := t = { s with outLen := t.outLen, outMem := t.outMem }

theorem onlyOutput_refl (s : State) : onlyOutput s s := rfl

theorem onlyOutput_storeOut (v : Byte) (s : State) : onlyOutput s (s.storeOut v) := rfl

theorem onlyOutput_trans {s t u : State} (h : onlyOutput s t) (h' : onlyOutput t u) : onlyOutput s u := by
  unfold onlyOutput at *; rw [h', h]

/-- A copy loop that completes changes nothing but `OUT` and `out_len`, and appends `n` bytes. -/
theorem copyLoop_ok {off n : Nat} {s t : State} {u : Unit} (h : copyLoop off n s = .ok u t) :
    onlyOutput s t ∧ t.outLen = s.outLen + n := by
  induction n generalizing s with
  | zero => cases h; exact ⟨rfl, rfl⟩
  | succ n ih =>
    obtain ⟨v, s', h1, h2⟩ := Res.bind_ok h
    obtain ⟨-, rfl⟩ := copyByte_ok h1
    obtain ⟨hf, hl⟩ := ih h2
    exact ⟨onlyOutput_trans (onlyOutput_storeOut _ s) hf, by rw [hl, State.storeOut_outLen]; omega⟩

/-- A copy loop raises in one way: full, with the bytes copied before it in place (R146). -/
theorem copyLoop_raised {off n : Nat} {s t : State} {e : ErrorKind} (h : copyLoop off n s = .raised e t) :
    onlyOutput s t ∧ t.outLen = s.cfg.outCap ∧ e = .outputOverflow s.cfg.outCap := by
  induction n generalizing s with
  | zero => cases h
  | succ n ih =>
    rcases Res.bind_raised h with h | ⟨v, s', h1, h2⟩
    · obtain ⟨hr, rfl, rfl⟩ := copyByte_raised h; exact ⟨rfl, hr, by rw [hr]⟩
    · obtain ⟨-, rfl⟩ := copyByte_ok h1
      obtain ⟨hf, hl, he⟩ := ih h2
      exact ⟨onlyOutput_trans (onlyOutput_storeOut _ s) hf, hl, he⟩

/-- `BackRef` completes only with a valid offset, through its copy loop. -/
theorem backRef_ok {off n : Nat} {v : Bool} {s t : State} {u : Unit} (h : backRef off n v s = .ok u t) :
    v = true ∧ 1 ≤ off ∧ off ≤ s.outLen ∧ copyLoop off n s = .ok u t := by
  unfold backRef at h
  split at h
  · cases h
  · next hb =>
    simp only [badOffset, not_or, Bool.not_eq_false, Nat.not_lt] at hb
    exact ⟨hb.1, by omega, hb.2.2, h⟩

/-- How a token with all its fields read can end. -/
theorem finishToken_next {writes : State → State} {r : Res Unit} {t : State} (h : finishToken writes r = .next t) :
    (∃ s, r = .ok () s ∧ t = (writes s).leaveToken .b1) ∨ (∃ e s, r = .raised e s ∧ t = s.takeError e) := by
  cases r with
  | ok u s => cases h; exact .inl ⟨s, rfl, rfl⟩
  | raised e s => cases h; exact .inr ⟨e, s, rfl, rfl⟩
  | fault f => cases h

/-- How a micro-step can end. -/
theorem settle_next {r : Res Unit} {t : State} (h : settle r = .next t) :
    r = .ok () t ∨ ∃ e s, r = .raised e s ∧ t = s.takeError e := by
  cases r with
  | ok u s => cases h; exact .inl rfl
  | raised e s => cases h; exact .inr ⟨e, s, rfl, rfl⟩
  | fault f => cases h

end Sys2Proof.Machine
end

