-- ==== Sys2Proof/Laws/PerInstr.lean ====
section
/-! SUPPORT. A family of statements about the instruction as syntax: its fields begin with the control bits of its row
in spec/opcode_table.json (R81). -/

namespace Sys2Proof.Laws.ControlBits

/-- The control bits of each row (`match` and `prefix_bits` of the table). -/
def rowBits : Instr → List Bool
  | .init _ => []
  | .lit _ => [false]
  | .gmatch _ _ _ => [true, false]
  | .repmatch _ => [true, false, false, false]
  | .smatch _ => [true, true, false]
  | .endMark _ => [true, true, false]
  | .nmatch _ => [true, true, true]
  | .zlit => [true, true, true, false, false, false, false]

/-- The bits among an instruction's fields begin with its row's control bits. -/
def Statement (i : Instr) : Prop := rowBits i <+: bitsOf (fieldsOf i)

theorem init (l : Byte) : Statement (.init l) := by simp [Statement, rowBits]
theorem lit (l : Byte) : Statement (.lit l) := by simp [Statement, rowBits, fieldsOf, bitsOf]
theorem gmatch (g : Nat) (lo : Byte) (n : Nat) : Statement (.gmatch g lo n) := by
  simp [Statement, rowBits, fieldsOf, bitsOf]
theorem repmatch (n : Nat) : Statement (.repmatch n) := by simp [Statement, rowBits, fieldsOf, bitsOf]
theorem smatch (raw : Byte) : Statement (.smatch raw) := by simp [Statement, rowBits, fieldsOf, bitsOf]
theorem endMark (raw : Byte) : Statement (.endMark raw) := by simp [Statement, rowBits, fieldsOf, bitsOf]
theorem nmatch (nib : Nibble) : Statement (.nmatch nib) := by simp [Statement, rowBits, fieldsOf, bitsOf]
theorem zlit : Statement .zlit := by
  simp [Statement, rowBits, fieldsOf, nibbleField, bitsOf]

end Sys2Proof.Laws.ControlBits
end

