-- ==== Sys2Proof/Laws/Step.lean ====
section
/-! SUPPORT. What one step can be: a reset, a start, a refusal, or a transition of the core. -/

namespace Sys2Proof.Machine

/-- With quiet ports the transition is the core's. -/
theorem underPorts_of_quiet (core : State → Host.Outcome State Fault Refusal) {s : State} (h : portsQuiet s) :
    underPorts core s = core s := by
  obtain ⟨hr, hs⟩ := h
  have : hostControl s = none := by
    simp only [hostControl, hr, Bool.false_eq_true, if_false]
    rw [if_neg]
    rintro ⟨h1, h2⟩
    exact h2 (hs h1)
  simp [underPorts, this]

/-- Low ports are quiet. -/
theorem portsQuiet_of_low {s : State} (h : portsLow s) : portsQuiet s := ⟨h.1, fun hs => by simp [h.2] at hs⟩

/-- A next state under the ports comes from a reset, from a start of a core that is not busy, or from the core. -/
theorem underPorts_next {core : State → Host.Outcome State Fault Refusal} {s t : State}
    (h : underPorts core s = .next t) :
    (s.ports.rst = true ∧ s.ports.start = false ∧ t = s.applyReset) ∨
    (s.ports.rst = false ∧ s.ports.start = true ∧ s.status ≠ .busy ∧ s.ports.inLen ≤ s.cfg.inCap ∧
      t = s.beginDecode) ∨
    (portsQuiet s ∧ core s = .next t) := by
  unfold underPorts hostControl at h
  by_cases hr : s.ports.rst = true
  · by_cases hs : s.ports.start = true
    · simp [hr, hs] at h
    · simp only [hr, if_true, hs] at h
      cases h
      exact .inl ⟨hr, by simpa using hs, rfl⟩
  · by_cases hs : s.ports.start = true ∧ s.status ≠ .busy
    · simp only [hr, hs.1, hs.2, ne_eq, not_false_eq_true, and_self, if_true, startDecode] at h
      by_cases hl : s.cfg.inCap < s.ports.inLen
      · simp [hl] at h
      · simp only [Bool.false_eq_true, if_false, hl] at h
        cases h
        exact .inr (.inl ⟨by simpa using hr, hs.1, hs.2, by omega, rfl⟩)
    · simp only [hr, if_false, hs, Bool.false_eq_true] at h
      refine .inr (.inr ⟨⟨by simpa using hr, fun h1 => ?_⟩, h⟩)
      by_contra h2
      exact hs ⟨h1, h2⟩

/-- A run of one more transition at its front. -/
theorem iterate_succ {f : State → Host.Outcome State Fault Refusal} {n : Nat} {s t : State} (h : f s = .next t) :
    iterate f (n + 1) s = iterate f n t := by simp [iterate, h]

/-- Runs compose. -/
theorem iterate_add {f : State → Host.Outcome State Fault Refusal} {m n : Nat} {s t : State}
    (h : iterate f m s = .next t) : iterate f (m + n) s = iterate f n t := by
  induction m generalizing s with
  | zero => cases h; simp
  | succ m ih =>
    rw [Nat.add_right_comm]
    simp only [iterate] at h ⊢
    cases hf : f s with
    | next u => rw [hf] at h; exact ih h
    | fault r => rw [hf] at h; cases h
    | refused r => rw [hf] at h; cases h

end Sys2Proof.Machine
end

