-- ==== Sys2Proof/Tests/Slice0.lean ====
section
/-! SUPPORT. The model's own tests: small decodings, single steps and operations with results taken from spec/ (rule
examples and 95_test_vectors.md), ill-formed terms that WellFormed refuses, and for each statement with hypotheses a
witness that meets them together. -/

namespace Sys2Proof.Tests
open Sys2Proof.Machine

/-! ### Helpers -/

/-- Bytes from numbers. -/
def bytes (l : List Nat) : List Byte := l.map (BitVec.ofNat 8)

/-- A source of the given bytes. -/
def src (l : List Nat) : Source := Source.ofList (bytes l)

/-- A busy strict core in control state `f`, with the input and output given, and room for 6 output bytes. -/
def coreAt (f : Fsm) (input output : List Nat) : State :=
  { State.resetFor { inCap := 16, outCap := 6 } with
    status := .busy, fsm := f, strictQ := true, inLenQ := input.length, outLen := output.length,
    inMem := Memory.writeAll [] 0 (bytes input), outMem := Memory.writeAll [] 0 (bytes output) }

/-- The output so far. -/
def outOf (s : State) : List Byte := (List.range s.outLen).map s.outByte

/-- The outcome is a next state with the property. -/
def nextWith (o : Host.Outcome State Fault Refusal) (p : State → Bool) : Bool :=
  match o with
  | .next t => p t
  | .fault _ => false
  | .refused _ => false

theorem exists_of_nextWith {o : Host.Outcome State Fault Refusal} {p : State → Bool} (h : nextWith o p = true) :
    ∃ t, o = .next t ∧ p t = true := by
  cases o with
  | next t => exact ⟨t, rfl, h⟩
  | fault r => cases h
  | refused r => cases h

/-- The operation completes in a state with the property. -/
def okWith {α : Type} (r : Res α) (p : α → State → Bool) : Bool :=
  match r with
  | .ok v s => p v s
  | .raised _ _ => false
  | .fault _ => false

/-! ### WellFormed refuses ill-formed terms -/

theorem test_wf_refuses_gamma_one : (Instr.gmatch 1 0#8 2).wf 32 = false := by decide
theorem test_wf_refuses_gamma_too_wide : (Instr.gmatch 256 0#8 2).wf 8 = false := by decide
theorem test_wf_refuses_short_length : (Instr.gmatch 3 0#8 1).wf 32 = false := by decide
theorem test_wf_refuses_repeat_length : (Instr.repmatch 1).wf 32 = false := by decide
theorem test_wf_refuses_zero_offset_smatch : (Instr.smatch 0x01#8).wf 32 = false := by decide
theorem test_wf_refuses_nonzero_end : (Instr.endMark 0x02#8).wf 32 = false := by decide
theorem test_wf_refuses_zero_nibble : (Instr.nmatch 0#4).wf 32 = false := by decide
theorem test_selection_refuses_gmatch_two : (Instr.gmatch 2 0#8 2).selectedUnder false = false := by decide
theorem test_selection_refuses_repmatch_after_match : (Instr.repmatch 2).selectedUnder true = false := by decide
theorem test_stream_refuses_init_in_loop : streamWf 32 false [.init 0#8] = false := by decide
theorem test_stream_refuses_repmatch_after_match : streamWf 32 false [.smatch 2#8, .repmatch 2] = false := by decide

/-! ### Decoding: words written out from the formats of R81 -/

theorem test_decode_init : decodeInit (src [0x54]) .start = .got (.init 0x54#8) ⟨1, 0#8, 0#3⟩ := by decide
theorem test_decode_lit : decodeToken (src [0b00000000, 0x68]) 32 true .start = .got (.lit 0x68#8) ⟨2, 0#8, 7#3⟩ := by decide
-- 1 0, G = 3 as 1 0, LO, N = 2 as 0 0
theorem test_decode_gmatch :
    decodeToken (src [0b10100000, 0x05]) 32 false .start = .got (.gmatch 3 0x05#8 2) ⟨2, 0#8, 2#3⟩ := by decide
-- 1 0, G = 5 as 0 1 1 0, LO after 6 bits of the tag, N = 9 as 0 1 0 1 1 0 over a second tag (R106)
theorem test_decode_gmatch_two_tags :
    decodeToken (src [0b10011001, 0x2C, 0b01100000]) 32 false .start = .got (.gmatch 5 0x2C#8 9) ⟨3, 0#8, 4#3⟩ := by decide
-- 1 0 0 0, N = 4 as 0 1 0 0 (R175's example)
theorem test_decode_repmatch : decodeToken (src [0b10000100]) 32 false .start = .got (.repmatch 4) ⟨1, 0#8, 0#3⟩ := by decide
theorem test_decode_smatch :
    decodeToken (src [0b11000000, 0x0B]) 32 false .start = .got (.smatch 0x0B#8) ⟨2, 0#8, 5#3⟩ := by decide
theorem test_decode_end : decodeToken (src [0b11000000, 0x01]) 32 false .start = .got (.endMark 0x01#8) ⟨2, 0#8, 5#3⟩ := by decide
theorem test_decode_nmatch : decodeToken (src [0b11100110]) 32 false .start = .got (.nmatch 3#4) ⟨1, 0#8, 1#3⟩ := by decide
theorem test_decode_zlit : decodeToken (src [0b11100000]) 32 false .start = .got .zlit ⟨1, 0#8, 1#3⟩ := by decide
-- R173: the bits 1 0 0 0 after a match are GMATCH
theorem test_decode_gmatch_after_match :
    decodeToken (src [0b10000000, 0xC8]) 32 true .start = .got (.gmatch 2 0xC8#8 2) ⟨2, 0#8, 2#3⟩ := by decide
-- vectors G5, G10, G11
theorem test_gamma_nine : readGamma (src [0b01011000]) 32 .start = .got 9 ⟨1, 0#8, 2#3⟩ := by decide
theorem test_gamma_largest : readGamma (src [0xFF, 0b11111000]) 8 .start = .got 255 ⟨2, 0#8, 2#3⟩ := by decide
theorem test_gamma_overflow :
    readGamma (src [0xFF, 0xFE]) 8 .start = .raised (.gammaOverflow 2) ⟨2, 0#8, 1#3⟩ := by decide
-- vector B2: the raw byte lies straight after the tag
theorem test_lazy_refill :
    readsAs (src [0x80, 0x41, 0x42]) [.bit true, .byte 0x41#8, .bit false] .start = some ⟨2, 0#8, 6#3⟩ := by decide
-- program P2 of 95_test_vectors.md
theorem test_encode_p2 :
    encodeStream [.init 0x61#8, .lit 0x62#8, .gmatch 3 0x02#8 4, .lit 0x63#8, .repmatch 3, .nmatch 1#4, .zlit,
      .smatch 0x03#8, .endMark 0x00#8] =
      bytes [0x61, 0x52, 0x62, 0x02, 0x22, 0x63, 0xE3, 0xC3, 0x60, 0x03, 0x00] := by decide

/-! ### Operands and operations -/

-- R170's boundary values
theorem test_bump_boundaries : [127, 128, 1279, 1280, 31999, 32000].map (bump .standard) = [2, 0, 0, 1, 1, 2] := by decide
-- vectors F5 and F9
theorem test_gmatch_operands :
    gmatchOff true 126 0xFF#8 = 31999 ∧ gmatchOff true 2 0x05#8 = 5 ∧ gmatchLen .standard 5 5 = 7 := by decide
theorem test_short_operands : [0x02#8, 0x03#8, 0x0B#8, 0xFF#8].map (fun r => (shortOff r, shortLen r)) =
    [(1, 2), (1, 3), (5, 3), (127, 3)] := by decide
-- vectors A1, A2, A3
theorem test_copy_overlap : okWith (backRef 2 3 true (coreAt .b1 [] [97, 98, 99]))
    (fun _ t => outOf t == bytes [97, 98, 99, 98, 99, 98]) = true := by decide
theorem test_copy_from_first_byte : okWith (backRef 3 3 true (coreAt .b1 [] [97, 98, 99]))
    (fun _ t => outOf t == bytes [97, 98, 99, 97, 98, 99]) = true := by decide
theorem test_crc_check_value :
    crc32 (bytes [0x31, 0x32, 0x33, 0x34, 0x35, 0x36, 0x37, 0x38, 0x39]) = 0xCBF43926#32 := by decide +kernel
-- R65: no load into a running decode's input, and the bytes beyond it are the host's
theorem test_load_while_busy : hostLoad 0 [7#8] (coreAt .b1 [1, 2] []) matches .refused (.hostWritesBusyInput 0) := by decide
theorem test_load_beyond_busy_input : nextWith (hostLoad 2 [7#8] (coreAt .b1 [1, 2] []))
    (fun t => t.inMem.read 2 == some 7#8) = true := by decide
theorem test_header_little_endian :
    field32 (bytes [0, 0, 0, 0, 24, 0, 0, 0]) 4 = some 24#32 ∧ field32 (bytes [0x47, 0x38, 0xB2, 0x2A]) 0 = some 0x2AB23847#32 ∧
    field32 (bytes [1, 2, 3]) 0 = none := by decide

/-! ### One step or one meaning of each token -/

theorem test_init : nextWith (step (coreAt .init [0x54] [])) (fun t =>
    outOf t == bytes [0x54] && t.fsm == .b1 && t.rd.inPtr == 1 && t.rd.bitcount == 0#3 && !t.lwm) = true := by decide
-- R163's example
theorem test_lit : nextWith (step { coreAt .b1 [0x00, 0x68] [97] with lwm := true, lastOffset := 1, lastOffsetValid := true })
    (fun t => outOf t == bytes [97, 0x68] && !t.lwm && t.lastOffset == 1) = true := by decide
-- P2's third token: off 2, len 4 + 2
theorem test_gmatch : nextWith (step { coreAt .b1 [0xA0, 0x02] [97, 98] with cfg := { inCap := 16, outCap := 9 } })
    (fun t => outOf t == bytes [97, 98, 97, 98, 97, 98] && t.lwm && t.lastOffset == 2 && t.lastOffsetValid) = true := by decide
-- vector K14: offset 0 is rejected after the length was read
theorem test_gmatch_offset_zero : nextWith (step (coreAt .b1 [0xA0, 0x00] [65])) (fun t =>
    t.status == .error && t.errCode == .invalidBackref && outOf t == bytes [65] && t.rd.inPtr == 2) = true := by decide
theorem test_repmatch : nextWith (step { coreAt .b1 [0x88] [97, 98, 99] with lastOffset := 2, lastOffsetValid := true })
    (fun t => outOf t == bytes [97, 98, 99, 98, 99, 98] && t.lwm && t.lastOffset == 2) = true := by decide
-- vector K12
theorem test_repmatch_none : nextWith (step (coreAt .b1 [0x80] [65])) (fun t =>
    t.errCode == .invalidBackref && outOf t == bytes [65] && !t.lwm) = true := by decide
-- R181's example
theorem test_smatch : nextWith (step (coreAt .b1 [0xC0, 0x05] [120, 121])) (fun t =>
    outOf t == bytes [120, 121, 120, 121, 120] && t.lwm && t.lastOffset == 2) = true := by decide
-- vector K17: the bytes before the overflow stay, and nothing else is written
theorem test_smatch_overflow :
    nextWith (step { coreAt .b1 [0xC0, 0x03] [65, 65, 65, 65, 65] with strictQ := false }) (fun t =>
      t.status == .done && t.errCode == .outputOverflow && t.recovered && t.outLen == 6 && !t.lastOffsetValid &&
      !t.lwm) = true := by decide
-- vector K4
theorem test_end : nextWith (step (coreAt .b1 [0xC0, 0x00] [65])) (fun t =>
    t.done && t.status == .done && t.errCode == .none && t.fsm == .stop && outOf t == bytes [65] && t.lwm &&
    t.lastOffset == 0 && t.lastOffsetValid && t.rd.bitcount == 5#3) = true := by decide
-- R185's example
theorem test_nmatch : nextWith (step { coreAt .b1 [0xE6] [97, 98, 99] with lwm := true }) (fun t =>
    outOf t == bytes [97, 98, 99, 97] && !t.lwm && !t.lastOffsetValid) = true := by decide
-- vector K11
theorem test_nmatch_invalid : nextWith (step (coreAt .b1 [0xE4] [65])) (fun t =>
    t.errCode == .invalidBackref && t.rd.inPtr == 1 && t.rd.bitcount == 1#3) = true := by decide
-- R186's example
theorem test_zlit : nextWith (step (coreAt .b1 [0xE0] [97])) (fun t => outOf t == bytes [97, 0] && !t.lwm) = true := by decide
-- vector K15: truncated at LO
theorem test_truncated_token : nextWith (step (coreAt .b1 [0xA0] [65])) (fun t =>
    t.status == .error && t.errCode == .truncatedInput && t.rd.inPtr == 1 && t.rd.bitcount == 4#3) = true := by decide
-- 2.6: one micro-step of the trace of 41 C0 00
theorem test_micro_sraw :
    nextWith (microStep { coreAt .sraw [0x41, 0xC0, 0x00] [65] with rd := ⟨2, 0#8, 5#3⟩ }) (fun t =>
      t.done && t.status == .done && t.fsm == .stop && t.rd.inPtr == 3) = true := by decide
theorem test_start : nextWith (step ((coreAt .stop [1, 2] []).drive ⟨true, false, false, 2⟩ |> fun s => { s with status := .done }))
    (fun t => t.status == .busy && t.fsm == .init && t.inLenQ == 2 && !t.strictQ) = true := by decide
theorem test_table_words : [(0, 0), (8, 0), (8, 2), (8, 8), (8, 6), (8, 112), (16, 0x3F06)].map (fun x => decodeTableWord x.1 x.2) =
    [some (.init 0#8), some (.lit 0#8), some (.gmatch 2 0#8 2), some (.repmatch 2), some (.endMark 0#8), some .zlit,
     some (.smatch 0x3F#8)] := by decide
theorem test_fetch_word_runs : nextWith (step (State.reset.withFetchWord 8 112)) (fun t => outOf t == [0#8]) = true := by decide

/-! ### Witnesses: for each statement with hypotheses, a state and operands that meet them together -/

/-- A core between tokens with three output bytes, room for three more, and a valid `last_offset` at its largest. -/
def mid (input : List Nat) : State :=
  { coreAt .b1 input [97, 98, 99] with lastOffset := 3, lastOffsetValid := true }

theorem inv_mid : Inv (mid [0xC0, 0x05]) :=
  ⟨by decide, by decide, by decide, by decide, by decide, by decide, by decide⟩

/-- The same core with its output memory full. -/
def fullCore : State := coreAt .b1 [] [97, 98, 99, 97, 98, 99]

theorem witness_DecoderReadsExactlyTheFormats : 2 ≤ 32 ∧
    decodeToken (src [0xA0, 0x05]) 32 false .start = .got (.gmatch 3 0x05#8 2) ⟨2, 0#8, 2#3⟩ ∧
    readsAs (src [0xA0, 0x05]) (fieldsOf (.gmatch 3 0x05#8 2)) .start = some ⟨2, 0#8, 2#3⟩ := by decide
theorem witness_DecodeOfEncodeIsTheToken : (Instr.gmatch 255 0#8 2).inLoop = true ∧ (Instr.gmatch 255 0#8 2).wf 8 = true ∧
    (Instr.gmatch 255 0#8 2).selectedUnder false = true := by decide
theorem witness_DecodeOfEncodedStreamIsTheStream :
    streamWf 32 false [.gmatch 3 2#8 4, .gmatch 2 1#8 2, .lit 0#8, .repmatch 3, .zlit, .endMark 1#8] = true := by decide
theorem witness_NoPatternIsIllegal :
    decodeToken (src []) 32 false .start = .raised (.truncatedInput 0) .start ∧
    decodeToken (src [0xBF]) 2 false .start = .raised (.gammaOverflow 1) ⟨1, 0xE0#8, 3#3⟩ ∧
    readsAs (src [0xBF]) (.bit true :: .bit false :: [] ++ [true].flatMap (fun b => [Field.bit b, Field.bit true]) ++
      [Field.bit true]) .start = some ⟨1, 0xE0#8, 3#3⟩ ∧
    decodeToken ⟨1, fun _ => none⟩ 32 false .start = .noByte 0 := by decide
theorem witness_TagBitsComeMostSignificantFirst :
    Cursor.start.bitcount = 0#3 ∧ Cursor.start.inPtr ≠ (src [0xA5]).len ∧ (src [0xA5]).byte 0 = some 0xA5#8 := by decide
theorem witness_GammaFieldsAreExact : 2 ≤ 8 ∧ gammaFits 8 255 = true ∧ gammaFits 8 2 = true ∧
    readsAs (src [0x00]) (gammaField 2) .start = some ⟨1, 0#8, 6#3⟩ := by decide
theorem witness_GammaOverflowsAtTheLastDataBit : [true].length = 2 - 1 ∧
    readsAs (src [0xC0]) ([true].flatMap (fun b => [Field.bit b, Field.bit true]) ++ [Field.bit false]) .start =
      some ⟨1, 0#8, 5#3⟩ := by decide
theorem witness_NextBit_from_tag : { coreAt .b1 [] [] with rd := ⟨0, 0x80#8, 1#3⟩ }.rd.bitcount ≠ 0#3 := by decide
theorem witness_NextBit_refill : (coreAt .b1 [1] []).rd.bitcount = 0#3 ∧ (coreAt .b1 [1] []).rd.inPtr ≠ (coreAt .b1 [1] []).inLenQ ∧
    (coreAt .b1 [1] []).rd.inPtr < (coreAt .b1 [1] []).cfg.inCap := by decide
theorem witness_NextBit_truncated : (coreAt .b1 [] []).rd.bitcount = 0#3 ∧ (coreAt .b1 [] []).rd.inPtr = (coreAt .b1 [] []).inLenQ := by
  decide
theorem witness_NextByte_clauses :
    ((coreAt .b1 [1] []).rd.inPtr ≠ (coreAt .b1 [1] []).inLenQ ∧ (coreAt .b1 [1] []).rd.inPtr < (coreAt .b1 [1] []).cfg.inCap) ∧
    (coreAt .b1 [] []).rd.inPtr = (coreAt .b1 [] []).inLenQ := by decide
theorem witness_GmatchOperands : (Instr.gmatch 3 0#8 2).wf 2 = true ∧ (Instr.gmatch 3 0#8 2).selectedUnder false = true ∧
    (Instr.gmatch 2 0#8 2).wf 2 = true ∧ (Instr.gmatch 2 0#8 2).selectedUnder true = true := by decide
theorem witness_GmatchOperands_thresholds :
    Config.standard.bumpA = 32000 ∧ Config.standard.bumpB = 1280 ∧ Config.standard.bumpC = 128 := by decide
/-- Room for one byte: `INIT`, `LIT`, `ZLIT`, at the last free index. -/
theorem witness_AppendsItsByte : (coreAt .b1 [] [1, 2, 3, 4, 5]).outLen + 1 = (coreAt .b1 [] [1, 2, 3, 4, 5]).cfg.outCap := by decide
/-- `GMATCH` from `OUT[0]` that ends exactly at `OUT_CAP`: offset 3 after a token that was no match, length 1 + 2. -/
theorem witness_GmatchCopies : gmatchOff (mid []).lwm 3 3#8 = (mid []).outLen ∧ 1 ≤ gmatchOff (mid []).lwm 3 3#8 ∧
    (mid []).outLen + (1 + bump (mid []).cfg 3) = (mid []).cfg.outCap := by decide
theorem witness_RepmatchCopies : (mid []).lastOffsetValid = true ∧ 1 ≤ (mid []).lastOffset ∧
    (mid []).lastOffset = (mid []).outLen ∧ (mid []).outLen + 3 = (mid []).cfg.outCap := by decide
theorem witness_SmatchCopies : 1 ≤ shortOff 0x07#8 ∧ shortOff 0x07#8 = (mid []).outLen ∧
    (mid []).outLen + shortLen 0x07#8 = (mid []).cfg.outCap := by decide
theorem witness_NmatchCopiesOneByte : (3#4 : Nibble) ≠ 0#4 ∧ (3#4 : Nibble).toNat = (mid []).outLen ∧
    (mid []).outLen < (mid []).cfg.outCap := by decide
theorem witness_AppendingTokensOverflow : fullCore.outLen = fullCore.cfg.outCap := by decide
theorem witness_BadOffset_zero : copyOf (.gmatch 3 0#8 2) (mid []) = some (0, 4) := by decide
theorem witness_BadOffset_beyond : copyOf (.nmatch 4#4) (mid []) = some (4, 1) ∧ (mid []).outLen < 4 := by decide
theorem witness_BadOffset_none : copyOf (.repmatch 2) (coreAt .b1 [] [97]) = some (0, 2) ∧
    (coreAt .b1 [] [97]).lastOffsetValid = false := by decide
theorem witness_OverflowingCopy : copyOf (.repmatch 4) (mid []) = some (3, 4) ∧ 3 ≤ (mid []).outLen ∧
    (mid []).lastOffsetValid = true ∧ (mid []).outLen ≤ (mid []).cfg.outCap ∧
    (mid []).cfg.outCap < (mid []).outLen + 4 := by decide
theorem witness_AppendingTokensFrame : ∃ t, exec (.lit 7#8) (mid []) = .next t ∧ (t.fsm == .b1) = true :=
  exists_of_nextWith (by decide)
theorem witness_CopyingTokensFrame : ∃ t, exec (.smatch 0x07#8) (mid []) = .next t ∧
    (t.fsm == .b1 && t.outLen == 6) = true := exists_of_nextWith (by decide)
theorem witness_CopyingTokensFrame_overflow : ∃ t, exec (.repmatch 4) (mid []) = .next t ∧
    (t.fsm == .stop && t.outLen == 6 && t.lastOffset == 3) = true := exists_of_nextWith (by decide)
theorem witness_LwmWriters_end : ∃ t, exec (.endMark 0#8) (mid []) = .next t ∧ (t.fsm == .stop && t.lwm) = true :=
  exists_of_nextWith (by decide)
theorem witness_LwmWriters_error : ∃ t, exec (.lit 0#8) fullCore = .next t ∧ (t.fsm == .stop && !t.lwm) = true :=
  exists_of_nextWith (by decide)
theorem witness_StrictError : (mid []).strictQ = true := by decide
theorem witness_LenientError : State.reset.strictQ = false := by decide
theorem witness_ErrorStopsTheDecodeInPlace : portsLow (mid []) := by decide
theorem witness_FailedTokenWritesNoFlag : atBoundary (mid [0x00]) ∧ portsQuiet (mid [0x00]) ∧
    ∃ t, step (mid [0x00]) = .next t ∧ (t.fsm == .stop && t.errCode != .none && t.lastOffset == 3) = true :=
  ⟨by decide, by decide, exists_of_nextWith (by decide)⟩

/-- A decode that a strict error has ended. -/
def failed : State := { mid [] with fsm := .stop, status := .error, errCode := .truncatedInput }

theorem witness_RecordedErrorStays : Inv failed ∧ failed.errCode ≠ .none ∧ failed.ports.rst = false ∧
    failed.ports.start = false ∧ ∃ t, step failed = .next t ∧ (t.errCode == .truncatedInput) = true :=
  ⟨⟨by decide, by decide, by decide, by decide, by decide, by decide, by decide⟩, by decide, by decide, by decide,
    exists_of_nextWith (by decide)⟩
theorem witness_StepRuns_token : portsQuiet (mid [0xC0, 0x05]) ∧ (mid [0xC0, 0x05]).fsm = .b1 ∧
    decodeToken (mid [0xC0, 0x05]).source 32 false .start = .got (.smatch 0x05#8) ⟨2, 0#8, 5#3⟩ := by decide
theorem witness_StepRuns_init : portsQuiet (coreAt .init [0x54] []) ∧
    decodeInit (coreAt .init [0x54] []).source .start = .got (.init 0x54#8) ⟨1, 0#8, 0#3⟩ := by decide
theorem witness_StepRuns_token_error :
    decodeToken (mid [0xC0]).source 32 false .start = .raised (.truncatedInput 1) ⟨1, 0#8, 5#3⟩ := by decide
theorem witness_StepRuns_init_error : portsQuiet (coreAt .init [] []) ∧
    decodeInit (coreAt .init [] []).source .start = .raised (.truncatedInput 0) .start := by decide
theorem witness_ResetSetsEveryRegister : ((mid []).drive ⟨false, false, true, 0⟩).ports.rst = true ∧
    ((mid []).drive ⟨false, false, true, 0⟩).ports.start = false := by decide
/-- A start with `in_len = IN_CAP`, the largest legal value. -/
theorem witness_StartSetsThePerDecodeState : (failed.drive ⟨true, true, false, 16⟩).ports.start = true ∧
    failed.status ≠ .busy ∧ 16 = failed.cfg.inCap := by decide
theorem witness_MeaninglessHostSteps : failed.status ≠ .busy ∧ failed.cfg.inCap < 17 ∧
    (failed.drive ⟨true, true, true, 0⟩).ports.rst = true := by decide
theorem witness_StartWhileBusyIsIgnored : (mid [0xE0]).status = .busy ∧ portsLow (mid [0xE0]) ∧
    (∃ t, step (mid [0xE0]) = .next t ∧ (t.fsm == .b1) = true) ∧
    (∃ t, microMachine (mid [0xE0]) = .next t ∧ (t.fsm == .b2) = true) :=
  ⟨by decide, by decide, exists_of_nextWith (by decide), exists_of_nextWith (by decide)⟩
theorem witness_IdleAndStopAreStable : portsLow State.reset ∧ State.reset.fsm = .idle ∧ portsLow failed ∧ failed.fsm = .stop := by decide
theorem witness_OnlyTheEndMarkerSetsDone : ∃ t, step (mid [0xC0, 0x01]) = .next t ∧
    (!(mid [0xC0, 0x01]).done && t.done) = true := exists_of_nextWith (by decide)
theorem witness_OnlyTheEndMarkerSetsDone_inside : (coreAt .sraw [0x01] [65]).done = false ∧
    (∃ t, step (coreAt .sraw [0x01] [65]) = .next t ∧ t.done = true) ∧
    okWith (nextByte (coreAt .sraw [0x01] [65])) (fun raw _ => raw.extractLsb' 1 7 == 0#7) = true :=
  ⟨by decide, exists_of_nextWith (p := State.done) (by decide), by decide⟩

/-- A decode that `END` has ended. -/
def ended : State := { mid [] with fsm := .stop, status := .done, done := true, lastOffset := 0 }

theorem witness_DoneMeansStopped : Inv ended ∧ ended.done = true :=
  ⟨⟨by decide, by decide, by decide, by decide, by decide, by decide, by decide⟩, by decide⟩
theorem witness_LoopEndsOnlyAtEndOrError : atBoundary (mid [0xC0, 0x01]) ∧ portsQuiet (mid [0xC0, 0x01]) ∧
    ∃ t, step (mid [0xC0, 0x01]) = .next t ∧ (t.fsm == .stop) = true :=
  ⟨by decide, by decide, exists_of_nextWith (by decide)⟩
theorem witness_OutputIsAppendOnly : portsQuiet (mid [0xC0, 0x05]) ∧
    ∃ t, step (mid [0xC0, 0x05]) = .next t ∧ (t.outLen == 6) = true := ⟨by decide, exists_of_nextWith (by decide)⟩
theorem witness_InputIsReadForwardOnly : (∃ t, step (mid [0xC0, 0x05]) = .next t ∧ (t.rd.inPtr == 2) = true) ∧
    (∃ t, microMachine (mid [0xC0, 0x05]) = .next t ∧ (t.rd.inPtr == 1) = true) :=
  ⟨exists_of_nextWith (by decide), exists_of_nextWith (by decide)⟩
theorem witness_OverlappingCopyIsPeriodic : 1 ≤ (mid []).outLen ∧ (mid []).outLen + 3 ≤ (mid []).cfg.outCap := by decide
theorem witness_EveryStepKeepsTheInvariant : Inv (mid [0xC0, 0x05]) ∧
    (∃ t, step (mid [0xC0, 0x05]) = .next t ∧ (t.lastOffset == 2) = true) ∧
    (∃ t, microMachine (mid [0xC0, 0x05]) = .next t ∧ (t.fsm == .b2) = true) :=
  ⟨inv_mid, exists_of_nextWith (by decide), exists_of_nextWith (by decide)⟩
theorem witness_RunningCoreNeverFaults : Inv (mid [0xC0, 0x05]) ∧ portsQuiet (mid [0xC0, 0x05]) := ⟨inv_mid, by decide⟩
theorem witness_MicroStepsPerformTheToken : Inv (mid [0xC0, 0x05]) ∧ atBoundary (mid [0xC0, 0x05]) ∧
    portsQuiet (mid [0xC0, 0x05]) ∧ ∃ t, step (mid [0xC0, 0x05]) = .next t ∧ (t.outLen == 6) = true :=
  ⟨inv_mid, by decide, by decide, exists_of_nextWith (by decide)⟩
theorem witness_MicroStepMakesOneAccessOfAKind :
    ∃ t, microStep (coreAt .init [0x54] []) = .next t ∧ (t.outLen == 1 && t.rd.inPtr == 1) = true :=
  exists_of_nextWith (by decide)
theorem witness_MicroStatesFollowTheBits : ∀ f ∈ [Fsm.b1, .b2, .b3, .gc],
    okWith (nextBit (coreAt f [0x80] [])) (fun b u => b && u.fsm == f) = true := by decide
theorem witness_MicroStatesReadAndAppend :
    (∀ f ∈ [Fsm.init, .lit], okWith ((nextByte (coreAt f [0x54] [])).bind fun b s => append b s) (fun _ u => u.fsm == f) = true) ∧
    okWith (append 0#8 (coreAt .zlit [] [])) (fun _ u => u.outLen == 1) = true ∧
    okWith (nextByte (coreAt .sraw [0x02] [])) (fun raw _ => raw.extractLsb' 1 7 != 0#7) = true ∧
    okWith (nextByte (coreAt .sraw [0x01] [])) (fun raw _ => raw.extractLsb' 1 7 == 0#7) = true ∧
    okWith (nextBit (coreAt .nib [0x80] [])) (fun b _ => b) = true := by decide
/-- The nibble states: before the last bit, and at it with a nibble that is and is not 0. -/
theorem witness_MicroStates_nibble : (coreAt .nib [0x80] []).work.nibCnt.toNat < 3 ∧
    (1#4 : Nibble).toNat = (2 * (0#4 : Nibble).toNat + true.toNat) % 16 ∧
    (0#4 : Nibble).toNat = (2 * (8#4 : Nibble).toNat + false.toNat) % 16 ∧ (3#3 : BitVec 3).toNat = 3 := by decide

/-- A core inside a token. -/
def inside (f : Fsm) (w : Work) (lwm : Bool := false) : State :=
  { mid [0x80] with fsm := f, work := w, lwm := lwm }

theorem witness_MicroStatesOfTheGammaBranch :
    okWith (nextBit (inside .gd { Work.zero with gAcc := 1 })) (fun b _ => b) = true ∧
    (1).testBit (32 - 1) = false ∧ (2 ^ 31).testBit (32 - 1) = true ∧
    (inside .gsel { Work.zero with gAcc := 3 }).lwm = false ∧
    (inside .gsel { Work.zero with gAcc := 2 } true).lwm = true ∧
    okWith (nextByte (inside .glo Work.zero)) (fun b _ => b == 0x80#8) = true ∧
    (inside .glen { Work.zero with mode := .rep }).work.mode = .rep := by decide
theorem witness_MicroStatesOfTheCopyEngine :
    (inside .chk { Work.zero with off := 3, ovalid := true }).work.off = (inside .chk Work.zero).outLen ∧
    (inside .chk { Work.zero with off := 4, ovalid := true }).outLen < 4 ∧
    (inside .copy { Work.zero with off := 3, cnt := 1 }).outLen < (inside .copy Work.zero).cfg.outCap ∧
    fullCore.outLen = fullCore.cfg.outCap ∧
    (inside .fin { Work.zero with mode := .nm }).work.mode = .nm := by decide
theorem witness_EveryDecodeStops : Inv (mid [0xC0, 0x05]) ∧ atBoundary (mid [0xC0, 0x05]) ∧ portsLow (mid [0xC0, 0x05]) :=
  ⟨inv_mid, by decide, by decide⟩

/-- The core `mid`, with other working registers, another `IN_CAP`, and a byte beyond its input. -/
def twin : State :=
  { mid [0xC0, 0x05] with
    cfg := { inCap := 20, outCap := 6 }, work := { Work.zero with gAcc := 9 }
    inMem := (mid [0xC0, 0x05]).inMem.write 2 0x77#8, draws := 5 }

theorem witness_DecodeDependsOnItsInputAlone : Inv (mid [0xC0, 0x05]) ∧ Inv twin ∧ SameDecode (mid [0xC0, 0x05]) twin ∧
    atBoundary (mid [0xC0, 0x05]) ∧ portsLow (mid [0xC0, 0x05]) ∧ portsLow twin ∧
    (∃ t, iterate step 1 (mid [0xC0, 0x05]) = .next t ∧ (t.outLen == 6) = true) ∧
    (∃ t, iterate step 1 twin = .next t ∧ (t.outLen == 6) = true) :=
  ⟨inv_mid, ⟨by decide, by decide, by decide, by decide, by decide, by decide, by decide⟩,
    ⟨by decide, by decide, by decide, ⟨rfl, by decide⟩, rfl, by decide, rfl, by decide, by decide, ⟨rfl, by decide⟩⟩,
    by decide, by decide, by decide, exists_of_nextWith (by decide), exists_of_nextWith (by decide)⟩
/-- The end marker cut off before its raw byte. -/
theorem witness_CutInputGivesAPrefix : Inv (mid [0xC0, 0x00]) ∧ atBoundary (mid [0xC0, 0x00]) ∧ portsLow (mid [0xC0, 0x00]) ∧
    (mid [0xC0, 0x00]).rd.inPtr ≤ 1 ∧ 1 ≤ (mid [0xC0, 0x00]).inLenQ ∧
    (∃ t, iterate step 1 ((mid [0xC0, 0x00]).cutInput 1) = .next t ∧
      (t.fsm == .stop && t.errCode == .truncatedInput && t.strictQ) = true) ∧
    (∃ u, iterate step 1 (mid [0xC0, 0x00]) = .next u ∧ (u.fsm == .stop) = true) :=
  ⟨⟨by decide, by decide, by decide, by decide, by decide, by decide, by decide⟩, by decide, by decide, by decide,
    by decide, exists_of_nextWith (by decide), exists_of_nextWith (by decide)⟩
theorem witness_WorkingRegistersAreWrittenFirst : atBoundary (coreAt .init [0x54] []) ∧
    ∃ t, iterate microStep 1 (coreAt .init [0x54] []) = .next t ∧ (t.fsm == .b1) = true :=
  ⟨by decide, exists_of_nextWith (by decide)⟩
theorem witness_HostSeesTheResult : ended.status = .done ∧ 2 < ended.outLen ∧ 2 < ended.cfg.outCap ∧ failed.status = .error ∧
    (mid [1]).status = .busy ∧ 0 < (mid [1]).cfg.outCap ∧ 0 < (mid [1]).inLenQ ∧ 0 < (mid [1]).cfg.inCap := by decide
theorem witness_HostMovesKeepTheInvariant : Inv ended ∧
    (∃ t, hostWriteIn 15 7#8 ended = .next t ∧ (t.inMem.read 15 == some 7#8) = true) ∧
    (∃ t, hostLoad 14 [6#8, 7#8] ended = .next t ∧ (t.inMem.read 15 == some 7#8) = true) ∧
    (∃ t, hostWriteOut 5 7#8 ended = .next t ∧ (t.outMem.read 5 == some 7#8) = true) ∧ 31 < 2 ^ ended.cfg.inAw :=
  ⟨witness_DoneMeansStopped.1, exists_of_nextWith (by decide), exists_of_nextWith (by decide),
    exists_of_nextWith (by decide), by decide⟩
/-- The header that fits the bytes to decode and their output. -/
def headerFor (packed out : List Byte) : Header :=
  ⟨24#32, BitVec.ofNat 32 packed.length, crc32 packed, BitVec.ofNat 32 out.length, crc32 out⟩

/-- Framing: a size that fails; a stream that decodes, with output checks that hold and that fail; one that does not. -/
theorem witness_FramingChecksOnlyInStrictMode :
    (bytes [0x41]).length ≠ (2#32).toNat ∧
    (headerFor (bytes [0x41, 0xC0, 0x00]) []).packedSize.toNat = 3 ∧
    decodePlain { inCap := 16, outCap := 6 } true (bytes [0x41, 0xC0, 0x00]) = .bytes (bytes [0x41]) ∧
    (headerFor (bytes [0x41, 0xC0, 0x00]) (bytes [0x41])).origSize.toNat = (bytes [0x41]).length ∧
    (headerFor (bytes [0x41, 0xC0, 0x00]) []).origSize.toNat ≠ (bytes [0x41]).length ∧
    decodePlain { inCap := 16, outCap := 6 } true (bytes [0x41]) = .decodeError .truncatedInput := by decide +kernel
theorem witness_Framing_magic : (bytes [1, 2, 3]).take 4 ≠ (#v[1#8, 2#8, 3#8, 4#8] : Vector Byte 4).toList ∧
    (bytes [1, 2, 3, 4] ++ List.replicate 20 0#8).take 4 = (#v[1#8, 2#8, 3#8, 4#8] : Vector Byte 4).toList ∧
    parseHeader (bytes [1, 2, 3, 4] ++ List.replicate 20 0#8) = some ⟨0#32, 0#32, 0#32, 0#32, 0#32⟩ := by decide +kernel

end Sys2Proof.Tests
end

section
/-! PROOFS. What `NextBit` answers, as equations (R101), and the order in which it takes a tag's bits (R54). -/

namespace Sys2Proof

variable {src : Source}

/-- `NextBit` from a tag that still has bits. -/
theorem readBit_of_tag {c : Cursor} (hc : c.bitcount ≠ 0#3) :
    readBit src c = .got (c.tag.getLsbD 7) ⟨c.inPtr, c.tag <<< 1, c.bitcount - 1#3⟩ := by
  rw [readBit, if_neg hc]

/-- `NextBit` from an empty tag, before the end of the input (R102). -/
theorem readBit_of_refill {c : Cursor} {v : Byte} (hc : c.bitcount = 0#3) (hl : c.inPtr ≠ src.len)
    (hv : src.byte c.inPtr = some v) :
    readBit src c = .got (v.getLsbD 7) ⟨c.inPtr + 1, v <<< 1, 7#3⟩ := by
  rw [readBit, if_pos hc, if_neg hl, hv]

/-- A bit field that is the bit `NextBit` answers is read. -/
theorem readsAs_bit_of_got {c d : Cursor} {b : Bool} (fs : List Field) (h : readBit src c = .got b d) :
    readsAs src (.bit b :: fs) c = readsAs src fs d := by
  simp [readsAs, h]

/-- The first `n` bits of a tag, from bit 7 down. -/
def tagBits (tag : Byte) : Nat → List Field
  | 0 => []
  | n + 1 => .bit (tag.getLsbD 7) :: tagBits (tag <<< 1) n

/-- What is left of a tag is read from its bit 7 down, without a byte of the input, and leaves the tag empty. -/
theorem readsAs_tagBits {p n : Nat} {tag : Byte} (hn : n < 8) :
    readsAs src (tagBits tag n) ⟨p, tag, BitVec.ofNat 3 n⟩ = some ⟨p, tag <<< n, 0#3⟩ := by
  induction n generalizing tag with
  | zero => simp [tagBits, readsAs]
  | succ n ih =>
    have hne : BitVec.ofNat 3 (n + 1) ≠ 0#3 := by bv_omega
    have hpred : BitVec.ofNat 3 (n + 1) - 1#3 = BitVec.ofNat 3 n := by bv_omega
    have hbit : readBit src ⟨p, tag, BitVec.ofNat 3 (n + 1)⟩ =
        .got (tag.getLsbD 7) ⟨p, tag <<< 1, BitVec.ofNat 3 n⟩ := by
      rw [readBit_of_tag hne, hpred]
    rw [tagBits, readsAs_bit_of_got _ hbit, ih (by omega), ← BitVec.shiftLeft_add, Nat.add_comm]

/-- Settles O6: a refill answers bit 7 and leaves seven bits, which `readsAs_tagBits` reads down to bit 0. -/
theorem tagBitsComeMostSignificantFirst : Obligations.TagBitsComeMostSignificantFirst := by
  intro src c v hc hl hv
  have hrest : tagBits (v <<< 1) 7 = [.bit (v.getLsbD 6), .bit (v.getLsbD 5), .bit (v.getLsbD 4),
      .bit (v.getLsbD 3), .bit (v.getLsbD 2), .bit (v.getLsbD 1), .bit (v.getLsbD 0)] := by
    simp [tagBits]
  have hempty : v <<< 1 <<< 7 = 0#8 := by
    rw [← BitVec.shiftLeft_add]; exact BitVec.shiftLeft_eq_zero (by decide)
  rw [readsAs_bit_of_got _ (readBit_of_refill hc hl hv), ← hrest, ← hempty]
  exact readsAs_tagBits (by decide)

end Sys2Proof
end

section
/-! PROOFS. Reads in sequence and readings of field lists as `∃` of intermediate cursors, so that a decoder and a
format can be compared read by read (R9, R81). -/

namespace Sys2Proof

variable {src : Source}

/-- A read in sequence answers a value exactly through a first value: the `↔` of `Read.bind_got`. -/
theorem Read.bind_eq_got_iff {α β : Type} {r : Read α} {k : α → Cursor → Read β} {v : β} {c : Cursor} :
    r.bind k = .got v c ↔ ∃ a d, r = .got a d ∧ k a d = .got v c := by
  refine ⟨Read.bind_got, ?_⟩
  rintro ⟨a, d, rfl, h⟩
  exact h

theorem Read.ite_got_eq_got_iff {α : Type} {p : Prop} [Decidable p] {a b v : α} {c c' : Cursor} :
    (if p then Read.got a c else Read.got b c) = .got v c' ↔ (p ∧ a = v ∨ ¬p ∧ b = v) ∧ c = c' := by
  split <;> simp_all

/-- A read that goes on by the value of one bit. -/
theorem readBit_bind_ite_eq_got_iff {α : Type} {zero one : Cursor → Read α} {v : α} {c c' : Cursor} :
    ((readBit src c).bind fun b d => if b = false then zero d else one d) = .got v c' ↔
      (∃ d, readBit src c = .got false d ∧ zero d = .got v c') ∨
      (∃ d, readBit src c = .got true d ∧ one d = .got v c') := by
  simp [Read.bind_eq_got_iff]

@[simp] theorem readsAs_nil_iff {c c' : Cursor} : readsAs src [] c = some c' ↔ c = c' := by simp [readsAs]

theorem readsAs_bit_iff {b : Bool} {fs : List Field} {c c' : Cursor} :
    readsAs src (.bit b :: fs) c = some c' ↔ ∃ d, readBit src c = .got b d ∧ readsAs src fs d = some c' := by
  rw [readsAs]
  split
  · next b' d hd => simp [hd, and_assoc, eq_comm]
  · next hd => exact iff_of_false nofun fun ⟨_, hr, _⟩ => hd _ _ hr

theorem readsAs_byte_iff {v : Byte} {fs : List Field} {c c' : Cursor} :
    readsAs src (.byte v :: fs) c = some c' ↔ ∃ d, readByte src c = .got v d ∧ readsAs src fs d = some c' := by
  rw [readsAs]
  split
  · next v' d hd => simp [hd, and_assoc, eq_comm]
  · next hd => exact iff_of_false nofun fun ⟨_, hr, _⟩ => hd _ _ hr

theorem readsAs_append_iff {fs gs : List Field} {c c' : Cursor} :
    readsAs src (fs ++ gs) c = some c' ↔ ∃ d, readsAs src fs c = some d ∧ readsAs src gs d = some c' := by
  induction fs generalizing c with
  | nil => simp
  | cons f fs ih => cases f <;> simp only [List.cons_append, readsAs_bit_iff, readsAs_byte_iff, ih] <;> tauto

/-- What follows a reading that begins with a bit follows the reading of the rest. -/
theorem exists_readsAs_bit_iff {b : Bool} {fs : List Field} {q : Cursor → Prop} {c : Cursor} :
    (∃ e, readsAs src (.bit b :: fs) c = some e ∧ q e) ↔
      ∃ d, readBit src c = .got b d ∧ ∃ e, readsAs src fs d = some e ∧ q e := by
  simp only [readsAs_bit_iff]
  tauto

/-- A condition on no cursor stands before a reading. -/
theorem exists_readsAs_and_iff {fs : List Field} {p : Prop} {q : Cursor → Prop} {c : Cursor} :
    (∃ d, readsAs src fs c = some d ∧ p ∧ q d) ↔ p ∧ ∃ d, readsAs src fs c = some d ∧ q d := by
  simp only [and_left_comm, exists_and_left]

end Sys2Proof
end

section
/-! PROOFS. The numbers that bits shift in (R55): a gamma value is its one gamma field (R82, R120, R122), and the
four nibble bits are the nibble field (R105). -/

namespace Sys2Proof

variable {src : Source}

/-- The last of the bits shifted into a value is its lowest bit, and the others are the value above it. -/
theorem div_two_pow_eq_shiftIn_iff {v k acc : Nat} {b : Bool} :
    v / 2 ^ k = shiftIn acc b ↔ v / 2 ^ (k + 1) = acc ∧ v.testBit k = b := by
  rw [Nat.testBit_eq_decide_div_mod_eq, Nat.pow_succ, ← Nat.div_div_eq_div_mul, shiftIn]
  cases b <;> simp <;> omega

/-- What a pass of the gamma loop keeps: with `fuel` passes left the accumulator has `w - fuel` bits below its top
bit (R123). -/
def gammaAccFits (w fuel acc : Nat) : Prop := 2 ^ (w - fuel) ≤ acc ∧ acc < 2 ^ (w - fuel + 1)

theorem gammaAccFits_one (w : Nat) : gammaAccFits w w 1 := by simp [gammaAccFits]

theorem gammaAccFits_shiftIn {w fuel acc : Nat} (b : Bool) (hw : fuel + 1 ≤ w) (h : gammaAccFits w (fuel + 1) acc) :
    gammaAccFits w fuel (shiftIn acc b) := by
  obtain ⟨hlo, hhi⟩ := h
  have hb : b.toNat < 2 := Bool.toNat_lt b
  have hstep : w - fuel = w - (fuel + 1) + 1 := by omega
  rw [gammaAccFits, hstep, shiftIn]
  simp only [Nat.pow_succ] at hhi ⊢
  omega

/-- The accumulator is full only in the last pass. -/
theorem gammaFull_iff_of_accFits {w fuel acc : Nat} (hw : fuel + 1 ≤ w) (h : gammaAccFits w (fuel + 1) acc) :
    gammaFull w acc = true ↔ fuel = 0 := by
  obtain ⟨hlo, hhi⟩ := h
  have hacc : acc < 2 ^ w := hhi.trans_le (Nat.pow_le_pow_right (by decide) (by omega))
  rw [gammaFull_iff (by omega) hacc]
  constructor
  · intro hfull
    have := (Nat.pow_lt_pow_iff_right (a := 2) (by decide)).1 (hfull.trans_lt hhi)
    omega
  · rintro rfl
    exact hlo

/-- One pass of the gamma loop with room in the accumulator: a data bit, and a bit that says whether pairs follow. -/
theorem gammaLoop_succ_eq_got_iff {w fuel acc v : Nat} {c c' : Cursor} (hroom : gammaFull w acc = false) :
    gammaLoop src w (fuel + 1) acc c = .got v c' ↔
      ∃ b d more e, readBit src c = .got b d ∧ readBit src d = .got more e ∧
        (if more then gammaLoop src w fuel (shiftIn acc b) e else .got (shiftIn acc b) e) = .got v c' := by
  simp only [gammaLoop, Read.bind_eq_got_iff, hroom, Bool.false_eq_true, if_false, exists_and_left]

/-- The gamma loop answers `v` exactly when the pairs of `v` below the accumulator follow: at least one of them, and
fewer than the passes left. -/
theorem gammaLoop_eq_got_iff {w fuel acc v : Nat} {c c' : Cursor} (hw : fuel ≤ w) (hacc : gammaAccFits w fuel acc) :
    gammaLoop src w fuel acc c = .got v c' ↔
      ∃ k, k + 1 < fuel ∧ v / 2 ^ (k + 1) = acc ∧ readsAs src (gammaPairs v (k + 1)) c = some c' := by
  induction fuel generalizing acc c with
  | zero => simp [gammaLoop]
  | succ fuel ih =>
    have hfull := gammaFull_iff_of_accFits hw hacc
    obtain rfl | hpos := Nat.eq_zero_or_pos fuel
    · simp [gammaLoop, Read.bind_eq_got_iff, hfull.2 rfl]
    · have hroom : gammaFull w acc = false := by simpa using mt hfull.1 hpos.ne'
      have hrest (b more : Bool) (e : Cursor) :
          (if more then gammaLoop src w fuel (shiftIn acc b) e else .got (shiftIn acc b) e) = .got v c' ↔
            ∃ k, k < fuel ∧ more = (k != 0) ∧ v / 2 ^ k = shiftIn acc b ∧
              readsAs src (gammaPairs v k) e = some c' := by
        rw [← Nat.or_exists_add_one]
        cases more with
        | false => simp [gammaPairs, hpos, eq_comm (a := v)]
        | true => simp [ih (by omega) (gammaAccFits_shiftIn b hw hacc)]
      rw [gammaLoop_succ_eq_got_iff hroom]
      simp only [hrest, div_two_pow_eq_shiftIn_iff, gammaPairs, readsAs_bit_iff]
      constructor
      · rintro ⟨b, d, more, e, hb, hmore, k, hk, rfl, ⟨hv, rfl⟩, hpairs⟩
        exact ⟨k, by omega, hv, d, hb, e, hmore, hpairs⟩
      · rintro ⟨k, hk, hv, d, hb, e, hmore, hpairs⟩
        exact ⟨_, d, _, e, hb, hmore, k, by omega, rfl, ⟨hv, rfl⟩, hpairs⟩

theorem div_two_pow_eq_one_iff {v k : Nat} : v / 2 ^ k = 1 ↔ v ≠ 0 ∧ v.log2 = k := by
  obtain rfl | hv := eq_or_ne v 0
  · simp
  · rw [Nat.log2_eq_iff hv, Nat.div_eq_iff (by positivity), Nat.pow_succ]
    omega

theorem gammaFits_iff {w v : Nat} : gammaFits w v = true ↔ 2 ≤ v ∧ v < 2 ^ w := by simp [gammaFits]

/-- `Gamma` answers exactly the values that fit its accumulator, each from its one field (R82, R122). -/
theorem readGamma_eq_got_iff {w v : Nat} {c c' : Cursor} :
    readGamma src w c = .got v c' ↔ gammaFits w v = true ∧ readsAs src (gammaField v) c = some c' := by
  simp only [readGamma, gammaLoop_eq_got_iff le_rfl (gammaAccFits_one w), div_two_pow_eq_one_iff, gammaField,
    gammaFits_iff]
  constructor
  · rintro ⟨k, hk, ⟨hv, hlog⟩, hpairs⟩
    have hlo : 2 ^ 1 ≤ v := (Nat.le_log2 hv).1 (by omega)
    exact ⟨⟨hlo, (Nat.log2_lt hv).1 (by omega)⟩, hlog ▸ hpairs⟩
  · rintro ⟨⟨hlo, hhi⟩, hpairs⟩
    have hv : v ≠ 0 := by omega
    have hlog : 1 ≤ v.log2 := (Nat.le_log2 hv).2 hlo
    have hpred : v.log2 = v.log2 - 1 + 1 := by omega
    exact ⟨v.log2 - 1, hpred ▸ (Nat.log2_lt hv).2 hhi, ⟨hv, hpred⟩, hpred ▸ hpairs⟩

/-- The field of `n` bits that `ReadBits` turns into `v`: bits `n-1` to 0 of `v`. -/
def numeralField (v : Nat) : Nat → List Field
  | 0 => []
  | n + 1 => .bit (v.testBit n) :: numeralField v n

theorem nibbleField_ofNat (v : Nat) : nibbleField (BitVec.ofNat 4 v) = numeralField v 4 := by
  simp only [nibbleField, numeralField, BitVec.getLsbD_ofNat, Nat.reduceLT, decide_true, Bool.true_and]

/-- `ReadBits(n)` answers the numbers that continue the bits already read, each from its one field. -/
theorem readBits_eq_got_iff {n acc v : Nat} {c c' : Cursor} :
    readBits src n acc c = .got v c' ↔ v / 2 ^ n = acc ∧ readsAs src (numeralField v n) c = some c' := by
  induction n generalizing acc c with
  | zero => simp [readBits, numeralField, eq_comm (a := v)]
  | succ n ih =>
    simp only [readBits, Read.bind_eq_got_iff, ih, div_two_pow_eq_shiftIn_iff, numeralField, readsAs_bit_iff]
    constructor
    · rintro ⟨b, d, hb, ⟨hv, rfl⟩, hrest⟩
      exact ⟨hv, d, hb, hrest⟩
    · rintro ⟨hv, d, hb, hrest⟩
      exact ⟨_, d, hb, ⟨hv, rfl⟩, hrest⟩

end Sys2Proof
end

section
/-! PROOFS. What each branch of the token decoder answers (R166, R178, R185), and that the decoder reads exactly the
formats of R81. -/

namespace Sys2Proof

variable {src : Source} {w : Nat} {lwm : Bool} {c c' : Cursor} {i : Instr}

/-- `REPMATCH` is the format of the gamma branch with the gamma value 2, whose field is `0 0`. -/
theorem fieldsOf_repmatch (n : Nat) :
    fieldsOf (.repmatch n) = .bit true :: .bit false :: (gammaField 2 ++ gammaField n) := by
  have hlog : Nat.log2 2 = 1 := by decide
  simp [fieldsOf, gammaField, hlog, gammaPairs]

theorem wf_gmatch_iff {g n : Nat} {lo : Byte} :
    (Instr.gmatch g lo n).wf w = true ↔ gammaFits w g = true ∧ gammaFits w n = true := by simp [Instr.wf]

theorem wf_repmatch_iff {n : Nat} : (Instr.repmatch n).wf w = true ↔ gammaFits w n = true := Iff.rfl

/-- `GMATCH` is selected unless the condition of `REPMATCH` holds (R89). -/
theorem selectedUnder_gmatch_iff {g n : Nat} {lo : Byte} :
    (Instr.gmatch g lo n).selectedUnder lwm = true ↔ ¬(lwm = false ∧ g = 2) := by
  cases lwm <;> simp [Instr.selectedUnder]

theorem selectedUnder_repmatch_iff {n : Nat} : (Instr.repmatch n).selectedUnder lwm = true ↔ lwm = false := by
  simp [Instr.selectedUnder]

/-- `INIT` is a raw byte. -/
theorem decodeInit_eq_got_iff :
    decodeInit src c = .got i c' ↔ ∃ l, i = .init l ∧ readsAs src (fieldsOf (.init l)) c = some c' := by
  simp only [decodeInit, Read.bind_eq_got_iff, Read.got.injEq, fieldsOf, readsAs_byte_iff, readsAs_nil_iff]
  constructor
  · rintro ⟨l, d, hl, rfl, rfl⟩
    exact ⟨l, rfl, d, hl, rfl⟩
  · rintro ⟨l, rfl, d, hl, rfl⟩
    exact ⟨l, d, hl, rfl, rfl⟩

/-- The branch `1 0` answers `REPMATCH` or `GMATCH`, by `lwm` and the gamma value read (R166). The accumulator must have
room for the gamma value 2. -/
theorem decodeGammaBranch_eq_got_iff (hw : 2 ≤ w) :
    decodeGammaBranch src w lwm c = .got i c' ↔
      (∃ n, i = .repmatch n ∧ i.wf w = true ∧ i.selectedUnder lwm = true ∧
        readsAs src (gammaField 2 ++ gammaField n) c = some c') ∨
      (∃ g lo n, i = .gmatch g lo n ∧ i.wf w = true ∧ i.selectedUnder lwm = true ∧
        readsAs src (gammaField g ++ .byte lo :: gammaField n) c = some c') := by
  have htwo : gammaFits w 2 = true := gammaFits_iff.2 ⟨le_rfl, Nat.pow_lt_pow_right Nat.one_lt_two hw⟩
  simp only [decodeGammaBranch, Read.bind_eq_got_iff, readGamma_eq_got_iff, readsAs_append_iff, readsAs_byte_iff]
  constructor
  · rintro ⟨g, d, ⟨hg, hgd⟩, h⟩
    split at h
    · next hrep =>
      obtain ⟨rfl, rfl⟩ := hrep
      obtain ⟨n, e, hne, ⟨⟩⟩ := Read.bind_got h
      obtain ⟨hn, hne⟩ := readGamma_eq_got_iff.1 hne
      exact .inl ⟨n, rfl, wf_repmatch_iff.2 hn, rfl, d, hgd, hne⟩
    · next hrep =>
      obtain ⟨lo, e, hlo, h⟩ := Read.bind_got h
      obtain ⟨n, f, hnf, ⟨⟩⟩ := Read.bind_got h
      obtain ⟨hn, hnf⟩ := readGamma_eq_got_iff.1 hnf
      exact .inr ⟨g, lo, n, rfl, wf_gmatch_iff.2 ⟨hg, hn⟩, selectedUnder_gmatch_iff.2 hrep, d, hgd, e, hlo, hnf⟩
  · rintro (⟨n, rfl, hn, hsel, d, hgd, hne⟩ | ⟨g, lo, n, rfl, hwf, hsel, d, hgd, e, hlo, hnf⟩)
    · refine ⟨2, d, ⟨htwo, hgd⟩, ?_⟩
      rw [if_pos ⟨selectedUnder_repmatch_iff.1 hsel, rfl⟩, readGamma_eq_got_iff.2 ⟨hn, hne⟩, Read.got_bind]
    · obtain ⟨hg, hn⟩ := wf_gmatch_iff.1 hwf
      refine ⟨g, d, ⟨hg, hgd⟩, ?_⟩
      rw [if_neg (selectedUnder_gmatch_iff.1 hsel), hlo, Read.got_bind, readGamma_eq_got_iff.2 ⟨hn, hnf⟩,
        Read.got_bind]

/-- The branch `1 1 0` answers `END` or `SMATCH` of the raw byte read, by `R[7:1]` (R178). -/
theorem decodeShortBranch_eq_got_iff :
    decodeShortBranch src c = .got i c' ↔
      ∃ raw, (i = .endMark raw ∧ raw.extractLsb' 1 7 = 0#7 ∨ i = .smatch raw ∧ raw.extractLsb' 1 7 ≠ 0#7) ∧
        readsAs src [.byte raw] c = some c' := by
  simp only [decodeShortBranch, Read.bind_eq_got_iff, Read.ite_got_eq_got_iff]
  simp [readsAs_byte_iff, and_comm, eq_comm (a := i)]

/-- The branch `1 1 1` answers `ZLIT` or `NMATCH` of the nibble read (R185, R186). -/
theorem decodeNibbleBranch_eq_got_iff :
    decodeNibbleBranch src c = .got i c' ↔
      ∃ nib, (i = .zlit ∧ nib = 0#4 ∨ i = .nmatch nib ∧ nib ≠ 0#4) ∧
        readsAs src (nibbleField nib) c = some c' := by
  simp only [decodeNibbleBranch, Read.bind_eq_got_iff, readBits_eq_got_iff, Read.ite_got_eq_got_iff,
    ← nibbleField_ofNat]
  constructor
  · rintro ⟨v, d, ⟨-, hnib⟩, ⟨h0, rfl⟩ | ⟨h0, rfl⟩, rfl⟩
    · exact ⟨_, .inl ⟨rfl, h0⟩, hnib⟩
    · exact ⟨_, .inr ⟨rfl, h0⟩, hnib⟩
  · rintro ⟨nib, hi, hnib⟩
    have hofNat : BitVec.ofNat 4 nib.toNat = nib := BitVec.ofNat_toNat ..
    refine ⟨nib.toNat, c', ⟨Nat.div_eq_of_lt nib.isLt, by rwa [hofNat]⟩, ?_, rfl⟩
    rw [hofNat]
    tauto

/-- `Token` reads control bits, then the operands of the branch that they select (R161). -/
theorem decodeToken_eq_got_iff :
    decodeToken src w lwm c = .got i c' ↔
      (∃ d, readsAs src [.bit false] c = some d ∧ ∃ l, i = .lit l ∧ readsAs src [.byte l] d = some c') ∨
      (∃ d, readsAs src [.bit true, .bit false] c = some d ∧ decodeGammaBranch src w lwm d = .got i c') ∨
      (∃ d, readsAs src [.bit true, .bit true, .bit false] c = some d ∧ decodeShortBranch src d = .got i c') ∨
      (∃ d, readsAs src [.bit true, .bit true, .bit true] c = some d ∧ decodeNibbleBranch src d = .got i c') := by
  have hlit (d : Cursor) : ((readByte src d).bind fun l c => .got (Instr.lit l) c) = .got i c' ↔
      ∃ l, i = .lit l ∧ readsAs src [.byte l] d = some c' := by
    simp [Read.bind_eq_got_iff, readsAs_byte_iff, and_comm, eq_comm (a := i)]
  simp only [decodeToken, readBit_bind_ite_eq_got_iff, hlit, exists_readsAs_bit_iff, readsAs_nil_iff,
    exists_eq_left', and_or_left, exists_or]

/-- The token decoder answers exactly the loop tokens whose format it can read: each branch against the formats that
begin with its control bits. -/
theorem decodeToken_eq_got_iff_readsAs (hw : 2 ≤ w) :
    decodeToken src w lwm c = .got i c' ↔
      i.inLoop = true ∧ i.wf w = true ∧ i.selectedUnder lwm = true ∧ readsAs src (fieldsOf i) c = some c' := by
  simp only [decodeToken_eq_got_iff, decodeGammaBranch_eq_got_iff hw, decodeShortBranch_eq_got_iff,
    decodeNibbleBranch_eq_got_iff]
  cases i with
  | init l => simp [Instr.inLoop]
  | lit l => simp [Instr.inLoop, Instr.wf, Instr.selectedUnder, fieldsOf, ← readsAs_append_iff]
  | gmatch g lo n => simp [Instr.inLoop, fieldsOf, exists_readsAs_and_iff, ← readsAs_append_iff]
  | repmatch n => simp [Instr.inLoop, fieldsOf_repmatch, exists_readsAs_and_iff, ← readsAs_append_iff]
  | smatch raw =>
    simp [Instr.inLoop, Instr.wf, Instr.selectedUnder, fieldsOf, exists_readsAs_and_iff, ← readsAs_append_iff]
  | endMark raw =>
    simp [Instr.inLoop, Instr.wf, Instr.selectedUnder, fieldsOf, exists_readsAs_and_iff, ← readsAs_append_iff]
  | nmatch nib =>
    simp [Instr.inLoop, Instr.wf, Instr.selectedUnder, fieldsOf, exists_readsAs_and_iff, ← readsAs_append_iff]
  | zlit => simp [Instr.inLoop, Instr.wf, Instr.selectedUnder, fieldsOf, ← readsAs_append_iff]

/-- Settles O2: the branches of the decoder, compared with the formats token by token. -/
theorem decoderReadsExactlyTheFormats : Obligations.DecoderReadsExactlyTheFormats :=
  ⟨fun _ _ _ _ _ _ hw => decodeToken_eq_got_iff_readsAs hw, fun _ _ _ _ => decodeInit_eq_got_iff⟩

end Sys2Proof
end

section
/-! PROOFS. Operand assembly in the spec's own operators (R84, R86). -/

namespace Sys2Proof.Machine

/-- With `lwm = 0` the gamma value 2 selects `REPMATCH`, so the adjustment of a `GMATCH` never goes below 0. -/
theorem highOf_add_adjustment {w g n : Nat} {lwm : Bool} {lo : Byte} (hwf : (Instr.gmatch g lo n).wf w = true)
    (hsel : (Instr.gmatch g lo n).selectedUnder lwm = true) : highOf lwm g + (if lwm then 2 else 3) = g := by
  have hg : 2 ≤ g := (gammaFits_iff.1 (wf_gmatch_iff.1 hwf).1).1
  cases lwm with
  | false =>
    have hne : g ≠ 2 := by simpa [selectedUnder_gmatch_iff] using hsel
    simp only [highOf, Bool.false_eq_true, if_false]
    omega
  | true =>
    simp only [highOf, if_true]
    omega

/-- Settles O11: `highOf` undoes its adjustment, and the bumps are `bump` at the spec's thresholds. -/
theorem gmatchOperandsAreAssembled : Obligations.GmatchOperandsAreAssembled := by
  refine ⟨fun w lwm g lo n hwf hsel =>
    ⟨highOf lwm g, highOf_add_adjustment hwf hsel, offsetOf_eq_shift_or _ lo⟩, ?_⟩
  intro cfg n off hA hB hC
  rw [gmatchLen, bump, hA, hB, hC]

theorem shortLen_eq (raw : Byte) : shortLen raw = 2 + raw.toNat % 2 := by
  simp [shortLen]

theorem shortOff_eq (raw : Byte) : shortOff raw = raw.toNat / 2 := by
  have hraw : raw.toNat < 256 := raw.isLt
  rw [shortOff, BitVec.extractLsb'_toNat, Nat.shiftRight_eq_div_pow]
  omega

/-- `END` has one meaning, whatever its raw byte. -/
theorem exec_endMark_eq (raw raw' : Byte) (s : State) : exec (.endMark raw) s = exec (.endMark raw') s := rfl

/-- Settles O12: the raw byte's halves as quotient and remainder by 2, and `END` never looks at it. -/
theorem shortOperandsAreAssembled : Obligations.ShortOperandsAreAssembled := by
  refine ⟨fun raw => ?_, fun raw s => exec_endMark_eq _ _ s⟩
  have hraw : raw.toNat < 256 := raw.isLt
  have hoff := shortOff_eq raw
  have hlen := shortLen_eq raw
  omega

end Sys2Proof.Machine
end

section
/-! PROOFS. How a token, and a step between tokens, can end (R160, R164, R188): back at the top of the loop, with `END`,
or with an error that leaves `last_offset`, its valid bit, `lwm` and `done` alone. -/

namespace Sys2Proof.Machine

variable {s t : State}

/-- No error kind has the code of a decode without an error (R230, R32). -/
theorem errCodeOf_ne_none (e : ErrorKind) : errCodeOf e ≠ .none := by cases e <;> nofun

theorem append_raised_onlyOutput {v : Byte} {e : ErrorKind} (h : append v s = .raised e t) : onlyOutput s t := by
  obtain ⟨-, -, rfl⟩ := append_raised h
  exact onlyOutput_refl t

/-- `BackRef` raises at its entry check, or in its copy loop with the bytes copied so far in place (R145, R146). -/
theorem backRef_raised_onlyOutput {off n : Nat} {v : Bool} {e : ErrorKind} (h : backRef off n v s = .raised e t) :
    onlyOutput s t := by
  unfold backRef at h
  split at h
  · cases h
    exact onlyOutput_refl s
  · exact (copyLoop_raised h).1

/-- The token ended in an error that `t` records, and wrote none of the registers that a token commits to (R164). -/
structure FailedToken (s t : State) : Prop where
  stop   : stopped t
  error  : t.errCode ≠ .none
  offset : sameOffset s t
  lwm    : t.lwm = s.lwm
  done   : t.done = s.done

/-- Output writes leave the registers that a token commits to alone. -/
theorem onlyOutput_keeps_registers (h : onlyOutput s t) : sameOffset s t ∧ t.lwm = s.lwm ∧ t.done = s.done := by
  rw [h]
  exact ⟨⟨rfl, rfl⟩, rfl, rfl⟩

/-- An error taken after output writes only is a failed token. -/
theorem failedToken_takeError {u : State} (e : ErrorKind) (h : onlyOutput s u) : FailedToken s (u.takeError e) := by
  obtain ⟨hoff, hlwm, hdone⟩ := onlyOutput_keeps_registers h
  exact ⟨rfl, errCodeOf_ne_none e, hoff, hlwm, hdone⟩

/-- Reading fields writes none of the registers either. -/
theorem FailedToken.of_setReader {c : Cursor} (h : FailedToken (s.setReader c) t) : FailedToken s t :=
  ⟨h.stop, h.error, h.offset, h.lwm, h.done⟩

/-- A token that writes output and then its other registers commits all of those or none. -/
theorem finishToken_next_or_failed {writes : State → State} {r : Res Unit}
    (hr : ∀ {e u}, r = .raised e u → onlyOutput s u) (h : finishToken writes r = .next t) :
    (∃ u, t = (writes u).leaveToken .b1) ∨ FailedToken s t := by
  rcases finishToken_next h with ⟨u, -, rfl⟩ | ⟨e, u, hu, rfl⟩
  · exact .inl ⟨u, rfl⟩
  · exact .inr (failedToken_takeError e (hr hu))

/-- The control state after a token that is not `END`. -/
theorem finishToken_fsm_or_failed {writes : State → State} {r : Res Unit}
    (hr : ∀ {e u}, r = .raised e u → onlyOutput s u) (h : finishToken writes r = .next t) :
    t.fsm = .b1 ∨ FailedToken s t :=
  (finishToken_next_or_failed hr h).imp_left fun ⟨_, hu⟩ => hu ▸ rfl

/-- A match that commits its offset after its copy (R172, R180), or fails. -/
theorem finishToken_commitMatch_next {off n : Nat}
    (h : finishToken (State.commitMatch off) (backRef off n true s) = .next t) :
    (t.fsm = .b1 ∧ t.lastOffset = off ∧ t.lastOffsetValid = true ∧ t.lwm = true) ∨
    (stopped t ∧ sameOffset s t ∧ t.lwm = s.lwm) := by
  rcases finishToken_next_or_failed backRef_raised_onlyOutput h with ⟨u, rfl⟩ | hf
  · exact .inl ⟨rfl, rfl, rfl, rfl⟩
  · exact .inr ⟨hf.stop, hf.offset, hf.lwm⟩

/-- How a token with all its fields read can end. -/
theorem exec_next {i : Instr} (h : exec i s = .next t) :
    t.fsm = .b1 ∨ ((∃ raw, i = .endMark raw) ∧ t = s.endDecode) ∨ FailedToken s t := by
  cases i with
  | endMark raw =>
    cases h
    exact .inr (.inl ⟨⟨raw, rfl⟩, rfl⟩)
  | init l => exact (finishToken_fsm_or_failed append_raised_onlyOutput h).imp_right .inr
  | lit l => exact (finishToken_fsm_or_failed append_raised_onlyOutput h).imp_right .inr
  | zlit => exact (finishToken_fsm_or_failed append_raised_onlyOutput h).imp_right .inr
  | gmatch g lo n => exact (finishToken_fsm_or_failed backRef_raised_onlyOutput h).imp_right .inr
  | repmatch n => exact (finishToken_fsm_or_failed backRef_raised_onlyOutput h).imp_right .inr
  | smatch raw => exact (finishToken_fsm_or_failed backRef_raised_onlyOutput h).imp_right .inr
  | nmatch nib => exact (finishToken_fsm_or_failed backRef_raised_onlyOutput h).imp_right .inr

/-- How a token can end from its first field on: the fields read may be cut short by an error (R164). -/
theorem runFetched_liftRead_next {r : Read Instr} (h : runFetched (liftRead s r) = .next t) :
    t.fsm = .b1 ∨ (∃ raw c, r = .got (.endMark raw) c ∧ t = (s.setReader c).endDecode) ∨ FailedToken s t := by
  cases r with
  | got i c =>
    rcases exec_next h with hb | ⟨⟨raw, rfl⟩, rfl⟩ | hf
    · exact .inl hb
    · exact .inr (.inl ⟨raw, c, rfl, rfl⟩)
    · exact .inr (.inr hf.of_setReader)
  | raised e c =>
    cases h
    exact .inr (.inr (failedToken_takeError e (onlyOutput_refl _)).of_setReader)
  | noByte a => cases h

theorem coreStep_of_init (hf : s.fsm = .init) : coreStep s = runFetched (fetchInit s) := by rw [coreStep, hf]

theorem coreStep_of_b1 (hf : s.fsm = .b1) : coreStep s = runFetched (fetchToken s) := by rw [coreStep, hf]

/-- How a step between tokens can end; before the loop the token is `INIT`, so `END` is met inside the loop only. -/
theorem step_next_of_boundary (hb : atBoundary s) (hq : portsQuiet s) (h : step s = .next t) :
    t.fsm = .b1 ∨
    (s.fsm = .b1 ∧ ∃ raw c, decodeToken s.source s.cfg.gammaW s.lwm s.rd = .got (.endMark raw) c ∧
      t = (s.setReader c).endDecode) ∨
    FailedToken s t := by
  rw [step, underPorts_of_quiet coreStep hq] at h
  rcases hb with hf | hf
  · rw [coreStep_of_init hf] at h
    rcases runFetched_liftRead_next h with h1 | ⟨raw, c, hread, -⟩ | hfail
    · exact .inl h1
    · obtain ⟨l, hl, -⟩ := decodeInit_eq_got_iff.1 hread
      cases hl
    · exact .inr (.inr hfail)
  · rw [coreStep_of_b1 hf] at h
    exact (runFetched_liftRead_next h).imp_right (Or.imp_left fun hend => ⟨hf, hend⟩)

/-- Settles O30: an ending with an error code is a failed token, and the two matches commit after their copy. -/
theorem failedTokenWritesNoFlag : Obligations.FailedTokenWritesNoFlag := by
  refine ⟨fun s t hb hq h hstop herr => ?_, fun g lo n s t h => finishToken_commitMatch_next h,
    fun raw s t h => finishToken_commitMatch_next h⟩
  rcases step_next_of_boundary hb hq h with hb1 | ⟨-, raw, c, -, rfl⟩ | hfail
  · rw [hb1] at hstop
    cases hstop
  · exact absurd (State.endDecode_errCode _) herr
  · exact ⟨hfail.offset, hfail.lwm, hfail.done⟩

/-- Settles O39: the three endings of a step between tokens. -/
theorem loopEndsOnlyAtEndOrError : Obligations.LoopEndsOnlyAtEndOrError := by
  intro s t hb hq h
  rcases step_next_of_boundary hb hq h with hb1 | ⟨hf, raw, c, hread, rfl⟩ | hfail
  · exact .inl hb1
  · exact .inr (.inl ⟨rfl, rfl, rfl, hf, raw, c, hread⟩)
  · exact .inr (.inr ⟨hfail.stop, hfail.error⟩)

end Sys2Proof.Machine
end

section
/-! PROOFS. The report of an error: its code (R230), and what strict mode makes of the decode (R53, R233). -/

namespace Sys2Proof.Machine

variable {s : State} {e : ErrorKind}

theorem errCodeOf_codesOfTheTable : codesOfTheTable :=
  ⟨fun _ => rfl, fun _ _ => rfl, fun _ => rfl, fun _ => rfl⟩

/-- Only a decode that ended with `status` DONE has a result (R53). -/
theorem result_eq_none_of_status_ne_done (h : s.status ≠ .done) : s.result = none := if_neg h

theorem takeError_status_of_strict (h : s.strictQ = true) : (s.takeError e).status = .error := by
  rw [State.takeError_status, if_pos h]

theorem takeError_recovered_of_strict (h : s.strictQ = true) : (s.takeError e).recovered = false := by
  rw [State.takeError_recovered, h, Bool.not_true]

theorem takeError_result_of_strict (h : s.strictQ = true) : (s.takeError e).result = none := by
  have hstatus : (s.takeError e).status ≠ .done := by
    rw [takeError_status_of_strict h]
    nofun
  exact result_eq_none_of_status_ne_done hstatus

/-- Settles O27: the status is ERROR, so R53 gives no result; the code does not depend on the mode. -/
theorem strictErrorIsReported : Obligations.StrictErrorIsReported :=
  ⟨errCodeOf_codesOfTheTable, fun e _ hstrict =>
    ⟨takeError_status_of_strict hstrict, State.takeError_errCode _ e, takeError_recovered_of_strict hstrict,
      takeError_result_of_strict hstrict⟩⟩

end Sys2Proof.Machine
end

section
/-! PROOFS. The layout of a field list as bytes is read back field by field (R80, R102, R106), so an encoded token and
an encoded stream decode to themselves. -/

namespace Sys2Proof

variable {src : Source} {w : Nat} {lwm : Bool} {c c' : Cursor} {i : Instr}

/-- The bytes `bs` stand in the source from index `p` on. -/
def Source.holds (src : Source) (p : Nat) (bs : List Byte) : Prop :=
  p + bs.length ≤ src.len ∧ ∀ j (h : j < bs.length), src.byte (p + j) = some bs[j]

theorem Source.holds_ofList (bs rest : List Byte) : (Source.ofList (bs ++ rest)).holds 0 bs := by
  refine ⟨by simp [ofList], fun j h => ?_⟩
  simp [ofList, List.getElem?_append_left h]

theorem Source.holds_cons {p : Nat} {b : Byte} {bs : List Byte} (h : src.holds p (b :: bs)) :
    p ≠ src.len ∧ src.byte p = some b ∧ src.holds (p + 1) bs := by
  obtain ⟨hlen, hbyte⟩ := h
  rw [List.length_cons] at hlen
  refine ⟨by omega, hbyte 0 (by simp), by omega, fun j hj => ?_⟩
  have := hbyte (j + 1) (by simpa using hj)
  rwa [List.getElem_cons_succ, show p + (j + 1) = p + 1 + j by omega] at this

theorem packBits_lt (n : Nat) (bs : List Bool) : packBits n bs < 2 ^ n := by
  induction n generalizing bs with
  | zero => simp [packBits]
  | succ n ih =>
    cases bs with
    | nil => simp [packBits]
    | cons b bs =>
      have := ih bs
      cases b <;> simp only [packBits, Bool.toNat_false, Bool.toNat_true, Nat.pow_succ] <;> omega

/-- Bit `j` of a list stands `j` places below the top of its packed form; below the end of the list the bits are 0. -/
theorem testBit_packBits {n j : Nat} {bs : List Bool} (hj : j < n) :
    (packBits n bs).testBit (n - 1 - j) = bs.getD j false := by
  induction n generalizing j bs with
  | zero => omega
  | succ n ih =>
    cases bs with
    | nil => simp [packBits]
    | cons b bs =>
      rw [packBits, Nat.mul_comm, Nat.testBit_two_pow_mul_add _ (packBits_lt n bs)]
      cases j with
      | zero => cases b <;> simp
      | succ j =>
        rw [if_pos (by omega), show n + 1 - 1 - (j + 1) = n - 1 - j by omega, ih (by omega)]
        simp

/-- The `room` bits left in a tag, from bit 7 down, are the first bits of the list, and 0 where it ends. -/
def tagHolds (tag : Byte) (room : Nat) (bs : List Bool) : Prop :=
  ∀ j < room, tag.getLsbD (7 - j) = bs.getD j false

theorem tagHolds_packBits (bs : List Bool) : tagHolds (BitVec.ofNat 8 (packBits 8 bs)) 8 bs := by
  intro j hj
  have hlt : 7 - j < 8 := by omega
  rw [BitVec.getLsbD_ofNat, ← testBit_packBits hj, decide_eq_true hlt, Bool.true_and]

/-- The next bit of a tag, and what the tag holds after it. -/
theorem tagHolds_cons {tag : Byte} {room : Nat} {b : Bool} {bs : List Bool} (hroom : room < 8)
    (h : tagHolds tag (room + 1) (b :: bs)) : tag.getLsbD 7 = b ∧ tagHolds (tag <<< 1) room bs := by
  refine ⟨by simpa using h 0 (by omega), fun j hj => ?_⟩
  have := h (j + 1) (by omega)
  rw [List.getD_cons_succ] at this
  rw [← this, BitVec.getLsbD_shiftLeft, show 7 - j - 1 = 7 - (j + 1) by omega]
  simp
  omega

@[simp] theorem layout_byte (room : Nat) (v : Byte) (fs : List Field) :
    layout room (.byte v :: fs) = v :: layout room fs := by cases room <;> rfl

@[simp] theorem layout_bit_zero (b : Bool) (fs : List Field) :
    layout 0 (.bit b :: fs) = BitVec.ofNat 8 (packBits 8 (b :: bitsOf fs)) :: layout 7 fs := rfl

@[simp] theorem layout_bit_succ (room : Nat) (b : Bool) (fs : List Field) :
    layout (room + 1) (.bit b :: fs) = layout room fs := rfl

/-- `NextByte` before the end of the input. -/
theorem readByte_of_input {v : Byte} (hl : c.inPtr ≠ src.len) (hv : src.byte c.inPtr = some v) :
    readByte src c = .got v { c with inPtr := c.inPtr + 1 } := by
  rw [readByte, if_neg hl, hv]

/-- The key fact of the encoder: reading where a layout stands answers its fields and takes exactly its bytes. -/
theorem readsAs_layout {fs : List Field} (htag : tagHolds c.tag c.bitcount.toNat (bitsOf fs))
    (hsrc : src.holds c.inPtr (layout c.bitcount.toNat fs)) :
    ∃ d, readsAs src fs c = some d ∧ d.inPtr = c.inPtr + (layout c.bitcount.toNat fs).length := by
  induction fs generalizing c with
  | nil => exact ⟨c, rfl, rfl⟩
  | cons f fs ih =>
    cases f with
    | byte v =>
      rw [layout_byte] at hsrc ⊢
      obtain ⟨hlen, hbyte, hrest⟩ := Source.holds_cons hsrc
      obtain ⟨d, hd, hp⟩ := ih (c := { c with inPtr := c.inPtr + 1 }) htag hrest
      refine ⟨d, readsAs_byte_iff.2 ⟨_, readByte_of_input hlen hbyte, hd⟩, hp.trans ?_⟩
      simp only [List.length_cons]
      omega
    | bit b =>
      by_cases hc : c.bitcount = 0#3
      · rw [hc, BitVec.toNat_ofNat, Nat.zero_mod, layout_bit_zero] at hsrc ⊢
        obtain ⟨hlen, hbyte, hrest⟩ := Source.holds_cons hsrc
        obtain ⟨hbit, hshift⟩ := tagHolds_cons (by decide) (tagHolds_packBits (b :: bitsOf fs))
        have hread := readBit_of_refill hc hlen hbyte
        rw [hbit] at hread
        obtain ⟨d, hd, hp⟩ := ih (c := ⟨c.inPtr + 1, _, 7#3⟩) hshift hrest
        have hseven : (7#3 : BitVec 3).toNat = 7 := rfl
        refine ⟨d, readsAs_bit_iff.2 ⟨_, hread, hd⟩, hp.trans ?_⟩
        simp only [List.length_cons, hseven]
        omega
      · obtain ⟨room, hroom⟩ : ∃ room, c.bitcount.toNat = room + 1 :=
          Nat.exists_eq_succ_of_ne_zero fun h => hc (BitVec.eq_of_toNat_eq h)
        have hpred : (c.bitcount - 1#3).toNat = room := by bv_omega
        have hlt : room < 8 := by bv_omega
        rw [hroom] at htag hsrc ⊢
        rw [layout_bit_succ] at hsrc ⊢
        obtain ⟨hbit, hshift⟩ := tagHolds_cons hlt htag
        have hread := readBit_of_tag (src := src) hc
        rw [hbit] at hread
        obtain ⟨d, hd, hp⟩ := ih (c := ⟨c.inPtr, c.tag <<< 1, c.bitcount - 1#3⟩) (by simpa [hpred] using hshift)
          (by simpa [hpred] using hsrc)
        refine ⟨d, readsAs_bit_iff.2 ⟨_, hread, hd⟩, ?_⟩
        simpa [hpred] using hp

/-- A layout from an empty tag at the start of the source. -/
theorem readsAs_layout_start (fs : List Field) (rest : List Byte) :
    ∃ d, readsAs (Source.ofList (layout 0 fs ++ rest)) fs .start = some d ∧ d.inPtr = (layout 0 fs).length := by
  obtain ⟨d, hd, hp⟩ := readsAs_layout (src := Source.ofList (layout 0 fs ++ rest)) (c := .start) (fs := fs)
    (fun j hj => absurd hj (Nat.not_lt_zero j)) (Source.holds_ofList _ rest)
  exact ⟨d, hd, hp.trans (Nat.zero_add _)⟩

/-- A well-formed token whose fields can be read is decoded, whatever the width: with less than two accumulator bits no
token with a gamma field is well formed, and the other formats do not depend on the width. -/
theorem decodeToken_of_readsAs (hloop : i.inLoop = true) (hwf : i.wf w = true) (hsel : i.selectedUnder lwm = true)
    (h : readsAs src (fieldsOf i) c = some c') : decodeToken src w lwm c = .got i c' := by
  by_cases hw : 2 ≤ w
  · exact (decodeToken_eq_got_iff_readsAs hw).2 ⟨hloop, hwf, hsel, h⟩
  · have hnofit (v : Nat) : gammaFits w v = false := by
      have : 2 ^ w ≤ 2 ^ 1 := Nat.pow_le_pow_right (by decide) (by omega)
      by_contra hv
      have := gammaFits_iff.1 (Bool.not_eq_false _ ▸ hv)
      omega
    have hgmatch (g lo n) : i ≠ .gmatch g lo n := by rintro rfl; simp [Instr.wf, hnofit] at hwf
    have hrepmatch (n) : i ≠ .repmatch n := by rintro rfl; simp [Instr.wf, hnofit] at hwf
    have hwf2 : i.wf 2 = true := by
      cases i with
      | gmatch g lo n => exact absurd rfl (hgmatch g lo n)
      | repmatch n => exact absurd rfl (hrepmatch n)
      | _ => exact hwf
    rcases decodeToken_eq_got_iff.1 ((decodeToken_eq_got_iff_readsAs le_rfl).2 ⟨hloop, hwf2, hsel, h⟩) with
      h | ⟨d, -, h⟩ | h | h
    · exact decodeToken_eq_got_iff.2 (.inl h)
    · rcases (decodeGammaBranch_eq_got_iff le_rfl).1 h with ⟨n, hi, -⟩ | ⟨g, lo, n, hi, -⟩
      · exact absurd hi (hrepmatch n)
      · exact absurd hi (hgmatch g lo n)
    · exact decodeToken_eq_got_iff.2 (.inr (.inr (.inl h)))
    · exact decodeToken_eq_got_iff.2 (.inr (.inr (.inr h)))

/-- Settles O3: the fields of the token are read back from their layout. -/
theorem decodeOfEncodeIsTheToken : Obligations.DecodeOfEncodeIsTheToken := by
  intro w lwm i rest hloop hwf hsel
  obtain ⟨d, hd, hp⟩ := readsAs_layout_start (fieldsOf i) rest
  exact ⟨d, decodeToken_of_readsAs hloop hwf hsel hd, hp⟩

theorem streamWf_cons {is : List Instr} : streamWf w lwm (i :: is) = true ↔
    i.inLoop = true ∧ i.wf w = true ∧ i.selectedUnder lwm = true ∧ streamWf w (i.lwmAfter lwm) is = true := by
  simp [streamWf, and_assoc]

/-- A well-formed stream whose fields can be read is decoded token by token. -/
theorem decodeTokens_of_readsAs {is : List Instr} (hwf : streamWf w lwm is = true)
    (h : readsAs src (is.flatMap fieldsOf) c = some c') : decodeTokens src w is.length lwm c = .got is c' := by
  induction is generalizing lwm c with
  | nil => rw [readsAs_nil_iff.1 h]; rfl
  | cons i is ih =>
    obtain ⟨hloop, hi, hsel, hrest⟩ := streamWf_cons.1 hwf
    rw [List.flatMap_cons, readsAs_append_iff] at h
    obtain ⟨d, hd, h⟩ := h
    rw [List.length_cons, decodeTokens, decodeToken_of_readsAs hloop hi hsel hd, Read.got_bind, ih hrest h,
      Read.got_bind]

/-- Settles O4: one layout of all the fields, read back by `INIT`'s decoder and then by the token decoder. -/
theorem decodeOfEncodedStreamIsTheStream : Obligations.DecodeOfEncodedStreamIsTheStream := by
  intro w l is hwf
  obtain ⟨d, hd, hp⟩ := readsAs_layout_start ((Instr.init l :: is).flatMap fieldsOf) []
  rw [List.append_nil, List.flatMap_cons] at hd
  obtain ⟨e, hinit, hrest⟩ := readsAs_append_iff.1 hd
  exact ⟨e, d, decodeInit_eq_got_iff.2 ⟨l, rfl, hinit⟩, decodeTokens_of_readsAs hwf hrest, hp⟩

end Sys2Proof
end

section
/-! PROOFS. How `Gamma` overflows (R123), and that the decoder stops without a token in no other way than R90 says. -/

namespace Sys2Proof

variable {src : Source} {w : Nat} {lwm : Bool} {c c' : Cursor}

/-- Settles O1: each word is read by computation. -/
theorem wordsDecodeToTheirTokens : Obligations.WordsDecodeToTheirTokens := by
  unfold Obligations.WordsDecodeToTheirTokens
  decide

/-- Settles O7: the general law of `Gamma` holds for every width. -/
theorem gammaFieldsAreExact : Obligations.GammaFieldsAreExact := fun _ _ _ _ _ _ => readGamma_eq_got_iff

/-- A read in sequence raises exactly in its first read or after it: the `↔` of `Read.bind_raised`. -/
theorem Read.bind_eq_raised_iff {α β : Type} {r : Read α} {k : α → Cursor → Read β} {e : ErrorKind} :
    r.bind k = .raised e c' ↔ r = .raised e c' ∨ ∃ a d, r = .got a d ∧ k a d = .raised e c' := by
  refine ⟨Read.bind_raised, ?_⟩
  rintro (rfl | ⟨a, d, rfl, h⟩)
  · rfl
  · exact h

@[simp] theorem readBit_ne_gammaOverflow {p : Nat} : readBit src c ≠ .raised (.gammaOverflow p) c' := by
  intro h
  obtain ⟨-, -, he, -⟩ := readBit_raised h
  cases he

@[simp] theorem readByte_ne_gammaOverflow {p : Nat} : readByte src c ≠ .raised (.gammaOverflow p) c' := by
  intro h
  obtain ⟨-, he, -⟩ := readByte_raised h
  cases he

/-- Pairs that go on, with the given data bits, and one more data bit: where a gamma value overflows (R123). -/
def overflowField (bits : List Bool) (last : Bool) : List Field :=
  bits.flatMap (fun b => [Field.bit b, Field.bit true]) ++ [Field.bit last]

theorem readsAs_overflowField_cons {b last : Bool} {bits : List Bool} :
    readsAs src (overflowField (b :: bits) last) c = some c' ↔
      ∃ d e, readBit src c = .got b d ∧ readBit src d = .got true e ∧
        readsAs src (overflowField bits last) e = some c' := by
  simp [overflowField, readsAs_bit_iff]

/-- The gamma loop overflows exactly at the data bit of its last pass, after pairs that all go on. -/
theorem gammaLoop_eq_overflow_iff {fuel acc p : Nat} (hw : fuel + 1 ≤ w) (hacc : gammaAccFits w (fuel + 1) acc) :
    gammaLoop src w (fuel + 1) acc c = .raised (.gammaOverflow p) c' ↔
      p = c'.inPtr ∧ ∃ bits last, bits.length = fuel ∧ readsAs src (overflowField bits last) c = some c' := by
  induction fuel generalizing acc c with
  | zero =>
    have hfull : gammaFull w acc = true := (gammaFull_iff_of_accFits hw hacc).2 rfl
    simp only [gammaLoop, hfull, if_true, Read.bind_eq_raised_iff, readBit_ne_gammaOverflow, false_or,
      Read.raised.injEq, ErrorKind.gammaOverflow.injEq, List.length_eq_zero_iff]
    constructor
    · rintro ⟨last, d, hd, rfl, rfl⟩
      exact ⟨rfl, [], last, rfl, readsAs_bit_iff.2 ⟨_, hd, rfl⟩⟩
    · rintro ⟨rfl, bits, last, rfl, hread⟩
      obtain ⟨d, hd, hnil⟩ := readsAs_bit_iff.1 hread
      cases readsAs_nil_iff.1 hnil
      exact ⟨last, _, hd, rfl, rfl⟩
  | succ fuel ih =>
    have hroom : gammaFull w acc = false := by
      have := gammaFull_iff_of_accFits hw hacc
      by_contra hfull
      have := this.1 (Bool.not_eq_false _ ▸ hfull)
      omega
    have hpass (b more : Bool) (e : Cursor) :
        (if more then gammaLoop src w (fuel + 1) (shiftIn acc b) e else .got (shiftIn acc b) e) =
            .raised (.gammaOverflow p) c' ↔
          more = true ∧ p = c'.inPtr ∧ ∃ bits last, bits.length = fuel ∧
            readsAs src (overflowField bits last) e = some c' := by
      cases more with
      | false => simp
      | true => simp [ih (by omega) (gammaAccFits_shiftIn b hw hacc)]
    rw [gammaLoop]
    simp only [hroom, Bool.false_eq_true, if_false, Read.bind_eq_raised_iff, readBit_ne_gammaOverflow, false_or, hpass]
    constructor
    · rintro ⟨b, d, hb, more, e, hmore, rfl, rfl, bits, last, rfl, hread⟩
      exact ⟨rfl, b :: bits, last, rfl, readsAs_overflowField_cons.2 ⟨d, e, hb, hmore, hread⟩⟩
    · rintro ⟨rfl, bits, last, hlen, hread⟩
      obtain ⟨b, bits, rfl⟩ := List.exists_of_length_succ bits hlen
      obtain ⟨d, e, hb, hmore, hread⟩ := readsAs_overflowField_cons.1 hread
      exact ⟨b, d, hb, true, e, hmore, rfl, rfl, bits, last, by simpa using hlen, hread⟩

/-- `Gamma` overflows exactly at the data bit of pass `w` (R123). -/
theorem readGamma_eq_overflow_iff {p : Nat} (hw : 1 ≤ w) :
    readGamma src w c = .raised (.gammaOverflow p) c' ↔
      p = c'.inPtr ∧ ∃ bits last, bits.length = w - 1 ∧ readsAs src (overflowField bits last) c = some c' := by
  obtain ⟨fuel, rfl⟩ : ∃ fuel, w = fuel + 1 := ⟨w - 1, by omega⟩
  exact gammaLoop_eq_overflow_iff le_rfl (gammaAccFits_one _)

/-- Settles O8: one direction of the law of the overflow. -/
theorem gammaOverflowsAtTheLastDataBit : Obligations.GammaOverflowsAtTheLastDataBit := by
  intro src w bits last c c' hw hlen hread
  exact (readGamma_eq_overflow_iff (by omega)).2 ⟨rfl, bits, last, hlen, hread⟩

/-! ### What a read consumes -/

/-- How a read that begins at `c` can end: with fields consumed; where it raises, at the end of the input or with a
gamma overflow; where it lacks a byte, at an index before the end of the input that the memory does not have. -/
def Read.Consumes {α : Type} (src : Source) (c : Cursor) : Read α → Prop
  | .got _ d => ∃ fs, readsAs src fs c = some d
  | .raised e d => (∃ fs, readsAs src fs c = some d) ∧
      (e = .truncatedInput d.inPtr ∧ d.inPtr = src.len ∨ ∃ p, e = .gammaOverflow p)
  | .noByte a => ∃ fs d, readsAs src fs c = some d ∧ d.inPtr = a ∧ a ≠ src.len ∧ src.byte a = none

/-- Fields consumed before a read count with those it consumes. -/
theorem Read.Consumes.of_readsAs {α : Type} {r : Read α} {fs : List Field} (h : readsAs src fs c = some c')
    (hr : r.Consumes src c') : r.Consumes src c := by
  have happend {gs d} (hgs : readsAs src gs c' = some d) : readsAs src (fs ++ gs) c = some d :=
    readsAs_append_iff.2 ⟨c', h, hgs⟩
  cases r with
  | got a d =>
    obtain ⟨gs, hgs⟩ := hr
    exact ⟨_, happend hgs⟩
  | raised e d =>
    obtain ⟨⟨gs, hgs⟩, he⟩ := hr
    exact ⟨⟨_, happend hgs⟩, he⟩
  | noByte a =>
    obtain ⟨gs, d, hgs, ha⟩ := hr
    exact ⟨_, d, happend hgs, ha⟩

theorem Read.Consumes.bind {α β : Type} {r : Read α} {k : α → Cursor → Read β} (hr : r.Consumes src c)
    (hk : ∀ a d, (k a d).Consumes src d) : (r.bind k).Consumes src c := by
  cases r with
  | got a d =>
    obtain ⟨fs, hfs⟩ := hr
    exact (hk a d).of_readsAs hfs
  | raised e d => exact hr
  | noByte a => exact hr

theorem Read.consumes_got {α : Type} (a : α) (c : Cursor) : (Read.got a c).Consumes src c := ⟨[], rfl⟩

theorem readBit_consumes (c : Cursor) : (readBit src c).Consumes src c := by
  cases h : readBit src c with
  | got b d => exact ⟨[.bit b], readsAs_bit_iff.2 ⟨d, h, rfl⟩⟩
  | raised e d =>
    obtain ⟨-, hlen, rfl, rfl⟩ := readBit_raised h
    exact ⟨⟨[], rfl⟩, .inl ⟨rfl, hlen⟩⟩
  | noByte a =>
    unfold readBit at h
    split at h
    · split at h
      · cases h
      · next hlen =>
        split at h
        · next hbyte => cases h; exact ⟨[], c, rfl, rfl, hlen, hbyte⟩
        · cases h
    · cases h

theorem readByte_consumes (c : Cursor) : (readByte src c).Consumes src c := by
  cases h : readByte src c with
  | got v d => exact ⟨[.byte v], readsAs_byte_iff.2 ⟨d, h, rfl⟩⟩
  | raised e d =>
    obtain ⟨hlen, rfl, rfl⟩ := readByte_raised h
    exact ⟨⟨[], rfl⟩, .inl ⟨rfl, hlen⟩⟩
  | noByte a =>
    unfold readByte at h
    split at h
    · cases h
    · next hlen =>
      split at h
      · next hbyte => cases h; exact ⟨[], c, rfl, rfl, hlen, hbyte⟩
      · cases h

theorem readBits_consumes (n acc : Nat) (c : Cursor) : (readBits src n acc c).Consumes src c := by
  induction n generalizing acc c with
  | zero => exact Read.consumes_got acc c
  | succ n ih => exact (readBit_consumes c).bind fun b d => ih _ d

theorem gammaLoop_consumes (w fuel acc : Nat) (c : Cursor) : (gammaLoop src w fuel acc c).Consumes src c := by
  induction fuel generalizing acc c with
  | zero => exact ⟨⟨[], rfl⟩, .inr ⟨_, rfl⟩⟩
  | succ fuel ih =>
    refine (readBit_consumes c).bind fun b d => ?_
    split
    · exact ⟨⟨[], rfl⟩, .inr ⟨_, rfl⟩⟩
    · refine (readBit_consumes d).bind fun more e => ?_
      split
      · exact ih _ e
      · exact Read.consumes_got _ e

theorem decodeInit_consumes (c : Cursor) : (decodeInit src c).Consumes src c :=
  (readByte_consumes c).bind fun _ d => Read.consumes_got _ d

theorem decodeGammaBranch_consumes (w : Nat) (lwm : Bool) (c : Cursor) :
    (decodeGammaBranch src w lwm c).Consumes src c := by
  refine (gammaLoop_consumes w w 1 c).bind fun g d => ?_
  split
  · exact (gammaLoop_consumes w w 1 d).bind fun _ e => Read.consumes_got _ e
  · exact (readByte_consumes d).bind fun _ e => (gammaLoop_consumes w w 1 e).bind fun _ f => Read.consumes_got _ f

theorem decodeShortBranch_consumes (c : Cursor) : (decodeShortBranch src c).Consumes src c := by
  refine (readByte_consumes c).bind fun raw d => ?_
  split <;> exact Read.consumes_got _ d

theorem decodeNibbleBranch_consumes (c : Cursor) : (decodeNibbleBranch src c).Consumes src c := by
  refine (readBits_consumes 4 0 c).bind fun v d => ?_
  split <;> exact Read.consumes_got _ d

theorem decodeToken_consumes (w : Nat) (lwm : Bool) (c : Cursor) : (decodeToken src w lwm c).Consumes src c := by
  refine (readBit_consumes c).bind fun b1 c1 => ?_
  split
  · exact (readByte_consumes c1).bind fun _ d => Read.consumes_got _ d
  · refine (readBit_consumes c1).bind fun b2 c2 => ?_
    split
    · exact decodeGammaBranch_consumes w lwm c2
    · refine (readBit_consumes c2).bind fun b3 c3 => ?_
      split
      · exact decodeShortBranch_consumes c3
      · exact decodeNibbleBranch_consumes c3

/-! ### No pattern is illegal -/

/-- The branch `1 0` overflows in its first gamma value, or in the second with the fields before it read. -/
theorem decodeGammaBranch_overflow {p : Nat} (hw : 2 ≤ w)
    (h : decodeGammaBranch src w lwm c = .raised (.gammaOverflow p) c') :
    p = c'.inPtr ∧ ∃ before bits last, bits.length = w - 1 ∧
      readsAs src (before ++ overflowField bits last) c = some c' := by
  have hgamma {d : Cursor} {before : List Field} (hbefore : readsAs src before c = some d)
      (hd : readGamma src w d = .raised (.gammaOverflow p) c') : p = c'.inPtr ∧ ∃ before bits last,
        bits.length = w - 1 ∧ readsAs src (before ++ overflowField bits last) c = some c' := by
    obtain ⟨hp, bits, last, hlen, hread⟩ := (readGamma_eq_overflow_iff (by omega)).1 hd
    exact ⟨hp, before, bits, last, hlen, readsAs_append_iff.2 ⟨d, hbefore, hread⟩⟩
  rcases Read.bind_raised h with h | ⟨g, d, hg, h⟩
  · exact hgamma (before := []) rfl h
  · obtain ⟨-, hg⟩ := readGamma_eq_got_iff.1 hg
    split at h
    · rcases Read.bind_raised h with h | ⟨n, e, -, h⟩
      · exact hgamma hg h
      · cases h
    · rcases Read.bind_raised h with h | ⟨lo, e, hlo, h⟩
      · exact absurd h readByte_ne_gammaOverflow
      · rcases Read.bind_raised h with h | ⟨n, f, -, h⟩
        · exact hgamma (before := gammaField g ++ [.byte lo])
            (readsAs_append_iff.2 ⟨d, hg, readsAs_byte_iff.2 ⟨e, hlo, rfl⟩⟩) h
        · cases h

theorem readBits_ne_gammaOverflow {n acc p : Nat} : readBits src n acc c ≠ .raised (.gammaOverflow p) c' := by
  induction n generalizing acc c with
  | zero => nofun
  | succ n ih => simp [readBits, Read.bind_eq_raised_iff, ih]

/-- `Token` overflows only in the branch `1 0`. -/
theorem decodeToken_overflow {p : Nat} (h : decodeToken src w lwm c = .raised (.gammaOverflow p) c') :
    ∃ d, readsAs src [.bit true, .bit false] c = some d ∧
      decodeGammaBranch src w lwm d = .raised (.gammaOverflow p) c' := by
  rcases Read.bind_raised h with h | ⟨b1, c1, h1, h⟩
  · exact absurd h readBit_ne_gammaOverflow
  cases b1 with
  | false => simp [Read.bind_eq_raised_iff] at h
  | true =>
    rcases Read.bind_raised h with h | ⟨b2, c2, h2, h⟩
    · exact absurd h readBit_ne_gammaOverflow
    cases b2 with
    | false => exact ⟨c2, readsAs_bit_iff.2 ⟨c1, h1, readsAs_bit_iff.2 ⟨c2, h2, rfl⟩⟩, h⟩
    | true =>
      rcases Read.bind_raised h with h | ⟨b3, c3, h3, h⟩
      · exact absurd h readBit_ne_gammaOverflow
      cases b3 with
      | false =>
        rcases Read.bind_raised h with h | ⟨raw, d, -, h⟩
        · exact absurd h readByte_ne_gammaOverflow
        · split at h <;> cases h
      | true =>
        rcases Read.bind_raised h with h | ⟨v, d, -, h⟩
        · exact absurd h readBits_ne_gammaOverflow
        · split at h <;> cases h

/-- Settles O5: what the decoder consumes says how it stops, and an overflow stands at the end of a gamma field of the
branch `1 0`. -/
theorem noPatternIsIllegal : Obligations.NoPatternIsIllegal := by
  intro src w lwm c hw
  have hconsumes := decodeToken_consumes (src := src) w lwm c
  refine ⟨fun e c' h => ?_, fun a h => ?_⟩
  · rw [h] at hconsumes
    obtain ⟨-, ⟨he, hlen⟩ | ⟨p, rfl⟩⟩ := hconsumes
    · exact .inl ⟨he, hlen⟩
    · obtain ⟨d, hcontrol, hbranch⟩ := decodeToken_overflow h
      obtain ⟨rfl, before, bits, last, hlen, hread⟩ := decodeGammaBranch_overflow hw hbranch
      refine .inr ⟨rfl, before, bits, last, hlen, ?_⟩
      have := readsAs_append_iff.2 ⟨d, hcontrol, hread⟩
      simpa [overflowField] using this
  · rw [h] at hconsumes
    obtain ⟨-, -, -, -, -, hbyte⟩ := hconsumes
    exact hbyte

end Sys2Proof
end

section
/-! PROOFS. What consuming fields does to a cursor (R21, R22, R189), and how a read of a shorter input goes (R190,
R239). -/

namespace Sys2Proof

variable {src : Source} {c d : Cursor}

/-- Below the unconsumed bits the tag is zero (R22). -/
def Cursor.tagClean (c : Cursor) : Prop := c.tag.toNat % 2 ^ (8 - c.bitcount.toNat) = 0

/-- The bits that `NextBit` can still take from a cursor (R189). -/
def Cursor.bitsLeft (src : Source) (c : Cursor) : Nat := 8 * (src.len - c.inPtr) + c.bitcount.toNat

/-- Shifting a byte left by one makes room for one more zero bit. -/
theorem shiftLeft_one_mod_two_pow {v : Byte} {k : Nat} (hk : k < 8) (h : v.toNat % 2 ^ k = 0) :
    (v <<< 1).toNat % 2 ^ (k + 1) = 0 := by
  have hdvd : 2 ^ (k + 1) ∣ 2 ^ 8 := Nat.pow_dvd_pow 2 hk
  rw [BitVec.toNat_shiftLeft, Nat.mod_mod_of_dvd _ hdvd, Nat.shiftLeft_eq, Nat.pow_succ 2 k, Nat.pow_one,
    Nat.mul_mod_mul_right, h]

/-- One bit read moves forward, keeps to the input, keeps the tag clean, and takes one bit of those left. -/
theorem readBit_got_cursor {b : Bool} (h : readBit src c = .got b d) :
    c.inPtr ≤ d.inPtr ∧ (c.inPtr ≤ src.len → d.inPtr ≤ src.len ∧ d.bitsLeft src + 1 = c.bitsLeft src) ∧
    (c.tagClean → d.tagClean) := by
  rcases readBit_got h with ⟨hc, -, rfl⟩ | ⟨hc, hlen, v, -, -, rfl⟩
  · have hpos : 0 < c.bitcount.toNat := by bv_omega
    have hpred : (c.bitcount - 1#3).toNat + 1 = c.bitcount.toNat := by bv_omega
    refine ⟨le_rfl, fun hin => ⟨hin, ?_⟩, fun hclean => ?_⟩
    · simp only [Cursor.bitsLeft]; omega
    · have hlt := c.bitcount.isLt
      have := shiftLeft_one_mod_two_pow (by omega) hclean
      rwa [Cursor.tagClean, show 8 - (c.bitcount - 1#3).toNat = 8 - c.bitcount.toNat + 1 by omega]
  · refine ⟨Nat.le_succ _, fun hin => ⟨by change c.inPtr + 1 ≤ src.len; omega, ?_⟩, fun _ => ?_⟩
    · have hseven : (7#3 : BitVec 3).toNat = 7 := rfl
      simp only [Cursor.bitsLeft, hc, hseven, BitVec.toNat_zero]
      omega
    · exact shiftLeft_one_mod_two_pow (k := 0) (by decide) (Nat.mod_one _)

/-- One byte read does the same, and takes eight bits of those left. -/
theorem readByte_got_cursor {v : Byte} (h : readByte src c = .got v d) :
    c.inPtr ≤ d.inPtr ∧ (c.inPtr ≤ src.len → d.inPtr ≤ src.len ∧ d.bitsLeft src + 8 = c.bitsLeft src) ∧
    (c.tagClean → d.tagClean) := by
  obtain ⟨hlen, -, rfl⟩ := readByte_got h
  refine ⟨Nat.le_succ _, fun hin => ⟨by change c.inPtr + 1 ≤ src.len; omega, ?_⟩, id⟩
  simp only [Cursor.bitsLeft]
  omega

/-- Fields read move forward, keep to the input, keep the tag clean, and take at least a bit each. -/
theorem readsAs_cursor {fs : List Field} (h : readsAs src fs c = some d) :
    c.inPtr ≤ d.inPtr ∧
    (c.inPtr ≤ src.len → d.inPtr ≤ src.len ∧ d.bitsLeft src + fs.length ≤ c.bitsLeft src) ∧
    (c.tagClean → d.tagClean) := by
  induction fs generalizing c with
  | nil =>
    cases readsAs_nil_iff.1 h
    exact ⟨le_rfl, fun hin => ⟨hin, le_rfl⟩, id⟩
  | cons f fs ih =>
    obtain ⟨e, hforward, hinput, hclean, h⟩ : ∃ e, c.inPtr ≤ e.inPtr ∧
        (c.inPtr ≤ src.len → e.inPtr ≤ src.len ∧ e.bitsLeft src + 1 ≤ c.bitsLeft src) ∧
        (c.tagClean → e.tagClean) ∧ readsAs src fs e = some d := by
      cases f with
      | bit b =>
        obtain ⟨e, he, h⟩ := readsAs_bit_iff.1 h
        obtain ⟨hf, hi, ht⟩ := readBit_got_cursor he
        exact ⟨e, hf, fun hin => ⟨(hi hin).1, (hi hin).2.le⟩, ht, h⟩
      | byte v =>
        obtain ⟨e, he, h⟩ := readsAs_byte_iff.1 h
        obtain ⟨hf, hi, ht⟩ := readByte_got_cursor he
        exact ⟨e, hf, fun hin => ⟨(hi hin).1, by have := (hi hin).2; omega⟩, ht, h⟩
    obtain ⟨hforward', hinput', hclean'⟩ := ih h
    refine ⟨hforward.trans hforward', fun hin => ?_, fun ht => hclean' (hclean ht)⟩
    obtain ⟨he, hle⟩ := hinput hin
    obtain ⟨hd, hle'⟩ := hinput' he
    exact ⟨hd, by rw [List.length_cons]; omega⟩

/-! ### A shorter input -/

/-- The source `src'` has the bytes of `src`, as far as it goes. -/
structure Source.PrefixOf (src' src : Source) : Prop where
  len  : src'.len ≤ src.len
  byte : ∀ a < src'.len, src'.byte a = src.byte a

/-- A read of the shorter source goes as the read of the longer one, or it raises because its source is shorter; and a
value it answers leaves it within its source. -/
structure Read.CutOf {α : Type} (src' src : Source) (r' r : Read α) : Prop where
  same   : r' = r ∨ src'.len ≠ src.len ∧ ∃ e d, r' = .raised e d
  within : ∀ a d, r' = .got a d → d.inPtr ≤ src'.len

variable {src' : Source}

theorem Read.CutOf.got {α : Type} {a : α} (h : c.inPtr ≤ src'.len) : CutOf src' src (.got a c) (.got a c) :=
  ⟨.inl rfl, fun _ _ hd => by cases hd; exact h⟩

theorem Read.CutOf.raised {α : Type} (e : ErrorKind) :
    CutOf src' src (.raised e c : Read α) (.raised e c) := ⟨.inl rfl, nofun⟩

theorem Read.CutOf.bind {α β : Type} {r' r : Read α} {k' k : α → Cursor → Read β} (h : CutOf src' src r' r)
    (hk : ∀ a d, d.inPtr ≤ src'.len → CutOf src' src (k' a d) (k a d)) :
    CutOf src' src (r'.bind k') (r.bind k) := by
  obtain ⟨rfl | ⟨hlen, e, d, rfl⟩, hwithin⟩ := h
  · cases r' with
    | got a d => exact hk a d (hwithin a d rfl)
    | raised e d => exact .raised e
    | noByte a => exact ⟨.inl rfl, nofun⟩
  · exact ⟨.inr ⟨hlen, e, d, rfl⟩, nofun⟩

section
variable (hsrc : src'.PrefixOf src)
include hsrc

theorem readBit_cutOf (hc : c.inPtr ≤ src'.len) : Read.CutOf src' src (readBit src' c) (readBit src c) := by
  refine ⟨?_, fun b d h => ((readBit_got_cursor h).2.1 hc).1⟩
  by_cases hbits : c.bitcount = 0#3
  · by_cases hlen : c.inPtr = src'.len
    · by_cases hsame : src'.len = src.len
      · left; rw [readBit, readBit, if_pos hbits, if_pos hbits, if_pos hlen, if_pos (hlen.trans hsame)]
      · right; exact ⟨hsame, _, c, by rw [readBit, if_pos hbits, if_pos hlen]⟩
    · have hle := hsrc.len
      left
      rw [readBit, readBit, if_pos hbits, if_pos hbits, if_neg hlen, if_neg (by omega), hsrc.byte _ (by omega)]
  · left; rw [readBit_of_tag hbits, readBit_of_tag hbits]

theorem readByte_cutOf (hc : c.inPtr ≤ src'.len) : Read.CutOf src' src (readByte src' c) (readByte src c) := by
  refine ⟨?_, fun b d h => ((readByte_got_cursor h).2.1 hc).1⟩
  by_cases hlen : c.inPtr = src'.len
  · by_cases hsame : src'.len = src.len
    · left; rw [readByte, readByte, if_pos hlen, if_pos (hlen.trans hsame)]
    · right; exact ⟨hsame, _, c, by rw [readByte, if_pos hlen]⟩
  · have hle := hsrc.len
    left
    rw [readByte, readByte, if_neg hlen, if_neg (by omega), hsrc.byte _ (by omega)]

theorem readBits_cutOf {n acc : Nat} (hc : c.inPtr ≤ src'.len) :
    Read.CutOf src' src (readBits src' n acc c) (readBits src n acc c) := by
  induction n generalizing acc c with
  | zero => exact .got hc
  | succ n ih => exact (readBit_cutOf hsrc hc).bind fun b d hd => ih hd

theorem gammaLoop_cutOf {w fuel acc : Nat} (hc : c.inPtr ≤ src'.len) :
    Read.CutOf src' src (gammaLoop src' w fuel acc c) (gammaLoop src w fuel acc c) := by
  induction fuel generalizing acc c with
  | zero => exact .raised _
  | succ fuel ih =>
    refine (readBit_cutOf hsrc hc).bind fun b d hd => ?_
    split
    · exact .raised _
    · refine (readBit_cutOf hsrc hd).bind fun more e he => ?_
      split
      · exact ih he
      · exact .got he

theorem decodeInit_cutOf (hc : c.inPtr ≤ src'.len) : Read.CutOf src' src (decodeInit src' c) (decodeInit src c) :=
  (readByte_cutOf hsrc hc).bind fun _ _ hd => .got hd

theorem decodeGammaBranch_cutOf {w : Nat} {lwm : Bool} (hc : c.inPtr ≤ src'.len) :
    Read.CutOf src' src (decodeGammaBranch src' w lwm c) (decodeGammaBranch src w lwm c) := by
  refine (gammaLoop_cutOf hsrc hc).bind fun g d hd => ?_
  split
  · exact (gammaLoop_cutOf hsrc hd).bind fun _ _ he => .got he
  · exact (readByte_cutOf hsrc hd).bind fun _ _ he => (gammaLoop_cutOf hsrc he).bind fun _ _ hf => .got hf

theorem decodeShortBranch_cutOf (hc : c.inPtr ≤ src'.len) :
    Read.CutOf src' src (decodeShortBranch src' c) (decodeShortBranch src c) := by
  refine (readByte_cutOf hsrc hc).bind fun raw d hd => ?_
  split <;> exact .got hd

theorem decodeNibbleBranch_cutOf (hc : c.inPtr ≤ src'.len) :
    Read.CutOf src' src (decodeNibbleBranch src' c) (decodeNibbleBranch src c) := by
  refine (readBits_cutOf hsrc hc).bind fun v d hd => ?_
  split <;> exact .got hd

theorem decodeToken_cutOf {w : Nat} {lwm : Bool} (hc : c.inPtr ≤ src'.len) :
    Read.CutOf src' src (decodeToken src' w lwm c) (decodeToken src w lwm c) := by
  refine (readBit_cutOf hsrc hc).bind fun b1 c1 h1 => ?_
  split
  · exact (readByte_cutOf hsrc h1).bind fun _ _ hd => .got hd
  · refine (readBit_cutOf hsrc h1).bind fun b2 c2 h2 => ?_
    split
    · exact decodeGammaBranch_cutOf hsrc h2
    · refine (readBit_cutOf hsrc h2).bind fun b3 c3 h3 => ?_
      split
      · exact decodeShortBranch_cutOf hsrc h3
      · exact decodeNibbleBranch_cutOf hsrc h3

end

end Sys2Proof
end

section
/-! PROOFS. The bit reader on the core's state (R101, R104), and what the output assembler writes (R140 to R147). -/

namespace Sys2Proof.Machine

variable {s t u : State}

theorem setReader_self (s : State) : s.setReader s.rd = s := rfl

theorem source_len (s : State) : s.source.len = s.inLenQ := rfl

theorem source_byte_of_lt {a : Nat} (h : a < s.cfg.inCap) : s.source.byte a = some (s.inByte a) := if_pos h

theorem nextBit_of_tag (h : s.rd.bitcount ≠ 0#3) :
    nextBit s = .ok (s.rd.tag.getLsbD 7) (s.setReader ⟨s.rd.inPtr, s.rd.tag <<< 1, s.rd.bitcount - 1#3⟩) := by
  rw [nextBit, readBit_of_tag h, liftRead]

theorem nextBit_of_refill (h : s.rd.bitcount = 0#3) (hlen : s.rd.inPtr ≠ s.inLenQ) (hcap : s.rd.inPtr < s.cfg.inCap) :
    nextBit s = .ok ((s.inByte s.rd.inPtr).getLsbD 7)
      (s.setReader ⟨s.rd.inPtr + 1, s.inByte s.rd.inPtr <<< 1, 7#3⟩) := by
  rw [nextBit, readBit_of_refill h hlen (source_byte_of_lt hcap), liftRead]

theorem nextBit_of_end (h : s.rd.bitcount = 0#3) (hlen : s.rd.inPtr = s.inLenQ) :
    nextBit s = .raised (.truncatedInput s.rd.inPtr) s := by
  have hread : readBit s.source s.rd = .raised (.truncatedInput s.rd.inPtr) s.rd := by
    rw [readBit, if_pos h, if_pos (hlen.trans (source_len s).symm)]
  rw [nextBit, hread, liftRead, setReader_self]

/-- Settles O9: the three cases of `NextBit`. -/
theorem nextBitReadsTheTag : Obligations.NextBitReadsTheTag :=
  fun _ => ⟨nextBit_of_tag, nextBit_of_refill, nextBit_of_end⟩

theorem nextByte_of_input (hlen : s.rd.inPtr ≠ s.inLenQ) (hcap : s.rd.inPtr < s.cfg.inCap) :
    nextByte s = .ok (s.inByte s.rd.inPtr) (s.setReader { s.rd with inPtr := s.rd.inPtr + 1 }) := by
  rw [nextByte, readByte_of_input hlen (source_byte_of_lt hcap), liftRead]

theorem nextByte_of_end (hlen : s.rd.inPtr = s.inLenQ) : nextByte s = .raised (.truncatedInput s.rd.inPtr) s := by
  have hread : readByte s.source s.rd = .raised (.truncatedInput s.rd.inPtr) s.rd := by
    rw [readByte, if_pos (hlen.trans (source_len s).symm)]
  rw [nextByte, hread, liftRead, setReader_self]

/-- Settles O10: the two cases of `NextByte`. -/
theorem nextByteBypassesTheTag : Obligations.NextByteBypassesTheTag :=
  fun _ => ⟨nextByte_of_input, nextByte_of_end⟩

/-! ### Bytes appended -/

theorem Memory.writeAll_append (m : Memory) (a : Nat) (vs ws : List Byte) :
    m.writeAll a (vs ++ ws) = (m.writeAll a vs).writeAll (a + vs.length) ws := by
  induction vs generalizing m a with
  | nil => rfl
  | cons v vs ih => rw [List.cons_append, writeAll, writeAll, ih, List.length_cons, Nat.add_right_comm, Nat.add_assoc]

/-- A memory holds only the indices it held and those written. -/
theorem Memory.mem_writeAll {m : Memory} {a : Nat} {vs : List Byte} {c : Host.Cell} (h : c ∈ m.writeAll a vs) :
    c.1 < a + vs.length ∨ c ∈ m := by
  induction vs generalizing m a with
  | nil => exact .inr h
  | cons v vs ih =>
    rw [List.length_cons]
    rcases ih h with h | h
    · exact .inl (by omega)
    · rcases mem_write h with rfl | h
      · exact .inl (by change a < _; omega)
      · exact .inr h

/-- `t` is `s` with the bytes `vs` appended to `OUT`, within its capacity, and nothing else changed. -/
structure Appended (vs : List Byte) (s t : State) : Prop where
  only   : onlyOutput s t
  outLen : t.outLen = s.outLen + vs.length
  outMem : t.outMem = s.outMem.writeAll s.outLen vs
  room   : vs ≠ [] → t.outLen ≤ s.cfg.outCap

theorem Appended.nil (s : State) : Appended [] s s := ⟨rfl, rfl, rfl, fun h => absurd rfl h⟩

theorem Appended.storeOut {v : Byte} (h : s.outLen < s.cfg.outCap) : Appended [v] s (s.storeOut v) :=
  ⟨rfl, rfl, rfl, fun _ => h⟩

theorem onlyOutput_cfg (h : onlyOutput s t) : t.cfg = s.cfg := by rw [h]

theorem Appended.trans {vs ws : List Byte} (h : Appended vs s t) (h' : Appended ws t u) : Appended (vs ++ ws) s u where
  only   := onlyOutput_trans h.only h'.only
  outLen := by rw [h'.outLen, h.outLen, List.length_append, Nat.add_assoc]
  outMem := by rw [h'.outMem, h.outMem, h.outLen, Memory.writeAll_append]
  room   := by
    intro hne
    cases ws with
    | nil => rw [h'.outLen]; exact h.room (by simpa using hne)
    | cons w ws => rw [← onlyOutput_cfg h.only]; exact h'.room (List.cons_ne_nil _ _)

theorem Appended.outLen_le {vs : List Byte} (h : Appended vs s t) : s.outLen ≤ t.outLen := by
  rw [h.outLen]; exact Nat.le_add_right _ _

/-- Nothing is touched but the bytes appended. -/
theorem Appended.sameOutside {vs : List Byte} (h : Appended vs s t) : sameOutside s.outLen t.outLen s t := by
  intro a ha
  rw [h.outLen] at ha
  rw [h.outMem, Memory.read_writeAll_outside _ _ _ _ ha]

/-- The bytes of `OUT` that a copy of `n` bytes from `off` back writes, one after the other (R143). -/
def State.copyOut (off : Nat) : Nat → State → State
  | 0, s => s
  | n + 1, s => copyOut off n (s.storeOut (s.outByte (s.outLen - off)))

/-- A copy of one more byte, at its end. -/
theorem copyOut_succ (off n : Nat) (s : State) :
    s.copyOut off (n + 1) =
      (s.copyOut off n).storeOut ((s.copyOut off n).outByte ((s.copyOut off n).outLen - off)) := by
  induction n generalizing s with
  | zero => rfl
  | succ n ih => rw [State.copyOut, ih]; rfl

@[simp] theorem copyOut_outLen (off n : Nat) (s : State) : (s.copyOut off n).outLen = s.outLen + n := by
  induction n with
  | zero => rfl
  | succ n ih => rw [copyOut_succ, State.storeOut_outLen, ih, Nat.add_assoc]

theorem copyOut_onlyOutput (off n : Nat) (s : State) : onlyOutput s (s.copyOut off n) := by
  induction n with
  | zero => exact onlyOutput_refl s
  | succ n ih => rw [copyOut_succ]; exact onlyOutput_trans ih (onlyOutput_storeOut _ _)

theorem outByte_of_read {a : Nat} {v : Byte} (h : s.outMem.read a = some v) : s.outByte a = v := by
  rw [State.outByte, h, Option.getD_some]

theorem outByte_congr {a : Nat} (h : t.outMem.read a = s.outMem.read a) : t.outByte a = s.outByte a := by
  rw [State.outByte, State.outByte, h]

/-- A copy repeats the last `off` bytes with period `off` (R144): the byte `off` back is an old one in the first period,
and one copied before after it. -/
theorem copyOut_copied {off : Nat} (n : Nat) (hoff : 1 ≤ off) (hle : off ≤ s.outLen) :
    copied off n s (s.copyOut off n) := by
  refine ⟨copyOut_outLen off n s, ?_⟩
  induction n with
  | zero => exact ⟨nofun, fun _ _ => rfl⟩
  | succ n ih =>
    obtain ⟨hcopied, hsame⟩ := ih
    have hbyte : (s.copyOut off n).outByte (s.outLen + n - off) = s.outByte (s.outLen - off + n % off) := by
      by_cases hn : n < off
      · rw [Nat.mod_eq_of_lt hn, ← Nat.sub_add_comm hle]
        exact outByte_congr (hsame _ (by omega))
      · rw [Nat.mod_eq_sub_mod (by omega), show s.outLen + n - off = s.outLen + (n - off) by omega]
        exact outByte_of_read (hcopied _ (by omega))
    rw [copyOut_succ, copyOut_outLen, hbyte]
    refine ⟨fun i hi => ?_, fun a ha => ?_⟩
    · rw [State.storeOut_outMem, copyOut_outLen]
      by_cases hin : i = n
      · rw [hin, Memory.read_write_same]
      · rw [Memory.read_write_other _ _ (by omega)]
        exact hcopied i (by omega)
    · rw [State.storeOut_outMem, copyOut_outLen, Memory.read_write_other _ _ (by omega)]
      exact hsame a (by omega)

/-- One pass of the copy loop in a full memory reads its byte and raises (R146). -/
theorem copyByte_of_full {off : Nat} (hoff : 1 ≤ off) (hle : off ≤ s.outLen) (h : s.outLen = s.cfg.outCap) :
    copyByte off s = .raised (.outputOverflow s.outLen) s := by
  rw [copyByte, readOutByte, if_pos (by omega), Res.ok_bind, append_of_full h]

/-- The copy loop in a memory with room for its bytes. -/
theorem copyLoop_of_room {off n : Nat} (h : s.outLen + n ≤ s.cfg.outCap) :
    copyLoop off n s = .ok () (s.copyOut off n) := by
  induction n generalizing s with
  | zero => rfl
  | succ n ih =>
    rw [copyLoop, copyByte_of_room (by omega), Res.ok_bind, State.copyOut, ih]
    change s.outLen + 1 + n ≤ s.cfg.outCap
    omega

/-- The copy loop in a memory that its bytes do not fit fills the memory and raises (R146). -/
theorem copyLoop_of_overflow {off n : Nat} (hoff : 1 ≤ off) (hle : off ≤ s.outLen) (hcap : s.outLen ≤ s.cfg.outCap)
    (h : s.cfg.outCap < s.outLen + n) :
    copyLoop off n s = .raised (.outputOverflow s.cfg.outCap) (s.copyOut off (s.cfg.outCap - s.outLen)) := by
  induction n generalizing s with
  | zero => omega
  | succ n ih =>
    by_cases hfull : s.outLen = s.cfg.outCap
    · rw [copyLoop, copyByte_of_full hoff hle hfull, hfull, Nat.sub_self]
      rfl
    · obtain ⟨k, hk⟩ : ∃ k, s.cfg.outCap - s.outLen = k + 1 := ⟨s.cfg.outCap - s.outLen - 1, by omega⟩
      rw [copyLoop, copyByte_of_room (by omega), Res.ok_bind, hk, State.copyOut, ih]
      · rw [State.storeOut_cfg, State.storeOut_outLen, show s.cfg.outCap - (s.outLen + 1) = k by omega]
      all_goals simp only [State.storeOut_cfg, State.storeOut_outLen]; omega

/-- Settles O42: the copy loop in a memory with room, and its bytes by `copyOut_copied`. -/
theorem overlappingCopyIsPeriodic : Obligations.OverlappingCopyIsPeriodic := by
  intro off len s hoff hle hroom
  have hvalid : ¬ badOffset off true s := by simp only [badOffset, Bool.true_eq_false, false_or]; omega
  have hcopied := copyOut_copied len hoff hle
  refine ⟨s.copyOut off len, by rw [backRef, if_neg hvalid, copyLoop_of_room hroom], hcopied, ?_⟩
  rintro rfl i hi
  obtain ⟨-, hbytes, -⟩ := hcopied
  rw [outByte_of_read (hbytes i hi), Nat.mod_one, Nat.add_zero]

/-- A copy loop that completes has appended its bytes. -/
theorem copyLoop_ok_appended {off n : Nat} {v : Unit} (h : copyLoop off n s = .ok v t) :
    ∃ vs, vs.length = n ∧ Appended vs s t := by
  induction n generalizing s with
  | zero => cases h; exact ⟨[], rfl, .nil _⟩
  | succ n ih =>
    obtain ⟨_, s', h1, h2⟩ := Res.bind_ok h
    obtain ⟨hroom, rfl⟩ := copyByte_ok h1
    obtain ⟨vs, hlen, hvs⟩ := ih h2
    exact ⟨_ :: vs, by rw [List.length_cons, hlen], (Appended.storeOut hroom).trans hvs⟩

/-- A copy loop that raises has appended the bytes before it, fewer than all. -/
theorem copyLoop_raised_appended {off n : Nat} {e : ErrorKind} (h : copyLoop off n s = .raised e t) :
    ∃ vs, vs.length < n ∧ Appended vs s t := by
  induction n generalizing s with
  | zero => cases h
  | succ n ih =>
    rcases Res.bind_raised h with h | ⟨_, s', h1, h2⟩
    · obtain ⟨-, -, rfl⟩ := copyByte_raised h
      exact ⟨[], n.succ_pos, .nil _⟩
    · obtain ⟨hroom, rfl⟩ := copyByte_ok h1
      obtain ⟨vs, hlen, hvs⟩ := ih h2
      exact ⟨_ :: vs, by rw [List.length_cons]; omega, (Appended.storeOut hroom).trans hvs⟩

/-- However `Append` ends without a fault, at most its byte is appended. -/
theorem append_appended {v : Byte} {e : ErrorKind} (h : append v s = .ok () t ∨ append v s = .raised e t) :
    ∃ vs, vs.length ≤ 1 ∧ Appended vs s t := by
  rcases h with h | h
  · obtain ⟨hroom, rfl⟩ := append_ok h
    exact ⟨[v], le_rfl, .storeOut hroom⟩
  · obtain ⟨-, -, rfl⟩ := append_raised h
    exact ⟨[], Nat.zero_le _, .nil _⟩

/-- However `BackRef` ends without a fault, at most its bytes are appended. -/
theorem backRef_appended {off n : Nat} {valid : Bool} {e : ErrorKind}
    (h : backRef off n valid s = .ok () t ∨ backRef off n valid s = .raised e t) :
    ∃ vs, vs.length ≤ n ∧ Appended vs s t := by
  rcases h with h | h
  · obtain ⟨-, -, -, h⟩ := backRef_ok h
    obtain ⟨vs, hlen, hvs⟩ := copyLoop_ok_appended h
    exact ⟨vs, hlen.le, hvs⟩
  · unfold backRef at h
    split at h
    · cases h
      exact ⟨[], Nat.zero_le _, .nil s⟩
    · obtain ⟨vs, hlen, hvs⟩ := copyLoop_raised_appended h
      exact ⟨vs, hlen.le, hvs⟩

end Sys2Proof.Machine
end

section
/-! PROOFS. What each token does (R162 to R186): its result where it completes, where it overflows, where its offset is
bad, and its frame. Every token but `END` is one output operation and then its own register writes, so each fact is
proved once, for the tokens that append one byte or for the tokens that copy. -/

namespace Sys2Proof.Machine

variable {s t u : State} {i : Instr}

/-- The byte of a token that appends one given byte. -/
def appendedByte : Instr → Option Byte
  | .init l => some l
  | .lit l => some l
  | .gmatch _ _ _ => none
  | .repmatch _ => none
  | .smatch _ => none
  | .endMark _ => none
  | .nmatch _ => none
  | .zlit => some 0#8

/-- The valid bit that a back-reference token gives to `BackRef`: only `REPMATCH` has no offset of its own (R176). -/
def copyValid (s : State) : Instr → Bool
  | .init _ => true
  | .lit _ => true
  | .gmatch _ _ _ => true
  | .repmatch _ => s.lastOffsetValid
  | .smatch _ => true
  | .endMark _ => true
  | .nmatch _ => true
  | .zlit => true

/-- The register writes of a token after its output; `s` is the state it began in. -/
def tokenWrites (s : State) : Instr → State → State
  | .init _ => id
  | .lit _ => State.setLwm false
  | .gmatch g lo _ => State.commitMatch (gmatchOff s.lwm g lo)
  | .repmatch _ => State.setLwm true
  | .smatch raw => State.commitMatch (shortOff raw)
  | .endMark _ => id
  | .nmatch _ => State.setLwm false
  | .zlit => State.setLwm false

theorem exec_of_appendedByte {v : Byte} (h : appendedByte i = some v) :
    exec i s = finishToken (tokenWrites s i) (append v s) := by
  cases i <;> cases h <;> rfl

theorem exec_of_copyOf {off len : Nat} (h : copyOf i s = some (off, len)) :
    exec i s = finishToken (tokenWrites s i) (backRef off len (copyValid s i) s) := by
  cases i <;> cases h <;> rfl

theorem exec_endMark (raw : Byte) (s : State) : exec (.endMark raw) s = .next s.endDecode := rfl

/-- Every token is `END`, appends one given byte, or copies. -/
theorem instr_cases (i : Instr) (s : State) :
    (∃ raw, i = .endMark raw) ∨ (∃ v, appendedByte i = some v) ∨ ∃ off len, copyOf i s = some (off, len) := by
  cases i with
  | endMark raw => exact .inl ⟨raw, rfl⟩
  | init l => exact .inr (.inl ⟨l, rfl⟩)
  | lit l => exact .inr (.inl ⟨l, rfl⟩)
  | zlit => exact .inr (.inl ⟨_, rfl⟩)
  | gmatch g lo n => exact .inr (.inr ⟨_, _, rfl⟩)
  | repmatch n => exact .inr (.inr ⟨_, _, rfl⟩)
  | smatch raw => exact .inr (.inr ⟨_, _, rfl⟩)
  | nmatch nib => exact .inr (.inr ⟨_, _, rfl⟩)

/-- The tokens that append one given byte, by name. -/
theorem exists_appendedByte (h : (∃ l, i = .init l) ∨ (∃ l, i = .lit l) ∨ i = .zlit) :
    ∃ v, appendedByte i = some v := by
  rcases h with ⟨l, rfl⟩ | ⟨l, rfl⟩ | rfl <;> exact ⟨_, rfl⟩

/-- `t` is `u` but for `last_offset`, its valid bit and `lwm`. -/
abbrev flagsOnly (u t : State) : Prop :=
  t = { u with lastOffset := t.lastOffset, lastOffsetValid := t.lastOffsetValid, lwm := t.lwm }

theorem tokenWrites_flagsOnly (s : State) (i : Instr) (u : State) : flagsOnly u (tokenWrites s i u) := by
  cases i <;> rfl

/-- `lwm` after the writes of a token that is not `END` (R25). -/
theorem tokenWrites_lwm (hend : ∀ raw, i ≠ .endMark raw) (h : u.lwm = s.lwm) :
    (tokenWrites s i u).lwm = i.lwmAfter s.lwm := by
  cases i with
  | init l => exact h
  | endMark raw => exact absurd rfl (hend raw)
  | _ => rfl

/-- A completed token goes on at the top of the loop. -/
theorem goesOn_of_completed (h : onlyOutput s u) (i : Instr) :
    goesOn s ((tokenWrites s i u).leaveToken .b1) := by
  rw [tokenWrites_flagsOnly s i u, h]
  exact ⟨rfl, rfl, rfl, rfl, rfl, rfl, rfl, rfl, rfl, rfl, rfl⟩

theorem tokenWrites_output (s : State) (i : Instr) (u : State) :
    sameOutput u ((tokenWrites s i u).leaveToken .b1) := by
  rw [tokenWrites_flagsOnly s i u]
  exact ⟨rfl, rfl⟩

/-! ### Completion -/

/-- A token that appends one given byte, in a memory with room. -/
theorem exec_append_of_room {v : Byte} (h : appendedByte i = some v) (hroom : s.outLen < s.cfg.outCap) :
    ∃ t, exec i s = .next t ∧ appended v s t ∧ t.lwm = i.lwmAfter s.lwm ∧ sameOffset s t ∧ goesOn s t := by
  refine ⟨(tokenWrites s i (s.storeOut v)).leaveToken .b1, ?_, ?_, ?_, ?_,
    goesOn_of_completed (onlyOutput_storeOut v s) i⟩
  · rw [exec_of_appendedByte h, append_of_room hroom, finishToken]
  · obtain ⟨hlen, hmem⟩ := tokenWrites_output s i (s.storeOut v)
    rw [appended, hlen, hmem]
    exact ⟨rfl, Memory.read_write_same _ _ _, fun a ha => by
      rw [hmem]; exact Memory.read_write_other _ _ (by omega)⟩
  · exact tokenWrites_lwm (by rintro raw rfl; cases h) rfl
  · cases i <;> cases h <;> exact ⟨rfl, rfl⟩

/-- Settles O13: `INIT` is a token that appends one given byte. -/
theorem initAppendsItsByte : Obligations.InitAppendsItsByte := fun _ _ hroom => exec_append_of_room rfl hroom

/-- Settles O14: `LIT` is a token that appends one given byte. -/
theorem litAppendsItsByte : Obligations.LitAppendsItsByte := fun _ _ hroom => exec_append_of_room rfl hroom

/-- Settles O15: `ZLIT` is a token that appends one given byte. -/
theorem zlitAppendsZero : Obligations.ZlitAppendsZero := fun _ hroom => exec_append_of_room rfl hroom

theorem not_badOffset {off : Nat} (hoff : 1 ≤ off) (hle : off ≤ s.outLen) : ¬ badOffset off true s := by
  simp only [badOffset, Bool.true_eq_false, false_or]
  omega

/-- A back-reference token with a valid offset and room ends in its writes after its copy. -/
theorem exec_copy_of_room {off len : Nat} (h : copyOf i s = some (off, len)) (hvalid : copyValid s i = true)
    (hoff : 1 ≤ off) (hle : off ≤ s.outLen) (hroom : s.outLen + len ≤ s.cfg.outCap) :
    exec i s = .next ((tokenWrites s i (s.copyOut off len)).leaveToken .b1) := by
  rw [exec_of_copyOf h, hvalid, backRef, if_neg (not_badOffset hoff hle), copyLoop_of_room hroom, finishToken]

/-- The bytes of such a token, and that it goes on. -/
theorem copied_of_completed {off : Nat} (len : Nat) (i : Instr) (hoff : 1 ≤ off) (hle : off ≤ s.outLen) :
    copied off len s ((tokenWrites s i (s.copyOut off len)).leaveToken .b1) ∧
    goesOn s ((tokenWrites s i (s.copyOut off len)).leaveToken .b1) := by
  refine ⟨?_, goesOn_of_completed (copyOut_onlyOutput off len s) i⟩
  obtain ⟨hlen, hmem⟩ := tokenWrites_output s i (s.copyOut off len)
  obtain ⟨hlen', hbytes, hsame⟩ := copyOut_copied len hoff hle
  exact ⟨hlen.trans hlen', fun j hj => by rw [hmem]; exact hbytes j hj, fun a ha => by rw [hmem]; exact hsame a ha⟩

/-- Settles O16: the copy, then `commitMatch`. -/
theorem gmatchCopies : Obligations.GmatchCopies := by
  rintro g lo n s off len rfl rfl hoff hle hroom
  obtain ⟨hcopied, hgoes⟩ := copied_of_completed (n + bump s.cfg (gmatchOff s.lwm g lo)) (.gmatch g lo n) hoff hle
  exact ⟨_, exec_copy_of_room rfl rfl hoff hle hroom, hcopied, rfl, rfl, rfl, hgoes⟩

theorem copyOut_sameOffset (off n : Nat) (s : State) : sameOffset s (s.copyOut off n) :=
  (onlyOutput_keeps_registers (copyOut_onlyOutput off n s)).1

/-- Settles O17: the copy from `last_offset`, then `lwm`. -/
theorem repmatchCopies : Obligations.RepmatchCopies := by
  intro n s hvalid hoff hle hroom
  obtain ⟨hcopied, hgoes⟩ := copied_of_completed n (.repmatch n) hoff hle
  exact ⟨_, exec_copy_of_room rfl hvalid hoff hle hroom, hcopied, copyOut_sameOffset _ n s, rfl, hgoes⟩

/-- Settles O18: the copy, then `commitMatch`. -/
theorem smatchCopies : Obligations.SmatchCopies := by
  intro raw s hoff hle hroom
  obtain ⟨hcopied, hgoes⟩ := copied_of_completed (shortLen raw) (.smatch raw) hoff hle
  exact ⟨_, exec_copy_of_room rfl rfl hoff hle hroom, hcopied, rfl, rfl, rfl, hgoes⟩

/-- A copy of one byte appends it. -/
theorem appended_of_copied_one {off : Nat} (h : copied off 1 s t) : appended (s.outByte (s.outLen - off)) s t := by
  obtain ⟨hlen, hbytes, hsame⟩ := h
  exact ⟨hlen, by simpa using hbytes 0 Nat.one_pos, hsame⟩

/-- Settles O19: the copy of one byte, then `lwm`. -/
theorem nmatchCopiesOneByte : Obligations.NmatchCopiesOneByte := by
  intro nib s hnib hle hroom
  have hoff : 1 ≤ nibbleOff nib := Nat.one_le_iff_ne_zero.2 fun h => hnib (BitVec.eq_of_toNat_eq h)
  obtain ⟨hcopied, hgoes⟩ := copied_of_completed 1 (.nmatch nib) hoff hle
  exact ⟨_, exec_copy_of_room rfl rfl hoff hle hroom, appended_of_copied_one hcopied, rfl,
    copyOut_sameOffset (nibbleOff nib) 1 s, hgoes⟩

/-- Settles O20: the writes of `endDecode`. -/
theorem endMarkEndsTheDecode : Obligations.EndMarkEndsTheDecode := fun raw s =>
  ⟨s.endDecode, exec_endMark raw s, rfl, rfl, rfl, rfl, rfl, rfl, rfl, rfl, ⟨rfl, rfl⟩, rfl, rfl, rfl, rfl, rfl, rfl⟩

/-! ### Errors -/

/-- An error taken after output writes only leaves the registers of the decode and the setup. -/
theorem takeError_frame (e : ErrorKind) (h : onlyOutput s u) :
    stopped (u.takeError e) ∧ (u.takeError e).lwm = s.lwm ∧ sameOffset s (u.takeError e) ∧
    (u.takeError e).rd = s.rd ∧ (u.takeError e).done = s.done ∧ sameSetup s (u.takeError e) := by
  rw [h]
  exact ⟨rfl, rfl, ⟨rfl, rfl⟩, rfl, rfl, rfl, rfl, rfl, rfl, rfl⟩

/-- Settles O21: `append` in a full memory raises with nothing written. -/
theorem appendingTokensOverflow : Obligations.AppendingTokensOverflow := by
  intro i s hi hfull
  obtain ⟨v, hv⟩ := exists_appendedByte hi
  obtain ⟨hstop, hlwm, hoffset, hrd, hdone, hsetup⟩ := takeError_frame (.outputOverflow s.outLen) (onlyOutput_refl s)
  refine ⟨_, ?_, rfl, hstop, hlwm, hoffset, ⟨rfl, rfl⟩, hrd, hdone, hsetup⟩
  rw [exec_of_appendedByte hv, append_of_full hfull, finishToken]

/-- Settles O22: the entry check of `BackRef` raises with nothing written. -/
theorem badOffsetWritesNothing : Obligations.BadOffsetWritesNothing := by
  intro i s off len hcopy hbad
  have hcheck : badOffset off (copyValid s i) s := by
    rcases hbad with h | h | ⟨⟨n, rfl⟩, h⟩
    · exact .inr (.inl h)
    · exact .inr (.inr h)
    · exact .inl h
  obtain ⟨hstop, hlwm, hoffset, hrd, hdone, hsetup⟩ := takeError_frame (.invalidBackRef off s.outLen)
    (onlyOutput_refl s)
  refine ⟨_, ?_, rfl, hstop, hlwm, hoffset, ⟨rfl, rfl⟩, hrd, hdone, hsetup⟩
  rw [exec_of_copyOf hcopy, backRef, if_pos hcheck, finishToken]

theorem copyValid_of_repmatch (h : (∃ n, i = .repmatch n) → s.lastOffsetValid = true) : copyValid s i = true := by
  cases i with
  | repmatch n => exact h ⟨n, rfl⟩
  | _ => rfl

/-- Settles O23: the copy loop fills the memory and raises. -/
theorem overflowingCopyKeepsItsBytes : Obligations.OverflowingCopyKeepsItsBytes := by
  intro i s off len hcopy hoff hle hvalid hcap hover
  obtain ⟨hstop, hlwm, hoffset, hrd, hdone, hsetup⟩ := takeError_frame (.outputOverflow s.cfg.outCap)
    (copyOut_onlyOutput off (s.cfg.outCap - s.outLen) s)
  refine ⟨_, ?_, rfl, hstop, ?_, copyOut_copied _ hoff hle, hlwm, hoffset, hrd, hdone, hsetup⟩
  · rw [exec_of_copyOf hcopy, copyValid_of_repmatch hvalid, backRef, if_neg (not_badOffset hoff hle),
      copyLoop_of_overflow hoff hle hcap hover, finishToken]
  · rw [State.takeError_outLen, copyOut_outLen]
    omega

/-! ### Every path -/

/-- How many bytes a token appends at most. -/
def tokenLen (i : Instr) (s : State) : Nat :=
  match copyOf i s with
  | some (_, len) => len
  | none => 1

/-- How a token that is not `END` can end: at most its bytes appended, then its writes, or an error. -/
theorem exec_next_appended (hend : ∀ raw, i ≠ .endMark raw) (h : exec i s = .next t) :
    ∃ u vs, vs.length ≤ tokenLen i s ∧ Appended vs s u ∧
      (t = (tokenWrites s i u).leaveToken .b1 ∨ ∃ e, t = u.takeError e) := by
  rcases instr_cases i s with ⟨raw, rfl⟩ | ⟨v, hv⟩ | ⟨off, len, hcopy⟩
  · exact absurd rfl (hend raw)
  · have hlen : tokenLen i s = 1 := by cases i <;> cases hv <;> rfl
    rw [exec_of_appendedByte hv] at h
    rw [hlen]
    rcases finishToken_next h with ⟨u, hu, rfl⟩ | ⟨e, u, hu, rfl⟩
    · obtain ⟨vs, hvs, happ⟩ := append_appended (e := .outputOverflow 0) (.inl hu)
      exact ⟨u, vs, hvs, happ, .inl rfl⟩
    · obtain ⟨vs, hvs, happ⟩ := append_appended (.inr hu)
      exact ⟨u, vs, hvs, happ, .inr ⟨e, rfl⟩⟩
  · have hlen : tokenLen i s = len := by rw [tokenLen, hcopy]
    rw [exec_of_copyOf hcopy] at h
    rw [hlen]
    rcases finishToken_next h with ⟨u, hu, rfl⟩ | ⟨e, u, hu, rfl⟩
    · obtain ⟨vs, hvs, happ⟩ := backRef_appended (e := .outputOverflow 0) (.inl hu)
      exact ⟨u, vs, hvs, happ, .inl rfl⟩
    · obtain ⟨vs, hvs, happ⟩ := backRef_appended (.inr hu)
      exact ⟨u, vs, hvs, happ, .inr ⟨e, rfl⟩⟩

/-- What no token but `END` writes, and where it writes `OUT`: the frame of every path. -/
structure TokenFrame (vs : List Byte) (s t : State) : Prop where
  setup  : sameSetup s t
  reader : t.rd = s.rd
  done   : t.done = s.done
  outLen : t.outLen = s.outLen + vs.length
  outMem : t.outMem = s.outMem.writeAll s.outLen vs
  room   : vs ≠ [] → t.outLen ≤ s.cfg.outCap

theorem Appended.tokenFrame {vs : List Byte} (h : Appended vs s u)
    (ht : t = (tokenWrites s i u).leaveToken .b1 ∨ ∃ e, t = u.takeError e) : TokenFrame vs s t := by
  obtain ⟨honly, hlen, hmem, hroom⟩ := h
  rcases ht with rfl | ⟨e, rfl⟩
  · obtain ⟨-, -, -, -, hdone, hrd, hsetup⟩ := goesOn_of_completed honly i
    obtain ⟨hlen', hmem'⟩ := tokenWrites_output s i u
    exact ⟨hsetup, hrd, hdone, hlen'.trans hlen, hmem'.trans hmem, fun hne => hlen'.trans_le (hroom hne)⟩
  · obtain ⟨-, -, -, hrd, hdone, hsetup⟩ := takeError_frame e honly
    exact ⟨hsetup, hrd, hdone, hlen, hmem, hroom⟩

theorem TokenFrame.sameOutside {vs : List Byte} {n : Nat} (h : TokenFrame vs s t) (hn : vs.length ≤ n) :
    sameOutside s.outLen (s.outLen + n) s t := by
  intro a ha
  rw [h.outMem, Memory.read_writeAll_outside _ _ _ _ (by omega)]

/-- Settles O24: the frame of every path, at the one byte that such a token appends at most. -/
theorem appendingTokensFrame : Obligations.AppendingTokensFrame := by
  intro i s t hi h
  obtain ⟨v, hv⟩ := exists_appendedByte hi
  have hlen : tokenLen i s = 1 := by cases i <;> cases hv <;> rfl
  obtain ⟨u, vs, hvs, happ, ht⟩ := exec_next_appended (by rintro raw rfl; cases hv) h
  have hframe := happ.tokenFrame ht
  obtain ⟨hoffset, hlwm, -⟩ := onlyOutput_keeps_registers happ.only
  refine ⟨hframe.sameOutside (hlen ▸ hvs), ?_, hframe.done, hframe.reader, hframe.setup, ?_⟩
  · rcases ht with rfl | ⟨e, rfl⟩
    · cases i <;> cases hv <;> exact hoffset
    · exact hoffset
  · rintro ⟨l, rfl⟩
    rcases ht with rfl | ⟨e, rfl⟩ <;> exact hlwm

/-- Settles O25: the frame of every path, at the `len` bytes that the token copies at most. -/
theorem copyingTokensFrame : Obligations.CopyingTokensFrame := by
  intro i s t off len hcopy h
  have hlen : tokenLen i s = len := by rw [tokenLen, hcopy]
  obtain ⟨u, vs, hvs, happ, ht⟩ := exec_next_appended (by rintro raw rfl; cases hcopy) h
  rw [hlen] at hvs
  have hframe := happ.tokenFrame ht
  obtain ⟨hoffset, -⟩ := onlyOutput_keeps_registers happ.only
  refine ⟨hframe.sameOutside hvs, by rw [hframe.outLen]; omega, hframe.done, hframe.reader, hframe.setup, ?_⟩
  rintro (⟨n, rfl⟩ | ⟨nib, rfl⟩) <;> rcases ht with rfl | ⟨e, rfl⟩ <;> exact hoffset

/-- Settles O26: the writes of a completed token set `lwm`, and an error leaves it. -/
theorem lwmHasExactlyItsWriters : Obligations.LwmHasExactlyItsWriters := by
  intro i s t h
  by_cases hend : ∃ raw, i = .endMark raw
  · obtain ⟨raw, rfl⟩ := hend
    cases h
    exact ⟨fun _ => rfl, fun _ hne => absurd rfl (hne raw)⟩
  · obtain ⟨u, vs, -, happ, ht⟩ := exec_next_appended (fun raw hi => hend ⟨raw, hi⟩) h
    obtain ⟨-, hlwm, -⟩ := onlyOutput_keeps_registers happ.only
    rcases ht with rfl | ⟨e, rfl⟩
    · exact ⟨fun _ => tokenWrites_lwm (fun raw hi => hend ⟨raw, hi⟩) hlwm, nofun⟩
    · exact ⟨fun h => absurd (show Fsm.stop = .b1 from h.resolve_right hend) nofun, fun _ _ => hlwm⟩

end Sys2Proof.Machine
end

section
/-! PROOFS. The host's side: resets, starts and refusals (R260 to R263), the two stable control states (R202, R219), the
report of a lenient error (R234), what the host reads and writes (R53, R65), and the checks around the core (R73). -/

namespace Sys2Proof.Machine

variable {s t : State}

/-! ### Ports -/

theorem step_of_quiet (h : portsQuiet s) : step s = coreStep s := underPorts_of_quiet coreStep h

theorem microMachine_of_quiet (h : portsQuiet s) : microMachine s = microStep s := underPorts_of_quiet microStep h

theorem underPorts_of_reset {core : State → Host.Outcome State Fault Refusal} (hr : s.ports.rst = true)
    (hs : s.ports.start = false) : underPorts core s = .next s.applyReset := by
  simp [underPorts, hostControl, hr, hs]

theorem underPorts_of_resetWithStart {core : State → Host.Outcome State Fault Refusal} (hr : s.ports.rst = true)
    (hs : s.ports.start = true) : underPorts core s = .refused .resetWithStart := by
  simp [underPorts, hostControl, hr, hs]

theorem underPorts_of_start {core : State → Host.Outcome State Fault Refusal} (hr : s.ports.rst = false)
    (hs : s.ports.start = true) (hb : s.status ≠ .busy) : underPorts core s = startDecode s := by
  simp [underPorts, hostControl, hr, hs, hb]

theorem outAfterReset_of_not_busy (h : s.status ≠ .busy) : outAfterReset s = s.outMem := if_neg h

/-- Settles O33: the writes of `applyReset`. -/
theorem resetSetsEveryRegister : Obligations.ResetSetsEveryRegister := fun s hr hs =>
  ⟨s.applyReset, underPorts_of_reset hr hs, rfl, rfl, rfl, rfl, rfl, rfl, rfl, rfl, rfl, rfl, rfl, rfl, rfl, rfl, rfl,
    outAfterReset_of_not_busy⟩

theorem startDecode_of_le (h : s.ports.inLen ≤ s.cfg.inCap) : startDecode s = .next s.beginDecode :=
  if_neg (Nat.not_lt.2 h)

/-- Settles O34: the writes of `beginDecode`. -/
theorem startSetsThePerDecodeState : Obligations.StartSetsThePerDecodeState := fun s hr hs hb hlen =>
  ⟨s.beginDecode, (underPorts_of_start hr hs hb).trans (startDecode_of_le hlen), rfl, rfl, rfl, rfl, rfl, rfl, rfl, rfl,
    rfl, rfl, rfl, rfl, rfl, rfl, rfl, rfl⟩

/-- Settles O35: the two refusals. -/
theorem meaninglessHostStepsAreRefused : Obligations.MeaninglessHostStepsAreRefused :=
  ⟨fun _ hr hs hb hlen => (underPorts_of_start hr hs hb).trans (if_pos hlen),
    fun _ hr hs => underPorts_of_resetWithStart hr hs⟩

theorem coreStep_of_idle_or_stop (h : s.fsm = .idle ∨ s.fsm = .stop) : coreStep s = .next s := by
  rcases h with h | h <;> rw [coreStep, h]

theorem microStep_of_idle_or_stop (h : s.fsm = .idle ∨ s.fsm = .stop) : microStep s = .next s := by
  rcases h with h | h <;> rw [microStep, microRes, h, settle]

/-- Settles O37: neither core transition does anything there. -/
theorem idleAndStopAreStable : Obligations.IdleAndStopAreStable := fun _ hlow hf =>
  ⟨(step_of_quiet (portsQuiet_of_low hlow)).trans (coreStep_of_idle_or_stop hf),
    (microMachine_of_quiet (portsQuiet_of_low hlow)).trans (microStep_of_idle_or_stop hf)⟩

/-! ### Errors -/

/-- A run from a state that a transition leaves as it is. -/
theorem iterate_of_stable {f : State → Host.Outcome State Fault Refusal} (h : f s = .next s) (n : Nat) :
    iterate f n s = .next s := by
  induction n with
  | zero => rfl
  | succ n ih => rw [iterate_succ h, ih]

/-- Settles O28: the status is DONE, so R53 gives the output. -/
theorem lenientErrorKeepsTheOutput : Obligations.LenientErrorKeepsTheOutput := by
  refine ⟨errCodeOf_codesOfTheTable, fun e s hlenient => ?_⟩
  have hstatus : (s.takeError e).status = .done := by rw [State.takeError_status, hlenient]; rfl
  have hrecovered : (s.takeError e).recovered = true := by rw [State.takeError_recovered, hlenient]; rfl
  exact ⟨hstatus, rfl, hrecovered, if_pos hstatus⟩

/-- Settles O29: the writes of `takeError`, and that `S_STOP` is stable. -/
theorem errorStopsTheDecodeInPlace : Obligations.ErrorStopsTheDecodeInPlace := by
  refine ⟨errCodeOf_codesOfTheTable, ?_⟩
  rintro e s t rfl
  refine ⟨rfl, rfl, ⟨rfl, rfl⟩, ⟨rfl, rfl⟩, rfl, rfl, rfl, fun h => ?_, fun h => ?_, fun hlow n => ?_⟩
  · exact ⟨takeError_status_of_strict h, rfl, takeError_recovered_of_strict h⟩
  · obtain ⟨hstatus, herr, hrecovered, -⟩ := lenientErrorKeepsTheOutput.2 e s h
    exact ⟨hstatus, herr, hrecovered⟩
  · obtain ⟨hstep, hmicro⟩ := idleAndStopAreStable (s.takeError e) hlow (.inr rfl)
    exact ⟨iterate_of_stable hstep n, iterate_of_stable hmicro n⟩

/-- The control state of a recorded error: `S_STOP`. -/
theorem Inv.stopped_of_errCode (h : Inv s) (herr : s.errCode ≠ .none) : stopped s := by
  obtain ⟨-, hstop, -, -, hended, -, -⟩ := h.status
  exact hstop.2 (hended herr)

/-- Settles O31: the state with the error is stopped, and a stopped core is stable. -/
theorem recordedErrorStays : Obligations.RecordedErrorStays := by
  intro s t hinv herr h hr hs
  obtain ⟨hstep, -⟩ := idleAndStopAreStable s ⟨hr, hs⟩ (.inr (hinv.stopped_of_errCode herr))
  cases hstep.symm.trans h
  exact ⟨rfl, rfl, rfl⟩

/-! ### What the host sees and does -/

theorem hostReadOut_of_busy {a : Nat} (hb : s.status = .busy) (ha : a < s.cfg.outCap) :
    hostReadOut a s = .refused (.hostTouchesBusyOutput a) := by
  rw [hostReadOut, if_neg (Nat.not_le.2 ha), if_pos hb]

theorem hostWriteOut_of_busy {a : Nat} {v : Byte} (hb : s.status = .busy) (ha : a < s.cfg.outCap) :
    hostWriteOut a v s = .refused (.hostTouchesBusyOutput a) := by
  rw [hostWriteOut, if_neg (Nat.not_le.2 ha), if_pos hb]

theorem hostReadOut_of_done {a : Nat} (hd : s.status = .done) (hlen : a < s.outLen) (ha : a < s.cfg.outCap) :
    hostReadOut a s = .byte (s.outByte a) := by
  rw [hostReadOut, if_neg (Nat.not_le.2 ha), if_neg (by rw [hd]; nofun), if_pos ⟨hd, hlen⟩]

theorem hostWriteIn_of_busy {a : Nat} {v : Byte} (hb : s.status = .busy) (hlen : a < s.inLenQ) (ha : a < s.cfg.inCap) :
    hostWriteIn a v s = .refused (.hostWritesBusyInput a) := by
  rw [hostWriteIn, if_neg (Nat.not_le.2 ha), if_pos ⟨hb, hlen⟩]

/-- Settles O56: the result by R53, the codes by their tables, and the refusals while busy. -/
theorem hostSeesTheResult : Obligations.HostSeesTheResult := by
  refine ⟨fun s => ⟨fun hd => if_pos hd, fun he => result_eq_none_of_status_ne_done (by rw [he]; nofun),
      by rw [State.busy, beq_iff_eq], fun a => hostReadOut_of_done⟩, ⟨rfl, rfl, rfl, rfl⟩, ⟨rfl, rfl, rfl, rfl, rfl⟩,
    fun s a v hb ha => ⟨hostReadOut_of_busy hb ha, hostWriteOut_of_busy hb ha⟩,
    fun s a v => hostWriteIn_of_busy, fun s bs hb hbs hlen hcap => ?_⟩
  cases bs with
  | nil => exact absurd rfl hbs
  | cons v vs => rw [hostLoad, hostWriteIn_of_busy hb hlen hcap]

/-- A host's write of a byte of `OUT` goes on in one way. -/
theorem hostWriteOut_next {a : Nat} {v : Byte} (h : hostWriteOut a v s = .next t) :
    a < s.cfg.outCap ∧ t = { s with outMem := s.outMem.write a v } := by
  unfold hostWriteOut at h
  split at h
  · cases h
  · next hcap =>
    split at h
    · cases h
    · cases h
      exact ⟨Nat.not_le.1 hcap, rfl⟩

/-- Bytes written inside `IN` keep the invariant. -/
theorem Inv.writeAll_inMem {a : Nat} {vs : List Byte} (h : Inv s) (ha : vs ≠ [] → a + vs.length ≤ s.cfg.inCap) :
    Inv { s with inMem := s.inMem.writeAll a vs } := by
  obtain ⟨hinWf, houtWf, hin, hout, hwritten⟩ := h.memory
  refine ⟨⟨Memory.wf_writeAll hinWf a vs, houtWf, fun c hc => ?_, hout, hwritten⟩, h.position, h.width, h.status,
    h.offset, h.fields, h.copies⟩
  cases vs with
  | nil => exact hin c hc
  | cons v vs => exact (Memory.mem_writeAll hc).elim (fun hlt => hlt.trans_le (ha (List.cons_ne_nil v vs))) (hin c)

/-- A byte written anywhere in `OUT` keeps the invariant. -/
theorem Inv.write_outMem {a : Nat} {v : Byte} (h : Inv s) (ha : a < s.cfg.outCap) :
    Inv { s with outMem := s.outMem.write a v } := by
  obtain ⟨hinWf, houtWf, hin, hout, hwritten⟩ := h.memory
  refine ⟨⟨hinWf, Memory.wf_write houtWf a v, hin, fun c hc => ?_, fun b hb => ?_⟩, h.position, h.width, h.status,
    h.offset, h.fields, h.copies⟩
  · rcases Memory.mem_write hc with rfl | hc
    · exact ha
    · exact hout c hc
  · change ((s.outMem.write a v).read b).isSome = true
    by_cases hab : b = a
    · rw [hab, Memory.read_write_same]; rfl
    · rw [Memory.read_write_other _ _ hab]; exact hwritten b hb

/-- New ports within their width keep the invariant. -/
theorem Inv.drive {p : Ports} (h : Inv s) (hp : p.inLen < 2 ^ s.cfg.inAw) : Inv (s.drive p) := by
  obtain ⟨hcfg, -, hwidths⟩ := h.width
  exact ⟨h.memory, h.position, ⟨hcfg, hp, hwidths⟩, h.status, h.offset, h.fields, h.copies⟩

/-- Settles O57: each move writes one memory inside it, or the ports. -/
theorem hostMovesKeepTheInvariant : Obligations.HostMovesKeepTheInvariant := by
  refine fun s t hinv => ⟨fun a v h => ?_, fun a bs h => ?_, fun a v h => ?_, fun p hp => hinv.drive hp⟩
  · obtain ⟨ha, -, rfl⟩ := hostWriteIn_next h
    exact hinv.writeAll_inMem (vs := [v]) fun _ => ha
  · obtain ⟨hbs, rfl⟩ := hostLoad_next h
    exact hinv.writeAll_inMem fun hne => (hbs hne).1
  · obtain ⟨ha, rfl⟩ := hostWriteOut_next h
    exact hinv.write_outMem ha

/-- Settles O43: each part by computation. -/
theorem resetMeetsTheInvariant : Obligations.ResetMeetsTheInvariant :=
  ⟨by decide, by decide, by decide, by decide, by decide, by decide, by decide⟩

/-! ### The framing -/

theorem inputChecks_iff {h : Header} {slice : List Byte} :
    inputChecks h slice = true ↔ slice.length = h.packedSize.toNat ∧ crc32 slice = h.packedCrc32 := by
  simp [inputChecks]

theorem outputChecks_iff {h : Header} {out : List Byte} :
    outputChecks h out = true ↔ out.length = h.origSize.toNat ∧ crc32 out = h.origCrc32 := by
  simp [outputChecks]

theorem decodeFramed_strict_of_fail {cfg : Config} {h : Header} {data : List Byte}
    (hc : ¬ inputChecks h (engineSlice h data) = true) : decodeFramed cfg true h data = .headerMismatch := by
  rw [decodeFramed, if_pos rfl, if_neg hc]

theorem decodeFramed_strict_of_pass {cfg : Config} {h : Header} {data : List Byte}
    (hc : inputChecks h (engineSlice h data) = true) :
    decodeFramed cfg true h data = checkedResult h (decodePlain cfg true (engineSlice h data)) := by
  rw [decodeFramed, if_pos rfl, if_pos hc]

theorem checkedResult_bytes (h : Header) (out : List Byte) :
    checkedResult h (.bytes out) = if outputChecks h out then .bytes out else .headerMismatch := rfl

/-- Settles O58: the branches of `decodeFramed` and `decompress`, with the checks as the spec writes them. -/
theorem framingChecksOnlyInStrictMode : Obligations.FramingChecksOnlyInStrictMode := by
  refine ⟨?_, fun cfg magic data strict => ⟨fun hm => if_neg hm, fun h hm hh => ?_⟩⟩
  · rintro cfg h data slice rfl
    refine ⟨fun hfail => decodeFramed_strict_of_fail (mt inputChecks_iff.1 hfail), fun hlen hcrc => ?_, rfl⟩
    have hpass := decodeFramed_strict_of_pass (cfg := cfg) (inputChecks_iff.2 ⟨hlen, hcrc⟩)
    refine ⟨fun e he => ?_, fun out hout => ⟨fun hout' => ?_, fun hout' => ?_⟩⟩
    · exact hpass.trans (congrArg (checkedResult h) he)
    · rw [hpass, show decodePlain cfg true (engineSlice h data) = .bytes out from hout, checkedResult_bytes,
        if_pos (outputChecks_iff.2 hout')]
    · rw [hpass, show decodePlain cfg true (engineSlice h data) = .bytes out from hout, checkedResult_bytes,
        if_neg (mt outputChecks_iff.1 hout')]
  · rw [decompress, if_pos hm, hh]

end Sys2Proof.Machine
end

section
/-! PROOFS. The micro-states one by one (R203 to R218): where each goes and what it writes. -/

namespace Sys2Proof.Machine

variable {s t u v : State}

theorem nextBit_ok {b : Bool} (h : nextBit s = .ok b u) :
    ∃ c, readBit s.source s.rd = .got b c ∧ u = s.setReader c := liftRead_ok h

theorem nextByte_ok {l : Byte} (h : nextByte s = .ok l u) :
    ∃ c, readByte s.source s.rd = .got l c ∧ u = s.setReader c := liftRead_ok h

/-- The `Append` of `CopyLiteral(1)` follows its read directly (R142). -/
theorem copyLiteral_one (s : State) : copyLiteral 1 s = (nextByte s).bind append := by
  rw [copyLiteral]
  cases nextByte s with
  | ok l u => rw [Res.ok_bind, Res.ok_bind]; cases append l u <;> rfl
  | raised e u => rfl
  | fault f => rfl

/-- The micro-step of each control state (R202 to R219). -/
def microOf : Fsm → State → Res Unit
  | .idle => .ok ()
  | .init => microInit
  | .b1 => microB1
  | .lit => microLit
  | .b2 => microB2
  | .b3 => microB3
  | .sraw => microSraw
  | .nib => microNib
  | .zlit => microZlit
  | .gd => microGd
  | .gc => microGc
  | .gsel => microGsel
  | .glo => microGlo
  | .glen => microGlen
  | .chk => microChk
  | .copy => microCopy
  | .fin => microFin
  | .stop => .ok ()

theorem microRes_eq_microOf (s : State) : microRes s = microOf s.fsm s := by
  rw [microRes]
  cases s.fsm <;> rfl

theorem microStep_of_microRes (h : microRes s = .ok () t) : microStep s = .next t := by rw [microStep, h, settle]

theorem microStep_of_raised {e : ErrorKind} (h : microRes s = .raised e t) : microStep s = .next (t.takeError e) := by
  rw [microStep, h, settle]

/-! ### The states that branch on a bit -/

/-- Where `S_GC` goes after the last pair (R212). -/
def gammaExit : GammaSel → Fsm
  | .off => .gsel
  | .len => .glen

section
variable {b : Bool} (h : nextBit s = .ok b u)
include h

theorem microStep_b1 (hf : s.fsm = .b1) : microStep s = .next (u.goto (if b then .b2 else .lit)) :=
  microStep_of_microRes (by rw [microRes_eq_microOf, hf, microOf, microB1, h, Res.ok_bind])

theorem microStep_b2 (hf : s.fsm = .b2) : microStep s = .next (if b then u.goto .b3 else u.startGamma .off) :=
  microStep_of_microRes (by rw [microRes_eq_microOf, hf, microOf, microB2, h, Res.ok_bind])

theorem microStep_b3 (hf : s.fsm = .b3) : microStep s = .next
    (if b then (u.setWork { u.work with nib := 0#4, nibCnt := 0#3 }).goto .nib else u.goto .sraw) :=
  microStep_of_microRes (by rw [microRes_eq_microOf, hf, microOf, microB3, h, Res.ok_bind])

theorem microStep_gc (hf : s.fsm = .gc) : microStep s = .next (u.goto (if b then .gd else gammaExit s.work.gsel)) := by
  obtain ⟨c, -, rfl⟩ := nextBit_ok h
  exact microStep_of_microRes (by rw [microRes_eq_microOf, hf, microOf, microGc, h, Res.ok_bind]; rfl)

theorem microStep_nib (hf : s.fsm = .nib) : microStep s = .next
    (u.setWork { u.work with nib := nibShiftIn s.work.nib b, nibCnt := s.work.nibCnt + 1#3 }).afterNibbleBit := by
  obtain ⟨c, -, rfl⟩ := nextBit_ok h
  exact microStep_of_microRes (by rw [microRes_eq_microOf, hf, microOf, microNib, h, Res.ok_bind]; rfl)

theorem microStep_gd_of_full (hf : s.fsm = .gd) (hfull : gammaFull s.cfg.gammaW s.work.gAcc = true) :
    microStep s = .next (u.takeError (.gammaOverflow u.rd.inPtr)) := by
  obtain ⟨c, -, rfl⟩ := nextBit_ok h
  exact microStep_of_raised (by rw [microRes_eq_microOf, hf, microOf, microGd, h, Res.ok_bind]; exact if_pos hfull)

theorem microStep_gd_of_room (hf : s.fsm = .gd) (hroom : gammaFull s.cfg.gammaW s.work.gAcc = false) :
    microStep s = .next ((u.setWork { u.work with gAcc := shiftIn s.work.gAcc b }).goto .gc) := by
  obtain ⟨c, -, rfl⟩ := nextBit_ok h
  exact microStep_of_microRes (by
    rw [microRes_eq_microOf, hf, microOf, microGd, h, Res.ok_bind]; exact if_neg (Bool.eq_false_iff.1 hroom))

end

/-- Settles O48: the four states that go by the bit read. -/
theorem microStatesFollowTheBits : Obligations.MicroStatesFollowTheBits := by
  intro s u b h
  refine ⟨microStep_b1 h, fun hf => ?_, fun hf => ?_, fun hf => ?_⟩
  · rw [microStep_b2 h hf]; rfl
  · rw [microStep_b3 h hf]; rfl
  · rw [microStep_gc h hf]
    cases s.work.gsel <;> rfl

/-! ### The states that read a byte, append one, or take a nibble bit -/

theorem microStep_init {l : Byte} (hl : nextByte s = .ok l u) (hv : append l u = .ok () v) (hf : s.fsm = .init) :
    microStep s = .next (v.leaveToken .b1) :=
  microStep_of_microRes (by
    rw [microRes_eq_microOf, hf, microOf, microInit, copyLiteral_one, hl, Res.ok_bind, hv, Res.ok_bind])

theorem microStep_lit {l : Byte} (hl : nextByte s = .ok l u) (hv : append l u = .ok () v) (hf : s.fsm = .lit) :
    microStep s = .next ((v.setLwm false).leaveToken .b1) :=
  microStep_of_microRes (by
    rw [microRes_eq_microOf, hf, microOf, microLit, copyLiteral_one, hl, Res.ok_bind, hv, Res.ok_bind])

theorem microStep_zlit (hu : append 0#8 s = .ok () u) (hf : s.fsm = .zlit) :
    microStep s = .next ((u.setLwm false).leaveToken .b1) :=
  microStep_of_microRes (by rw [microRes_eq_microOf, hf, microOf, microZlit, hu, Res.ok_bind])

theorem microStep_sraw_of_end {raw : Byte} (h : nextByte s = .ok raw u) (hf : s.fsm = .sraw)
    (hraw : raw.extractLsb' 1 7 = 0#7) : microStep s = .next u.endDecode :=
  microStep_of_microRes (by rw [microRes_eq_microOf, hf, microOf, microSraw, h, Res.ok_bind, if_pos hraw]; rfl)

theorem microStep_sraw_of_match {raw : Byte} (h : nextByte s = .ok raw u) (hf : s.fsm = .sraw)
    (hraw : raw.extractLsb' 1 7 ≠ 0#7) :
    microStep s = .next ((u.setWork { u.work with
      raw := raw, off := shortOff raw, len := shortLen raw, ovalid := true, mode := .sm }).goto .chk) :=
  microStep_of_microRes (by rw [microRes_eq_microOf, hf, microOf, microSraw, h, Res.ok_bind, if_neg hraw])

theorem nibShiftIn_toNat (nib : Nibble) (b : Bool) : (nibShiftIn nib b).toNat = (2 * nib.toNat + b.toNat) % 16 := by
  revert nib b
  decide

theorem nibShiftIn_eq_of_toNat {nib nib' : Nibble} {b : Bool} (h : nib'.toNat = (2 * nib.toNat + b.toNat) % 16) :
    nibShiftIn nib b = nib' := BitVec.eq_of_toNat_eq ((nibShiftIn_toNat nib b).trans h.symm)

theorem afterNibbleBit_of_lt (h : s.work.nibCnt < 4#3) : s.afterNibbleBit = s := if_pos h

theorem afterNibbleBit_of_zero (h : s.work.nibCnt = 4#3) (h0 : s.work.nib = 0#4) : s.afterNibbleBit = s.goto .zlit := by
  rw [State.afterNibbleBit, h, if_neg (by decide), if_pos h0]

theorem afterNibbleBit_of_match (h : s.work.nibCnt = 4#3) (hne : s.work.nib ≠ 0#4) :
    s.afterNibbleBit = (s.setWork
      { s.work with off := nibbleOff s.work.nib, len := 1, ovalid := true, mode := .nm }).goto .chk := by
  rw [State.afterNibbleBit, h, if_neg (by decide), if_neg hne]

/-- Settles O49: each state's equation, with the nibble as a number. -/
theorem microStatesReadAndAppend : Obligations.MicroStatesReadAndAppend := by
  refine fun s u => ⟨fun l v hl hv => ⟨microStep_init hl hv, microStep_lit hl hv⟩, microStep_zlit,
    fun raw h hf => ⟨microStep_sraw_of_match h hf, fun hraw => ?_⟩, fun b nib h hf hnib => ?_⟩
  · obtain ⟨c, -, rfl⟩ := nextByte_ok h
    exact ⟨_, microStep_sraw_of_end h hf hraw, rfl, rfl, rfl, rfl, rfl, rfl, rfl, rfl, ⟨rfl, rfl⟩, rfl⟩
  · have hstep := microStep_nib h hf
    rw [nibShiftIn_eq_of_toNat hnib] at hstep
    have hlast (h3 : s.work.nibCnt.toNat = 3) : s.work.nibCnt + 1#3 = 4#3 := by bv_omega
    refine ⟨fun h3 => ?_, fun h3 hne => ?_, fun h3 h0 => ?_⟩
    · rw [hstep, afterNibbleBit_of_lt (show s.work.nibCnt + 1#3 < 4#3 by bv_omega)]
      rfl
    · rw [hstep, hlast h3, afterNibbleBit_of_match rfl hne]
      rfl
    · rw [hstep, hlast h3, afterNibbleBit_of_zero rfl h0]
      rfl

/-! ### The gamma-coded branch -/

theorem microStep_gsel_of_repeat (hf : s.fsm = .gsel) (h : s.lwm = false ∧ s.work.gAcc = 2) :
    microStep s = .next ((s.setWork { s.work with mode := .rep }).startGamma .len) :=
  microStep_of_microRes (by rw [microRes_eq_microOf, hf, microOf, microGsel, if_pos h])

theorem microStep_gsel_of_match (hf : s.fsm = .gsel) (h : ¬ (s.lwm = false ∧ s.work.gAcc = 2)) :
    microStep s = .next ((s.setWork { s.work with mode := .gm, high := highOf s.lwm s.work.gAcc }).goto .glo) :=
  microStep_of_microRes (by rw [microRes_eq_microOf, hf, microOf, microGsel, if_neg h])

theorem microStep_glo {lo : Byte} (h : nextByte s = .ok lo u) (hf : s.fsm = .glo) :
    microStep s = .next ((u.setWork { u.work with raw := lo, off := offsetOf s.work.high lo }).startGamma .len) := by
  obtain ⟨c, -, rfl⟩ := nextByte_ok h
  exact microStep_of_microRes (by rw [microRes_eq_microOf, hf, microOf, microGlo, h, Res.ok_bind]; rfl)

theorem microStep_glen (hf : s.fsm = .glen) : microStep s = .next ((s.setWork (glenWork s)).goto .chk) :=
  microStep_of_microRes (by rw [microRes_eq_microOf, hf, microOf, microGlen])

theorem glenWork_of_gm (h : s.work.mode = .gm) :
    glenWork s = { s.work with len := s.work.gAcc + bump s.cfg s.work.off, ovalid := true } := by rw [glenWork, h]

theorem glenWork_of_rep (h : s.work.mode = .rep) :
    glenWork s = { s.work with len := s.work.gAcc, off := s.lastOffset, ovalid := s.lastOffsetValid } := by
  rw [glenWork, h]

/-- Settles O50: each state's equation, with the spec's shifts as arithmetic. -/
theorem microStatesOfTheGammaBranch : Obligations.MicroStatesOfTheGammaBranch := by
  refine fun s => ⟨fun b u h hf => ⟨microStep_gd_of_full h hf, fun hroom => ?_⟩, fun hf => ⟨?_, ?_, ?_⟩,
    fun lo u h hf => ?_, fun hf => ⟨fun hm => ?_, fun hm => ?_⟩⟩
  · rw [microStep_gd_of_room h hf hroom, shiftIn_eq_shift_or]; rfl
  · intro hlwm hg
    rw [microStep_gsel_of_repeat hf ⟨hlwm, hg⟩]; rfl
  · intro hlwm hg
    rw [microStep_gsel_of_match hf (by omega), show highOf s.lwm s.work.gAcc = s.work.gAcc - 3 by rw [hlwm]; rfl]
    rfl
  · intro hlwm
    rw [microStep_gsel_of_match hf (by simp [hlwm]), show highOf s.lwm s.work.gAcc = s.work.gAcc - 2 by rw [hlwm]; rfl]
    rfl
  · rw [microStep_glo h hf, offsetOf_eq_shift_or]; rfl
  · rw [microStep_glen hf, glenWork_of_gm hm]; rfl
  · rw [microStep_glen hf, glenWork_of_rep hm]; rfl

/-! ### The copy engine -/

theorem microStep_chk_of_bad (hf : s.fsm = .chk) (h : badOffset s.work.off s.work.ovalid s) :
    microStep s = .next (s.takeError (.invalidBackRef s.work.off s.outLen)) :=
  microStep_of_raised (by rw [microRes_eq_microOf, hf, microOf, microChk, if_pos h])

theorem microStep_chk_of_valid (hf : s.fsm = .chk) (h : ¬ badOffset s.work.off s.work.ovalid s) :
    microStep s = .next ((s.setWork { s.work with cnt := s.work.len }).goto .copy) :=
  microStep_of_microRes (by rw [microRes_eq_microOf, hf, microOf, microChk, if_neg h])

/-- `S_COPY` after its byte (R217). -/
def State.countDown (s : State) : State :=
  (s.setWork { s.work with cnt := s.work.cnt - 1 }).goto (if s.work.cnt - 1 ≠ 0 then .copy else .fin)

theorem microStep_copy_of_ok (hf : s.fsm = .copy) (h : copyByte s.work.off s = .ok () u) :
    microStep s = .next u.countDown :=
  microStep_of_microRes (by rw [microRes_eq_microOf, hf, microOf, microCopy, h, Res.ok_bind]; rfl)

theorem microStep_copy_of_raised {e : ErrorKind} (hf : s.fsm = .copy) (h : copyByte s.work.off s = .raised e u) :
    microStep s = .next (u.takeError e) :=
  microStep_of_raised (by rw [microRes_eq_microOf, hf, microOf, microCopy, h]; rfl)

theorem microStep_fin (hf : s.fsm = .fin) : microStep s = .next (s.finWrites.leaveToken .b1) :=
  microStep_of_microRes (by rw [microRes_eq_microOf, hf, microOf, microFin])

/-- The writes of a back-reference token of a mode, after its copy (R218). -/
def modeWrites (off : Nat) : CopyMode → State → State
  | .gm => State.commitMatch off
  | .sm => State.commitMatch off
  | .rep => State.setLwm true
  | .nm => State.setLwm false

theorem finWrites_eq (s : State) : s.finWrites = modeWrites s.work.off s.work.mode s := by
  rw [State.finWrites]
  cases s.work.mode <;> rfl

/-- Settles O51: each state's equation, with the entry check spelled out. -/
theorem microStatesOfTheCopyEngine : Obligations.MicroStatesOfTheCopyEngine := by
  refine fun s => ⟨fun hf => ⟨microStep_chk_of_bad hf, fun hv hoff hle => ?_⟩, fun hf hcnt hoff hle => ⟨fun hroom => ?_,
    fun hfull => ?_⟩, fun hf => ⟨_, microStep_fin hf, rfl, ?_⟩⟩
  · exact microStep_chk_of_valid hf (by rw [hv]; exact not_badOffset hoff hle)
  · refine ⟨_, microStep_copy_of_ok hf (copyByte_of_room hroom), ⟨rfl, Memory.read_write_same _ _ _, fun a ha =>
      Memory.read_write_other _ _ (by omega)⟩, Nat.sub_add_cancel hcnt, fun h => if_pos h, fun h => ?_⟩
    exact if_neg (not_not.2 h)
  · exact microStep_copy_of_raised hf (copyByte_of_full hoff hle hfull)
  · rw [finWrites_eq]
    cases s.work.mode with
    | gm => exact ⟨⟨rfl, rfl⟩, fun _ => ⟨rfl, rfl, rfl⟩, nofun, nofun⟩
    | sm => exact ⟨⟨rfl, rfl⟩, fun _ => ⟨rfl, rfl, rfl⟩, nofun, nofun⟩
    | rep => exact ⟨⟨rfl, rfl⟩, nofun, fun _ => ⟨⟨rfl, rfl⟩, rfl⟩, nofun⟩
    | nm => exact ⟨⟨rfl, rfl⟩, nofun, nofun, fun _ => ⟨⟨rfl, rfl⟩, rfl⟩⟩

end Sys2Proof.Machine
end

section
/-! PROOFS. The frame of a transition at either level: fields of the input consumed, bytes appended, nothing else of the
memories and of the setup touched (R51, R52, R201); and who sets `done` (R26). -/

namespace Sys2Proof.Machine

variable {s t u : State}

/-- What a transition of the core may do to the reader, the memories and the setup: it consumes the fields `fs` and
appends the bytes `vs`. -/
structure Progress (fs : List Field) (vs : List Byte) (s t : State) : Prop where
  setup  : sameSetup s t
  reader : readsAs s.source fs s.rd = some t.rd
  outLen : t.outLen = s.outLen + vs.length
  outMem : t.outMem = s.outMem.writeAll s.outLen vs
  room   : vs ≠ [] → t.outLen ≤ s.cfg.outCap

/-- The input of a decode is part of its setup. -/
theorem source_congr (h : sameSetup s t) : t.source = s.source := by
  obtain ⟨hcfg, -, -, hlen, hmem⟩ := h
  simp only [State.source, State.inByte, hcfg, hlen, hmem]

theorem sameSetup_refl (s : State) : sameSetup s s := ⟨rfl, rfl, rfl, rfl, rfl⟩

theorem sameSetup_trans (h : sameSetup s t) (h' : sameSetup t u) : sameSetup s u := by
  obtain ⟨hcfg, hports, hstrict, hlen, hmem⟩ := h
  obtain ⟨hcfg', hports', hstrict', hlen', hmem'⟩ := h'
  exact ⟨hcfg'.trans hcfg, hports'.trans hports, hstrict'.trans hstrict, hlen'.trans hlen, hmem'.trans hmem⟩

theorem Progress.refl (s : State) : Progress [] [] s s := ⟨sameSetup_refl s, rfl, rfl, rfl, fun h => absurd rfl h⟩

theorem Progress.trans {fs gs : List Field} {vs ws : List Byte} (h : Progress fs vs s t) (h' : Progress gs ws t u) :
    Progress (fs ++ gs) (vs ++ ws) s u where
  setup  := sameSetup_trans h.setup h'.setup
  reader := readsAs_append_iff.2 ⟨t.rd, h.reader, source_congr h.setup ▸ h'.reader⟩
  outLen := by rw [h'.outLen, h.outLen, List.length_append, Nat.add_assoc]
  outMem := by rw [h'.outMem, h.outMem, h.outLen, Memory.writeAll_append]
  room   := by
    obtain ⟨hcfg, -⟩ := h.setup
    intro hne
    cases ws with
    | nil => rw [h'.outLen]; exact h.room (by simpa using hne)
    | cons w ws => rw [← hcfg]; exact h'.room (List.cons_ne_nil _ _)

theorem Progress.setReader {fs : List Field} {c : Cursor} (h : readsAs s.source fs s.rd = some c) :
    Progress fs [] s (s.setReader c) := ⟨⟨rfl, rfl, rfl, rfl, rfl⟩, h, rfl, rfl, fun h => absurd rfl h⟩

theorem Appended.progress {vs : List Byte} (h : Appended vs s t) : Progress [] vs s t := by
  obtain ⟨honly, hlen, hmem, hroom⟩ := h
  exact ⟨by rw [honly]; exact ⟨rfl, rfl, rfl, rfl, rfl⟩, by rw [honly]; rfl, hlen, hmem, hroom⟩

theorem TokenFrame.progress {vs : List Byte} (h : TokenFrame vs s t) : Progress [] vs s t :=
  ⟨h.setup, congrArg some h.reader.symm, h.outLen, h.outMem, h.room⟩

/-- `t` is `s` with other values in registers that are neither the reader nor `out_len` nor part of the setup. -/
abbrev regsOnly (s t : State) : Prop := sameSetup s t ∧ t.rd = s.rd ∧ sameOutput s t

theorem Progress.regs {fs : List Field} {vs : List Byte} (h : Progress fs vs s t) (hregs : regsOnly t u) :
    Progress fs vs s u := by
  obtain ⟨hsetup, hrd, hlen, hmem⟩ := hregs
  exact ⟨sameSetup_trans h.setup hsetup, by rw [hrd]; exact h.reader, hlen.trans h.outLen, hmem.trans h.outMem,
    fun hne => hlen.trans_le (h.room hne)⟩

theorem Progress.inPtr_le {fs : List Field} {vs : List Byte} (h : Progress fs vs s t) : s.rd.inPtr ≤ t.rd.inPtr :=
  (readsAs_cursor h.reader).1

theorem Progress.outLen_le {fs : List Field} {vs : List Byte} (h : Progress fs vs s t) : s.outLen ≤ t.outLen := by
  rw [h.outLen]; exact Nat.le_add_right _ _

theorem Progress.sameOutside {fs : List Field} {vs : List Byte} (h : Progress fs vs s t) :
    sameOutside s.outLen t.outLen s t := by
  intro a ha
  rw [h.outLen] at ha
  rw [h.outMem, Memory.read_writeAll_outside _ _ _ _ ha]

theorem regsOnly_takeError (e : ErrorKind) (s : State) : regsOnly s (s.takeError e) :=
  ⟨⟨rfl, rfl, rfl, rfl, rfl⟩, rfl, rfl, rfl⟩

theorem regsOnly_endDecode (s : State) : regsOnly s s.endDecode := ⟨⟨rfl, rfl, rfl, rfl, rfl⟩, rfl, rfl, rfl⟩

/-! ### The token level -/

theorem exec_progress {i : Instr} (h : exec i s = .next t) : ∃ vs, Progress [] vs s t := by
  by_cases hend : ∃ raw, i = .endMark raw
  · obtain ⟨raw, rfl⟩ := hend
    cases h
    exact ⟨[], (Progress.refl s).regs (regsOnly_endDecode s)⟩
  · obtain ⟨u, vs, -, happ, ht⟩ := exec_next_appended (fun raw hi => hend ⟨raw, hi⟩) h
    exact ⟨vs, (happ.tokenFrame ht).progress⟩

theorem runFetched_progress {r : Read Instr} (hr : r.Consumes s.source s.rd) (h : runFetched (liftRead s r) = .next t) :
    ∃ fs vs, Progress fs vs s t := by
  cases r with
  | got i c =>
    obtain ⟨fs, hfs⟩ := hr
    obtain ⟨vs, hvs⟩ := exec_progress h
    exact ⟨_, _, (Progress.setReader hfs).trans hvs⟩
  | raised e c =>
    obtain ⟨⟨fs, hfs⟩, -⟩ := hr
    cases h
    exact ⟨fs, [], (Progress.setReader hfs).regs (regsOnly_takeError e _)⟩
  | noByte a => cases h

/-- Settles O32: with quiet ports a step is what `runFetched` makes of the read. -/
theorem stepRunsTheDecodedToken : Obligations.StepRunsTheDecodedToken := by
  have htoken (s : State) (hq : portsQuiet s) (hf : s.fsm = .b1) :
      step s = runFetched (liftRead s (decodeToken s.source s.cfg.gammaW s.lwm s.rd)) := by
    rw [step_of_quiet hq, coreStep_of_b1 hf, fetchToken]
  have hinit (s : State) (hq : portsQuiet s) (hf : s.fsm = .init) :
      step s = runFetched (liftRead s (decodeInit s.source s.rd)) := by
    rw [step_of_quiet hq, coreStep_of_init hf, fetchInit]
  refine ⟨fun s i c hq hf h => ?_, fun s i c hq hf h => ?_, fun s e c hq hf h => ?_, fun s e c hq hf h => ?_⟩
  · rw [htoken s hq hf, h]; rfl
  · rw [hinit s hq hf, h]; rfl
  · rw [htoken s hq hf, h]; rfl
  · rw [hinit s hq hf, h]; rfl

/-! ### The micro-step level -/

/-- However an operation ends without a fault, the state it ends in has the property. -/
def Res.All {α : Type} (P : State → Prop) : Res α → Prop
  | .ok _ t => P t
  | .raised _ t => P t
  | .fault _ => True

theorem Res.All.bind {α β : Type} {P Q : State → Prop} {r : Res α} {k : α → State → Res β} (hr : r.All P)
    (hraised : ∀ t, P t → Q t) (hk : ∀ v t, P t → (k v t).All Q) : (r.bind k).All Q := by
  cases r with
  | ok v t => exact hk v t hr
  | raised e t => exact hraised t hr
  | fault f => trivial

theorem Res.All.imp {α : Type} {P Q : State → Prop} {r : Res α} (hr : r.All P) (h : ∀ t, P t → Q t) : r.All Q := by
  cases r with
  | ok v t => exact h t hr
  | raised e t => exact h t hr
  | fault f => trivial

/-- At most `m` reads and `n` appends after `s` (R201), and `done` written in `S_SRAW` only (R208). -/
structure Made (m n : Nat) (s t : State) : Prop where
  progress : ∃ fs vs, fs.length ≤ m ∧ vs.length ≤ n ∧ Progress fs vs s t
  done     : s.fsm ≠ .sraw → t.done = s.done

theorem Made.refl (m n : Nat) (s : State) : Made m n s s :=
  ⟨⟨[], [], Nat.zero_le m, Nat.zero_le n, .refl s⟩, fun _ => rfl⟩

theorem Made.mono {m m' n n' : Nat} (h : Made m n s t) (hm : m ≤ m') (hn : n ≤ n') : Made m' n' s t := by
  obtain ⟨⟨fs, vs, hfs, hvs, h⟩, hdone⟩ := h
  exact ⟨⟨fs, vs, hfs.trans hm, hvs.trans hn, h⟩, hdone⟩

/-- The register writes of a micro-step in control state `f`. -/
abbrev microWrites (f : Fsm) (t u : State) : Prop := regsOnly t u ∧ (f ≠ .sraw → u.done = t.done)

theorem Made.writes {m n : Nat} (h : Made m n s t) (hw : microWrites s.fsm t u) : Made m n s u := by
  obtain ⟨⟨fs, vs, hm, hn, h⟩, hdone⟩ := h
  obtain ⟨hregs, hdone'⟩ := hw
  exact ⟨⟨fs, vs, hm, hn, h.regs hregs⟩, fun hf => (hdone' hf).trans (hdone hf)⟩

theorem Made.appended {m : Nat} {vs : List Byte} (h : Made m 0 s t) (hvs : vs.length ≤ 1) (happ : Appended vs t u) :
    Made m 1 s u := by
  obtain ⟨⟨fs, ws, hm, hws, h⟩, hdone⟩ := h
  obtain ⟨-, -, hdone'⟩ := onlyOutput_keeps_registers happ.only
  have htotal := h.trans happ.progress
  rw [List.append_nil] at htotal
  exact ⟨⟨fs, _, hm, by rw [List.length_append]; omega, htotal⟩, fun hf => hdone'.trans (hdone hf)⟩

theorem nextBit_made (s : State) : (nextBit s).All (Made 1 0 s) := by
  cases h : nextBit s with
  | ok b t =>
    obtain ⟨c, hc, rfl⟩ := nextBit_ok h
    exact ⟨⟨[.bit b], [], le_rfl, le_rfl, .setReader (readsAs_bit_iff.2 ⟨c, hc, rfl⟩)⟩, fun _ => rfl⟩
  | raised e t =>
    obtain ⟨c, hc, rfl⟩ := liftRead_raised h
    obtain ⟨-, -, -, rfl⟩ := readBit_raised hc
    exact .refl 1 0 s
  | fault f => trivial

theorem nextByte_made (s : State) : (nextByte s).All (Made 1 0 s) := by
  cases h : nextByte s with
  | ok v t =>
    obtain ⟨c, hc, rfl⟩ := nextByte_ok h
    exact ⟨⟨[.byte v], [], le_rfl, le_rfl, .setReader (readsAs_byte_iff.2 ⟨c, hc, rfl⟩)⟩, fun _ => rfl⟩
  | raised e t =>
    obtain ⟨c, hc, rfl⟩ := liftRead_raised h
    obtain ⟨-, -, rfl⟩ := readByte_raised hc
    exact .refl 1 0 s
  | fault f => trivial

theorem append_made {m : Nat} (v : Byte) (h : Made m 0 s t) : (append v t).All (Made m 1 s) := by
  cases hr : append v t with
  | ok _ u =>
    obtain ⟨vs, hvs, happ⟩ := append_appended (e := .outputOverflow 0) (.inl hr)
    exact h.appended hvs happ
  | raised e u =>
    obtain ⟨vs, hvs, happ⟩ := append_appended (.inr hr)
    exact h.appended hvs happ
  | fault f => trivial

theorem copyByte_made (off : Nat) (s : State) : (copyByte off s).All (Made 1 1 s) := by
  cases hr : copyByte off s with
  | ok _ u =>
    obtain ⟨hroom, rfl⟩ := copyByte_ok hr
    exact (Made.refl 1 0 s).appended le_rfl (Appended.storeOut hroom)
  | raised e u =>
    obtain ⟨-, -, rfl⟩ := copyByte_raised hr
    exact .refl 1 1 _
  | fault f => trivial

theorem copyLiteral_one_made (s : State) : (copyLiteral 1 s).All (Made 1 1 s) := by
  rw [copyLiteral_one]
  exact (nextByte_made s).bind (fun _ h => h.mono le_rfl (Nat.zero_le 1)) fun v _ h => append_made v h

/-- A micro-step that ends in register writes after an operation. -/
theorem bind_made {α : Type} {n : Nat} {r : Res α} {k : α → State → Res Unit} (hr : r.All (Made 1 n s)) (hn : n ≤ 1)
    (hk : ∀ v t, (k v t).All (microWrites s.fsm t)) : (r.bind k).All (Made 1 1 s) :=
  hr.bind (fun _ h => h.mono le_rfl hn) fun v t h => (hk v t).imp fun _ hw => (h.writes hw).mono le_rfl hn

/-- Writes of working registers and of the control state. -/
theorem microWrites_refl (f : Fsm) (t : State) : microWrites f t t := ⟨⟨sameSetup_refl t, rfl, rfl, rfl⟩, fun _ => rfl⟩

theorem microWrites_finWrites (f : Fsm) (t : State) : microWrites f t (t.finWrites.leaveToken .b1) := by
  rw [finWrites_eq]
  cases t.work.mode <;> exact microWrites_refl f t

theorem microWrites_afterNibbleBit (f : Fsm) (w : Work) (t : State) : microWrites f t (t.setWork w).afterNibbleBit := by
  unfold State.afterNibbleBit
  split
  · exact microWrites_refl f t
  · split <;> exact microWrites_refl f t

theorem microSraw_writes (s : State) (raw : Byte) (t : State) (hf : s.fsm = .sraw) :
    (if raw.extractLsb' 1 7 = 0#7 then .ok () (t.setWork { t.work with raw := raw }).endDecode
      else .ok () ((t.setWork { t.work with
        raw := raw, off := shortOff raw, len := shortLen raw, ovalid := true, mode := .sm }).goto .chk) :
      Res Unit).All (microWrites s.fsm t) := by
  split
  · exact ⟨regsOnly_endDecode t, fun h => absurd hf h⟩
  · exact microWrites_refl s.fsm t

/-- A micro-step of any control state reads one field and appends one byte at most. -/
theorem microRes_made (s : State) : (microRes s).All (Made 1 1 s) := by
  have hbit {k} (hk : ∀ b t, (k b t).All (microWrites s.fsm t)) : ((nextBit s).bind k).All (Made 1 1 s) :=
    bind_made (nextBit_made s) (Nat.zero_le 1) hk
  have hbyte {k} (hk : ∀ v t, (k v t).All (microWrites s.fsm t)) : ((nextByte s).bind k).All (Made 1 1 s) :=
    bind_made (nextByte_made s) (Nat.zero_le 1) hk
  have hwrites {t : State} (h : microWrites s.fsm s t) : Made 1 1 s t := (Made.refl 1 1 s).writes h
  rw [microRes_eq_microOf]
  cases hf : s.fsm with
  | idle => exact .refl 1 1 s
  | init => exact bind_made (copyLiteral_one_made s) le_rfl fun _ => microWrites_refl _
  | b1 => exact hbit fun _ => microWrites_refl _
  | lit => exact bind_made (copyLiteral_one_made s) le_rfl fun _ => microWrites_refl _
  | b2 => exact hbit fun b t => by cases b <;> exact microWrites_refl _ t
  | b3 => exact hbit fun b t => by cases b <;> exact microWrites_refl _ t
  | sraw => exact hbyte fun raw t => microSraw_writes s raw t hf
  | nib => exact hbit fun _ t => microWrites_afterNibbleBit _ _ t
  | zlit =>
    exact bind_made (append_made 0#8 (Made.refl 1 0 s)) le_rfl fun _ => microWrites_refl _
  | gd => exact hbit fun b t => by split <;> exact microWrites_refl _ t
  | gc => exact hbit fun _ => microWrites_refl _
  | gsel =>
    change (microGsel s).All _
    unfold microGsel
    split <;> exact hwrites (microWrites_refl _ s)
  | glo => exact hbyte fun _ => microWrites_refl _
  | glen => exact hwrites (microWrites_refl _ s)
  | chk =>
    change (microChk s).All _
    unfold microChk
    split <;> exact hwrites (microWrites_refl _ s)
  | copy => exact bind_made (copyByte_made _ s) le_rfl fun _ => microWrites_refl _
  | fin => exact hwrites (microWrites_finWrites _ s)
  | stop => exact .refl 1 1 s

theorem microStep_made (h : microStep s = .next t) : Made 1 1 s t := by
  have hall := microRes_made s
  rcases settle_next h with hok | ⟨e, u, hr, rfl⟩
  · rw [hok] at hall
    exact hall
  · rw [hr] at hall
    exact hall.writes ⟨regsOnly_takeError e u, fun _ => rfl⟩

theorem microStep_progress (h : microStep s = .next t) : ∃ fs vs, Progress fs vs s t := by
  obtain ⟨fs, vs, -, -, hp⟩ := (microStep_made h).progress
  exact ⟨fs, vs, hp⟩

/-- One field takes one input byte at most. -/
theorem readsAs_le_one_inPtr {src : Source} {fs : List Field} {c d : Cursor} (hlen : fs.length ≤ 1)
    (h : readsAs src fs c = some d) : d.inPtr = c.inPtr ∨ d.inPtr = c.inPtr + 1 := by
  match fs, hlen with
  | [], _ => exact .inl (congrArg Cursor.inPtr (readsAs_nil_iff.1 h).symm)
  | [.bit b], _ =>
    obtain ⟨e, he, hnil⟩ := readsAs_bit_iff.1 h
    cases readsAs_nil_iff.1 hnil
    rcases readBit_got he with ⟨-, -, rfl⟩ | ⟨-, -, v, -, -, rfl⟩
    · exact .inl rfl
    · exact .inr rfl
  | [.byte v], _ =>
    obtain ⟨e, he, hnil⟩ := readsAs_byte_iff.1 h
    cases readsAs_nil_iff.1 hnil
    obtain ⟨-, -, rfl⟩ := readByte_got he
    exact .inr rfl

/-- Settles O47: the frame of a micro-step. -/
theorem microStepMakesOneAccessOfAKind : Obligations.MicroStepMakesOneAccessOfAKind := by
  intro s t h
  obtain ⟨fs, vs, hfs, hvs, h⟩ := (microStep_made h).progress
  exact ⟨readsAs_le_one_inPtr hfs h.reader, by rw [h.outLen]; omega, h.sameOutside⟩

/-! ### Steps under the ports -/

/-- The core's transition at the token level is a token at a boundary and else a micro-step, or nothing. -/
theorem coreStep_cases (s : State) :
    (s.fsm = .init ∧ coreStep s = runFetched (fetchInit s)) ∨ (s.fsm = .b1 ∧ coreStep s = runFetched (fetchToken s)) ∨
    (¬ atBoundary s ∧ coreStep s = microStep s) := by
  cases hf : s.fsm with
  | init => exact .inl ⟨rfl, coreStep_of_init hf⟩
  | b1 => exact .inr (.inl ⟨rfl, coreStep_of_b1 hf⟩)
  | _ => exact .inr (.inr ⟨by simp [atBoundary, hf], by simp [coreStep, microStep, microRes, settle, hf]⟩)

theorem coreStep_progress (h : coreStep s = .next t) : ∃ fs vs, Progress fs vs s t := by
  rcases coreStep_cases s with ⟨-, hs⟩ | ⟨-, hs⟩ | ⟨-, hs⟩ <;> rw [hs] at h
  · exact runFetched_progress (decodeInit_consumes s.rd) h
  · exact runFetched_progress (decodeToken_consumes s.cfg.gammaW s.lwm s.rd) h
  · exact microStep_progress h

theorem step_progress (hq : portsQuiet s) (h : step s = .next t) : ∃ fs vs, Progress fs vs s t :=
  coreStep_progress (by rwa [step_of_quiet hq] at h)

theorem microMachine_progress (hq : portsQuiet s) (h : microMachine s = .next t) : ∃ fs vs, Progress fs vs s t := by
  rw [microMachine_of_quiet hq] at h
  exact microStep_progress h

/-- Settles O40: the frame of a step. -/
theorem outputIsAppendOnly : Obligations.OutputIsAppendOnly := by
  intro s t hq h
  obtain ⟨fs, vs, hp⟩ := step_progress hq h
  exact ⟨hp.outLen_le, hp.sameOutside⟩

theorem underPorts_inMem {core : State → Host.Outcome State Fault Refusal}
    (hcore : core s = .next t → t.inMem = s.inMem) (h : underPorts core s = .next t) : t.inMem = s.inMem := by
  rcases underPorts_next h with ⟨-, -, rfl⟩ | ⟨-, -, -, -, rfl⟩ | ⟨-, h⟩
  · rfl
  · rfl
  · exact hcore h

/-- Settles O41: the frame of a transition of the core; a reset or a start leaves `IN` too. -/
theorem inputIsReadForwardOnly : Obligations.InputIsReadForwardOnly := by
  have hmem {s t : State} {fs : List Field} {vs : List Byte} (hp : Progress fs vs s t) : t.inMem = s.inMem :=
    hp.setup.2.2.2.2
  rintro s t (h | h)
  · refine ⟨underPorts_inMem (fun hc => ?_) h, fun hq => ?_⟩
    · obtain ⟨fs, vs, hp⟩ := coreStep_progress hc
      exact hmem hp
    · obtain ⟨fs, vs, hp⟩ := step_progress hq h
      exact hp.inPtr_le
  · refine ⟨underPorts_inMem (fun hc => ?_) h, fun hq => ?_⟩
    · obtain ⟨fs, vs, hp⟩ := microStep_progress hc
      exact hmem hp
    · obtain ⟨fs, vs, hp⟩ := microMachine_progress hq h
      exact hp.inPtr_le

/-! ### `done` -/

/-- From its first field on, only `END` sets `done`. -/
theorem runFetched_done {r : Read Instr} (h : runFetched (liftRead s r) = .next t) :
    t.done = s.done ∨ ∃ raw c, r = .got (.endMark raw) c ∧ t = (s.setReader c).endDecode := by
  cases r with
  | got i c =>
    by_cases hend : ∃ raw, i = .endMark raw
    · obtain ⟨raw, rfl⟩ := hend
      cases h
      exact .inr ⟨raw, c, rfl, rfl⟩
    · obtain ⟨u, vs, -, happ, ht⟩ := exec_next_appended (fun raw hi => hend ⟨raw, hi⟩) h
      exact .inl (happ.tokenFrame ht).done
  | raised e c => cases h; exact .inl rfl
  | noByte a => cases h

/-- A micro-step sets `done` only in `S_SRAW`, on a byte with bits 7 to 1 zero (R208). -/
theorem microStep_done (h : microStep s = .next t) :
    t.done = s.done ∨
    (s.fsm = .sraw ∧ ∃ raw u, nextByte s = .ok raw u ∧ raw.extractLsb' 1 7 = 0#7 ∧ t = u.endDecode) := by
  by_cases hf : s.fsm = .sraw
  · cases hr : nextByte s with
    | ok raw u =>
      obtain ⟨c, -, rfl⟩ := nextByte_ok hr
      by_cases hraw : raw.extractLsb' 1 7 = 0#7
      · rw [microStep_sraw_of_end hr hf hraw] at h
        cases h
        exact .inr ⟨hf, raw, _, rfl, hraw, rfl⟩
      · rw [microStep_sraw_of_match hr hf hraw] at h
        cases h
        exact .inl rfl
    | raised e u =>
      obtain ⟨c, -, rfl⟩ := liftRead_raised hr
      rw [microStep_of_raised (e := e) (by rw [microRes_eq_microOf, hf, microOf, microSraw, hr]; rfl)] at h
      cases h
      exact .inl rfl
    | fault f => rw [microStep, microRes_eq_microOf, hf, microOf, microSraw, hr] at h; cases h
  · exact .inl ((microStep_made h).done hf)

/-- A core with `done` set has stopped. -/
theorem Inv.stopped_of_done (h : Inv s) (hdone : s.done = true) : stopped s := by
  obtain ⟨-, hstop, hended, -⟩ := h.status
  exact hstop.2 (.inl (hended.1 hdone).1)

/-- Settles O38: who sets `done` at each level of the core; a reset and a start clear it. -/
theorem onlyTheEndMarkerSetsDone : Obligations.OnlyTheEndMarkerSetsDone := by
  refine ⟨fun s t h hclear hset => ?_, fun s hinv => hinv.stopped_of_done⟩
  have hchanged : t.done ≠ s.done := by rw [hclear, hset]; decide
  rcases underPorts_next h with ⟨-, -, rfl⟩ | ⟨-, -, -, -, rfl⟩ | ⟨-, h⟩
  · cases hset
  · cases hset
  · rcases coreStep_cases s with ⟨-, hs⟩ | ⟨hf, hs⟩ | ⟨-, hs⟩ <;> rw [hs] at h
    · obtain ⟨raw, c, hread, -⟩ := (runFetched_done h).resolve_left hchanged
      obtain ⟨l, hl, -⟩ := decodeInit_eq_got_iff.1 hread
      cases hl
    · exact .inl ⟨hf, (runFetched_done h).resolve_left hchanged⟩
    · exact .inr ((microStep_done h).resolve_left hchanged)

end Sys2Proof.Machine
end

section
/-! PROOFS. Changes of the state that a transition does not see: it goes as before, and its end state is changed the
same way. The ports while busy are such a change (R263). -/

namespace Sys2Proof.Machine

variable {s t : State} {φ : State → State}

/-- The same outcome with its end state changed. -/
def Res.map {α : Type} (φ : State → State) : Res α → Res α
  | .ok v s => .ok v (φ s)
  | .raised e s => .raised e (φ s)
  | .fault f => .fault f

/-- The same, for a whole transition. -/
def mapNext (φ : State → State) : Host.Outcome State Fault Refusal → Host.Outcome State Fault Refusal
  | .next s => .next (φ s)
  | .fault f => .fault f
  | .refused r => .refused r

theorem Res.bind_map {α β : Type} {r r' : Res α} {k k' : α → State → Res β} (hr : r' = r.map φ)
    (hk : ∀ v t, k' v (φ t) = (k v t).map φ) : r'.bind k' = (r.bind k).map φ := by
  subst hr
  cases r with
  | ok v t => exact hk v t
  | raised e t => rfl
  | fault f => rfl

/-- A read of the input, when the change does not see the reader move. -/
theorem liftRead_map {α : Type} (hreader : ∀ c u, (φ u).setReader c = φ (u.setReader c)) (s : State) (r : Read α) :
    liftRead (φ s) r = (liftRead s r).map φ := by
  cases r with
  | got v c => exact congrArg (Res.ok v) (hreader c s)
  | raised e c => exact congrArg (Res.raised e) (hreader c s)
  | noByte a => rfl

/-- A change that the output assembler does not see. -/
structure OutputBlind (φ : State → State) : Prop where
  cfg      : ∀ s, (φ s).cfg = s.cfg
  outLen   : ∀ s, (φ s).outLen = s.outLen
  outMem   : ∀ s, (φ s).outMem = s.outMem
  storeOut : ∀ v s, (φ s).storeOut v = φ (s.storeOut v)

/-- A change that no token sees once its fields are read. -/
structure TokenBlind (φ : State → State) : Prop extends OutputBlind φ where
  lwm             : ∀ s, (φ s).lwm = s.lwm
  lastOffset      : ∀ s, (φ s).lastOffset = s.lastOffset
  lastOffsetValid : ∀ s, (φ s).lastOffsetValid = s.lastOffsetValid
  setLwm          : ∀ b s, (φ s).setLwm b = φ (s.setLwm b)
  setLastOffset   : ∀ off s, (φ s).setLastOffset off = φ (s.setLastOffset off)
  leaveToken      : ∀ f s, (φ s).leaveToken f = φ (s.leaveToken f)
  takeError       : ∀ e s, (φ s).takeError e = φ (s.takeError e)
  endDecode       : ∀ s, (φ s).endDecode = φ s.endDecode

section
variable (hφ : OutputBlind φ)
include hφ

theorem append_map (v : Byte) (s : State) : append v (φ s) = (append v s).map φ := by
  simp only [append, hφ.cfg, hφ.outLen, hφ.storeOut]
  split
  · rfl
  · split <;> rfl

theorem copyLiteral_one_map (hbyte : nextByte (φ s) = (nextByte s).map φ) :
    copyLiteral 1 (φ s) = (copyLiteral 1 s).map φ := by
  rw [copyLiteral_one, copyLiteral_one]
  exact Res.bind_map hbyte (append_map hφ)

theorem copyByte_map (off : Nat) (s : State) : copyByte off (φ s) = (copyByte off s).map φ := by
  have hbyte (a : Nat) : (φ s).outByte a = s.outByte a := outByte_congr (by rw [hφ.outMem])
  refine Res.bind_map ?_ fun v t => append_map hφ v t
  simp only [readOutByte, hφ.cfg, hφ.outLen, hbyte]
  split <;> rfl

theorem copyLoop_map (off n : Nat) (s : State) : copyLoop off n (φ s) = (copyLoop off n s).map φ := by
  induction n generalizing s with
  | zero => rfl
  | succ n ih => exact Res.bind_map (copyByte_map hφ off s) fun _ t => ih t

theorem backRef_map (off n : Nat) (valid : Bool) (s : State) :
    backRef off n valid (φ s) = (backRef off n valid s).map φ := by
  simp only [backRef, badOffset, hφ.outLen]
  split
  · rfl
  · exact copyLoop_map hφ off n s

end

section
variable (hφ : TokenBlind φ)
include hφ

theorem tokenWrites_map (i : Instr) (s u : State) : tokenWrites (φ s) i (φ u) = φ (tokenWrites s i u) := by
  cases i <;> simp only [tokenWrites, State.commitMatch, id, hφ.lwm, hφ.setLwm, hφ.setLastOffset]

theorem finishToken_map {writes writes' : State → State} (hw : ∀ u, writes' (φ u) = φ (writes u)) (r : Res Unit) :
    finishToken writes' (r.map φ) = mapNext φ (finishToken writes r) := by
  cases r with
  | ok _ u => exact congrArg Host.Outcome.next (by rw [hw, hφ.leaveToken])
  | raised e u => exact congrArg Host.Outcome.next (hφ.takeError e u)
  | fault f => rfl

theorem exec_map (i : Instr) (s : State) : exec i (φ s) = mapNext φ (exec i s) := by
  have hwrites := finishToken_map hφ (tokenWrites_map hφ i s)
  rcases instr_cases i s with ⟨raw, rfl⟩ | ⟨v, hv⟩ | ⟨off, len, hcopy⟩
  · exact congrArg Host.Outcome.next (hφ.endDecode s)
  · rw [exec_of_appendedByte hv, exec_of_appendedByte hv, append_map hφ.toOutputBlind, hwrites]
  · have hcopy' : copyOf i (φ s) = some (off, len) := by
      rw [← hcopy]
      cases i <;> simp only [copyOf, hφ.lwm, hφ.cfg, hφ.lastOffset]
    have hvalid : copyValid (φ s) i = copyValid s i := by
      cases i <;> simp only [copyValid, hφ.lastOffsetValid]
    rw [exec_of_copyOf hcopy, exec_of_copyOf hcopy', hvalid, backRef_map hφ.toOutputBlind, hwrites]

/-- The same from the first field on, when the fields read are the same and the change does not see the reader move. -/
theorem runFetched_map (hreader : ∀ c u, (φ u).setReader c = φ (u.setReader c)) (r : Read Instr) (s : State) :
    runFetched (liftRead (φ s) r) = mapNext φ (runFetched (liftRead s r)) := by
  cases r with
  | got i c => rw [liftRead, hreader]; exact exec_map hφ i _
  | raised e c => rw [liftRead, hreader]; exact congrArg Host.Outcome.next (hφ.takeError e _)
  | noByte a => rfl

end

/-! ### The ports while busy -/

theorem tokenBlind_drive (p : Ports) : TokenBlind (State.drive p) where
  cfg _             := rfl
  outLen _          := rfl
  outMem _          := rfl
  storeOut _ _      := rfl
  lwm _             := rfl
  lastOffset _      := rfl
  lastOffsetValid _ := rfl
  setLwm _ _        := rfl
  setLastOffset _ _ := rfl
  leaveToken _ _    := rfl
  takeError _ _     := rfl
  endDecode _       := rfl

variable (p : Ports)

theorem nextBit_drive (s : State) : nextBit (s.drive p) = (nextBit s).map (State.drive p) :=
  liftRead_map (fun _ _ => rfl) s (readBit s.source s.rd)

theorem nextByte_drive (s : State) : nextByte (s.drive p) = (nextByte s).map (State.drive p) :=
  liftRead_map (fun _ _ => rfl) s (readByte s.source s.rd)

theorem copyLiteral_one_drive (s : State) : copyLiteral 1 (s.drive p) = (copyLiteral 1 s).map (State.drive p) :=
  copyLiteral_one_map (tokenBlind_drive p).toOutputBlind (nextByte_drive p s)

/-- A change that can be made in either branch of a test can be made after it. -/
theorem ite_eq_apply_ite {α β : Type} {q : Prop} {i j : Decidable q} {f : α → β} {x' y' : β} {x y : α}
    (hx : x' = f x) (hy : y' = f y) : @ite β q i x' y' = f (@ite α q j x y) := by
  by_cases hq : q
  · rw [if_pos hq, if_pos hq, hx]
  · rw [if_neg hq, if_neg hq, hy]

theorem afterNibbleBit_drive (s : State) : (s.drive p).afterNibbleBit = s.afterNibbleBit.drive p := by
  exact ite_eq_apply_ite rfl (ite_eq_apply_ite (f := State.drive p) rfl rfl)

/-- No micro-step sees the ports. -/
theorem microRes_drive (s : State) : microRes (s.drive p) = (microRes s).map (State.drive p) := by
  rw [microRes_eq_microOf, microRes_eq_microOf, State.drive_fsm]
  cases s.fsm with
  | idle => rfl
  | init => exact Res.bind_map (copyLiteral_one_drive p s) fun _ _ => rfl
  | b1 => exact Res.bind_map (nextBit_drive p s) fun _ _ => rfl
  | lit => exact Res.bind_map (copyLiteral_one_drive p s) fun _ _ => rfl
  | b2 => exact Res.bind_map (nextBit_drive p s) fun b _ => by cases b <;> rfl
  | b3 => exact Res.bind_map (nextBit_drive p s) fun b _ => by cases b <;> rfl
  | sraw => exact Res.bind_map (nextByte_drive p s) fun _ _ => ite_eq_apply_ite rfl rfl
  | nib => exact Res.bind_map (nextBit_drive p s) fun _ u => congrArg (Res.ok ()) (afterNibbleBit_drive p (u.setWork _))
  | zlit => exact Res.bind_map (append_map (tokenBlind_drive p).toOutputBlind _ s) fun _ _ => rfl
  | gd => exact Res.bind_map (nextBit_drive p s) fun _ _ => ite_eq_apply_ite rfl rfl
  | gc => exact Res.bind_map (nextBit_drive p s) fun _ _ => rfl
  | gsel => exact ite_eq_apply_ite rfl rfl
  | glo => exact Res.bind_map (nextByte_drive p s) fun _ _ => rfl
  | glen => rfl
  | chk => exact ite_eq_apply_ite rfl rfl
  | copy => exact Res.bind_map (copyByte_map (tokenBlind_drive p).toOutputBlind _ s) fun _ _ => rfl
  | fin =>
    change Res.ok () ((s.drive p).finWrites.leaveToken .b1) = Res.ok () ((s.finWrites.leaveToken .b1).drive p)
    rw [finWrites_eq, finWrites_eq, State.drive_work]
    cases s.work.mode <;> rfl
  | stop => rfl

theorem microStep_drive (s : State) : microStep (s.drive p) = mapNext (State.drive p) (microStep s) := by
  rw [microStep, microStep, microRes_drive]
  cases microRes s <;> rfl

theorem coreStep_drive (s : State) : coreStep (s.drive p) = mapNext (State.drive p) (coreStep s) := by
  rcases coreStep_cases s with ⟨hf, hs⟩ | ⟨hf, hs⟩ | ⟨hf, hs⟩ <;> rw [hs]
  · rw [coreStep_of_init (s := s.drive p) hf]
    exact runFetched_map (tokenBlind_drive p) (fun _ _ => rfl) (decodeInit s.source s.rd) s
  · rw [coreStep_of_b1 (s := s.drive p) hf]
    exact runFetched_map (tokenBlind_drive p) (fun _ _ => rfl) (decodeToken s.source s.cfg.gammaW s.lwm s.rd) s
  · rw [← microStep_drive]
    rcases coreStep_cases (s.drive p) with ⟨hf', -⟩ | ⟨hf', -⟩ | ⟨-, hs'⟩
    · exact absurd (.inl hf') hf
    · exact absurd (.inr hf') hf
    · exact hs'

/-- Settles O36: while busy both levels leave the step to the core, which does not see the ports. -/
theorem startWhileBusyIsIgnored : Obligations.StartWhileBusyIsIgnored := by
  intro s t p hbusy hlow hrst
  have hquiet : portsQuiet (s.drive p) := ⟨hrst, fun _ => hbusy⟩
  refine ⟨fun h => ?_, fun h => ?_⟩
  · rw [step_of_quiet (portsQuiet_of_low hlow)] at h
    rw [step_of_quiet hquiet, coreStep_drive, h, mapNext]
  · rw [microMachine_of_quiet (portsQuiet_of_low hlow)] at h
    rw [microMachine_of_quiet hquiet, microStep_drive, h, mapNext]

end Sys2Proof.Machine
end

section
/-! PROOFS. The two levels agree (R221): the reads of a token, one by one, are those of the micro-states, and the copy
engine writes what the token's copy writes. Each part of the decoder is followed by the micro-states that perform it. -/

namespace Sys2Proof.Machine

variable {s t u : State} {c : Cursor} {f : Fsm} {w : Work}

/-- The control states inside a token. -/
abbrev insideToken (f : Fsm) : Prop := f ≠ .idle ∧ f ≠ .init ∧ f ≠ .b1 ∧ f ≠ .stop

/-- Micro-steps from `s` to `t` through states inside a token, whose ports and status are those of `s`. -/
inductive Performs : State → State → Prop
  | last {s t : State} (h : microStep s = .next t) : Performs s t
  | more {s u t : State} (h : microStep s = .next u) (hf : insideToken u.fsm) (hports : u.ports = s.ports)
      (hstatus : u.status = s.status) (ht : Performs u t) : Performs s t

/-- Such a run as a number of transitions of the micro-step machine, when the ports are quiet. -/
theorem Performs.iterate (h : Performs s t) (hq : portsQuiet s) :
    ∃ n, 0 < n ∧ iterate microMachine n s = .next t ∧
      ∀ k, 0 < k → k < n → ∃ u, Machine.iterate microMachine k s = .next u ∧ ¬ atBoundary u ∧ ¬ stopped u ∧
        u.fsm ≠ .idle := by
  induction h with
  | last h =>
    rw [← microMachine_of_quiet hq] at h
    exact ⟨1, Nat.one_pos, iterate_succ h, fun k _ _ => by omega⟩
  | more h hf hports hstatus _ ih =>
    rw [← microMachine_of_quiet hq] at h
    obtain ⟨n, hn, hrun, hbetween⟩ := ih (by rw [portsQuiet, hports, hstatus]; exact hq)
    refine ⟨n + 1, n.succ_pos, (iterate_succ h).trans hrun, fun k hk hkn => ?_⟩
    obtain ⟨k, rfl⟩ : ∃ j, k = j + 1 := ⟨k - 1, by omega⟩
    rw [iterate_succ h]
    obtain rfl | hk := Nat.eq_zero_or_pos k
    · obtain ⟨hidle, hinit, hb1, hstop⟩ := hf
      exact ⟨_, rfl, not_or.2 ⟨hinit, hb1⟩, hstop, hidle⟩
    · exact hbetween k hk (by omega)

/-- The core `s` inside a token: with a reading position, a control state and working registers of its own. -/
def State.inside (c : Cursor) (f : Fsm) (w : Work) (s : State) : State := { s with rd := c, fsm := f, work := w }

/-- The micro-step with result `m` performs what remains of the token whose fields are still to be read by `r`: it ends
as the token ends, or it goes on inside the token to that end. -/
def Follows (s : State) (r : Read Instr) (m : Res Unit) : Prop :=
  ∀ t, runFetched (liftRead s r) = .next t →
    settle m = .next t ∨
    ∃ u, m = .ok () u ∧ insideToken u.fsm ∧ u.ports = s.ports ∧ u.status = s.status ∧ Performs u t

/-- The micro-states from control state `f` on perform what remains of the token. -/
abbrev Simulates (s : State) (c : Cursor) (f : Fsm) (w : Work) (r : Read Instr) : Prop :=
  Follows s r (microOf f (s.inside c f w))

theorem Simulates.performs {r : Read Instr} (h : Simulates s c f w r) (ht : runFetched (liftRead s r) = .next t) :
    Performs (s.inside c f w) t := by
  have hres : microRes (s.inside c f w) = microOf f (s.inside c f w) := microRes_eq_microOf _
  rcases h t ht with hlast | ⟨u, hu, hf, hports, hstatus, hrun⟩
  · exact .last (by rw [microStep, hres, hlast])
  · exact .more (microStep_of_microRes (hres.trans hu)) hf hports hstatus hrun

/-- A micro-step that goes to a control state inside the token. -/
theorem Simulates.follows {r : Read Instr} (h : Simulates s c f w r) (hf : insideToken f) :
    Follows s r (.ok () (s.inside c f w)) :=
  fun _ ht => .inr ⟨_, rfl, hf, rfl, rfl, h.performs ht⟩

/-- The decoder and the micro-state read the same bit. -/
theorem follows_readBit {k : Bool → Cursor → Read Instr} {m : Bool → State → Res Unit}
    (h : ∀ b d, Follows s (k b d) (m b (s.inside d f w))) :
    Follows s ((readBit s.source c).bind k) ((nextBit (s.inside c f w)).bind m) := by
  intro t ht
  have hread : nextBit (s.inside c f w) = liftRead (s.inside c f w) (readBit s.source c) := rfl
  rw [hread]
  cases hr : readBit s.source c with
  | got b d => rw [hr] at ht; exact h b d t ht
  | raised e d => rw [hr] at ht; cases ht; exact .inl rfl
  | noByte a => rw [hr] at ht; cases ht

/-- The decoder and the micro-state read the same byte. -/
theorem follows_readByte {k : Byte → Cursor → Read Instr} {m : Byte → State → Res Unit}
    (h : ∀ v d, Follows s (k v d) (m v (s.inside d f w))) :
    Follows s ((readByte s.source c).bind k) ((nextByte (s.inside c f w)).bind m) := by
  intro t ht
  have hread : nextByte (s.inside c f w) = liftRead (s.inside c f w) (readByte s.source c) := rfl
  rw [hread]
  cases hr : readByte s.source c with
  | got v d => rw [hr] at ht; exact h v d t ht
  | raised e d => rw [hr] at ht; cases ht; exact .inl rfl
  | noByte a => rw [hr] at ht; cases ht

theorem Read.bind_assoc {α β γ : Type} (r : Read α) (k : α → Cursor → Read β) (l : β → Cursor → Read γ) :
    (r.bind k).bind l = r.bind fun a c => (k a c).bind l := by
  cases r <;> rfl

/-! ### The copy engine -/

/-- A change of the control state and the working registers is not seen by the output assembler. -/
theorem outputBlind_goto (f : Fsm) (w : Work) : OutputBlind fun s => (s.setWork w).goto f :=
  ⟨fun _ => rfl, fun _ => rfl, fun _ => rfl, fun _ _ => rfl⟩

theorem modeWrites_leaveToken (off : Nat) (mode : CopyMode) (f : Fsm) (w : Work) (s : State) :
    (modeWrites off mode ((s.setWork w).goto f)).leaveToken .b1 = (modeWrites off mode s).leaveToken .b1 := by
  cases mode <;> rfl

/-- What a token ends in does not depend on the control state and the working registers either. -/
theorem finishToken_goto (off : Nat) (mode : CopyMode) (f : Fsm) (w : Work) (r : Res Unit) :
    finishToken (modeWrites off mode) (r.map fun s => (s.setWork w).goto f) =
      finishToken (modeWrites off mode) r := by
  cases r with
  | ok _ s => exact congrArg Host.Outcome.next (modeWrites_leaveToken off mode f w s)
  | raised e s => rfl
  | fault g => rfl

/-- `S_COPY` with `n + 1` bytes to go performs the copy loop and the token's writes. -/
theorem performs_copy {n : Nat} (hf : s.fsm = .copy) (hcnt : s.work.cnt = n + 1)
    (ht : finishToken (modeWrites s.work.off s.work.mode) (copyLoop s.work.off (n + 1) s) = .next t) :
    Performs s t := by
  induction n generalizing s with
  | zero =>
    rw [copyLoop] at ht
    cases hr : copyByte s.work.off s with
    | ok _ u =>
      rw [hr] at ht
      obtain ⟨-, rfl⟩ := copyByte_ok hr
      refine .more (microStep_copy_of_ok hf hr) ?_ rfl rfl (.last ?_)
      · simp [State.countDown, hcnt, insideToken]
      · rw [microStep_fin (by simp [State.countDown, hcnt]), finWrites_eq, ← ht]
        exact congrArg Host.Outcome.next (modeWrites_leaveToken s.work.off s.work.mode _ _ _)
    | raised e u => rw [hr] at ht; cases ht; exact .last (microStep_copy_of_raised hf hr)
    | fault g => rw [hr] at ht; cases ht
  | succ n ih =>
    rw [copyLoop] at ht
    cases hr : copyByte s.work.off s with
    | ok _ u =>
      rw [hr, Res.ok_bind] at ht
      obtain ⟨-, rfl⟩ := copyByte_ok hr
      have hcopy : (if s.work.cnt - 1 ≠ 0 then Fsm.copy else .fin) = .copy := if_pos (by omega)
      refine .more (microStep_copy_of_ok hf hr) ?_ rfl rfl (ih hcopy ?_ ?_)
      · simp [State.countDown, hcnt, insideToken]
      · simp [State.countDown, hcnt]
      · rw [← ht, ← finishToken_goto s.work.off s.work.mode (if s.work.cnt - 1 ≠ 0 then .copy else .fin)
          { s.work with cnt := s.work.cnt - 1 }, ← copyLoop_map (outputBlind_goto _ _)]
        rfl
    | raised e u => rw [hr] at ht; cases ht; exact .last (microStep_copy_of_raised hf hr)
    | fault g => rw [hr] at ht; cases ht

/-- `S_CHK` and the states after it perform a back-reference token whose operands the working registers hold. -/
theorem simulates_chk {i : Instr} (hcopy : copyOf i s = some (w.off, w.len)) (hvalid : copyValid s i = w.ovalid)
    (hwrites : tokenWrites s i = modeWrites w.off w.mode) (hlen : 1 ≤ w.len) :
    Simulates s c .chk w (.got i c) := by
  intro t ht
  have hexec : exec i (s.setReader c) =
      finishToken (modeWrites w.off w.mode) (backRef w.off w.len w.ovalid (s.setReader c)) := by
    have hcopy' : copyOf i (s.setReader c) = some (w.off, w.len) := hcopy ▸ by cases i <;> rfl
    rw [exec_of_copyOf hcopy', ← hwrites, ← hvalid]
    cases i <;> rfl
  change exec i (s.setReader c) = .next t at ht
  rw [hexec, backRef] at ht
  change settle (microChk _) = .next t ∨ ∃ u, microChk _ = .ok () u ∧ _
  by_cases hbad : badOffset w.off w.ovalid s
  · rw [if_pos (show badOffset w.off w.ovalid (s.setReader c) from hbad)] at ht
    have hmicro : microChk (s.inside c .chk w) = .raised (.invalidBackRef w.off s.outLen) (s.inside c .chk w) :=
      if_pos hbad
    exact .inl (by rw [hmicro, ← ht]; rfl)
  · rw [if_neg (show ¬ badOffset w.off w.ovalid (s.setReader c) from hbad)] at ht
    have hmicro : microChk (s.inside c .chk w) = .ok () (s.inside c .copy { w with cnt := w.len }) := if_neg hbad
    obtain ⟨n, hn⟩ : ∃ n, w.len = n + 1 := ⟨w.len - 1, by omega⟩
    refine .inr ⟨_, hmicro, (by decide : insideToken .copy), rfl, rfl, performs_copy rfl hn ?_⟩
    rw [hn, ← finishToken_goto w.off w.mode .copy { w with cnt := w.len },
      ← copyLoop_map (outputBlind_goto .copy { w with cnt := w.len })] at ht
    exact ht

/-! ### Gamma values -/

/-- `S_GD` and `S_GC` perform the gamma loop, when what follows is performed from where `S_GC` goes. -/
theorem simulates_gammaLoop {k : Nat → Cursor → Read Instr} {fuel : Nat} (hpos : 0 < fuel) (hfuel : fuel ≤ s.cfg.gammaW)
    (hacc : gammaAccFits s.cfg.gammaW fuel w.gAcc)
    (hk : ∀ v d, 2 ≤ v → Simulates s d (gammaExit w.gsel) { w with gAcc := v } (k v d)) :
    Simulates s c .gd w ((gammaLoop s.source s.cfg.gammaW fuel w.gAcc c).bind k) := by
  induction fuel generalizing c w with
  | zero => cases hpos
  | succ fuel ih =>
    rw [gammaLoop, Read.bind_assoc]
    refine follows_readBit fun b d => ?_
    have hfull := gammaFull_iff_of_accFits hfuel hacc
    change Follows s _ (if gammaFull s.cfg.gammaW w.gAcc then .raised (.gammaOverflow d.inPtr) (s.inside d .gd w)
      else .ok () (s.inside d .gc { w with gAcc := shiftIn w.gAcc b }))
    by_cases hf : gammaFull s.cfg.gammaW w.gAcc = true
    · rw [if_pos hf, if_pos hf]
      exact fun t ht => .inl ht
    · rw [if_neg hf, if_neg hf, Read.bind_assoc]
      have hfits := gammaAccFits_shiftIn b hfuel hacc
      refine Simulates.follows (follows_readBit fun more e => ?_) (by decide)
      cases more with
      | true =>
        exact (ih (w := { w with gAcc := shiftIn w.gAcc b }) (Nat.pos_of_ne_zero (mt hfull.2 hf)) (by omega) hfits
          hk).follows (by decide)
      | false =>
        have hv : 2 ≤ shiftIn w.gAcc b :=
          (Nat.le_self_pow (by omega) 2).trans hfits.1
        have hexit : insideToken (gammaExit w.gsel) := by cases w.gsel <;> decide
        exact (hk _ e hv).follows hexit

/-- `S_GD` and `S_GC` perform `Gamma`. -/
theorem simulates_readGamma {k : Nat → Cursor → Read Instr} (hw : 1 ≤ s.cfg.gammaW) (hacc : w.gAcc = 1)
    (hk : ∀ v d, 2 ≤ v → Simulates s d (gammaExit w.gsel) { w with gAcc := v } (k v d)) :
    Simulates s c .gd w ((readGamma s.source s.cfg.gammaW c).bind k) := by
  rw [readGamma, ← hacc]
  exact simulates_gammaLoop hw le_rfl (hacc ▸ gammaAccFits_one _) hk

/-- `S_GSEL` and the states after it perform the branch `1 0` once `G` is read (R166). -/
theorem simulates_gsel (hw : 1 ≤ s.cfg.gammaW) :
    Simulates s c .gsel w
      (if s.lwm = false ∧ w.gAcc = 2 then
        (readGamma s.source s.cfg.gammaW c).bind fun n c => .got (.repmatch n) c
      else
        (readByte s.source c).bind fun lo c =>
          (readGamma s.source s.cfg.gammaW c).bind fun n c => .got (.gmatch w.gAcc lo n) c) := by
  change Follows s _ (if s.lwm = false ∧ w.gAcc = 2 then
      .ok () (s.inside c .gd { w with mode := .rep, gAcc := 1, gsel := .len })
    else .ok () (s.inside c .glo { w with mode := .gm, high := highOf s.lwm w.gAcc }))
  by_cases h : s.lwm = false ∧ w.gAcc = 2
  · rw [if_pos h, if_pos h]
    refine Simulates.follows (simulates_readGamma hw rfl fun n d hn => ?_) (by decide)
    exact Simulates.follows (simulates_chk (i := .repmatch n) rfl rfl rfl (Nat.one_le_of_lt hn)) (by decide)
  · rw [if_neg h, if_neg h]
    refine Simulates.follows (follows_readByte fun lo d => ?_) (by decide)
    refine Simulates.follows (simulates_readGamma hw rfl fun n e hn => ?_) (by decide)
    exact Simulates.follows
      (simulates_chk (i := .gmatch w.gAcc lo n) rfl rfl rfl (Nat.le_add_right_of_le (Nat.one_le_of_lt hn))) (by decide)

/-- `S_GD` performs the branch `1 0` from its first gamma value on. -/
theorem simulates_gammaBranch (hw : 1 ≤ s.cfg.gammaW) (hacc : w.gAcc = 1) (hsel : w.gsel = .off) :
    Simulates s c .gd w (decodeGammaBranch s.source s.cfg.gammaW s.lwm c) := by
  refine simulates_readGamma hw hacc fun g d _ => ?_
  rw [hsel]
  exact simulates_gsel (w := { w with gAcc := g, gsel := .off }) hw

/-! ### The other branches -/

/-- What remains of a token that appends its byte, in a micro-state that does so and leaves the token. -/
theorem follows_append {i : Instr} {v : Byte} (hv : appendedByte i = some v) :
    Follows s (.got i c)
      ((append v (s.inside c f w)).bind fun _ u => .ok () ((tokenWrites s i u).leaveToken .b1)) := by
  intro t ht
  change exec i (s.setReader c) = .next t at ht
  rw [exec_of_appendedByte hv] at ht
  have hsame : append v (s.inside c f w) = (append v (s.setReader c)).map fun s => (s.setWork w).goto f :=
    append_map (outputBlind_goto f w) v (s.setReader c)
  rw [hsame]
  left
  rw [← ht]
  cases append v (s.setReader c) with
  | ok _ u => cases i <;> cases hv <;> rfl
  | raised e u => rfl
  | fault g => rfl

theorem Res.bind_assoc {α β γ : Type} (r : Res α) (k : α → State → Res β) (l : β → State → Res γ) :
    (r.bind k).bind l = r.bind fun a s => (k a s).bind l := by
  cases r <;> rfl

theorem simulates_init : Simulates s c .init w (decodeInit s.source c) := by
  change Follows s _ (microInit _)
  rw [microInit, copyLiteral_one, Res.bind_assoc]
  exact follows_readByte fun l d => follows_append (i := .init l) rfl

theorem simulates_lit : Simulates s c .lit w ((readByte s.source c).bind fun l c => .got (.lit l) c) := by
  change Follows s _ (microLit _)
  rw [microLit, copyLiteral_one, Res.bind_assoc]
  exact follows_readByte fun l d => follows_append (i := .lit l) rfl

theorem simulates_shortBranch : Simulates s c .sraw w (decodeShortBranch s.source c) := by
  refine follows_readByte fun raw d => ?_
  by_cases h : raw.extractLsb' 1 7 = 0#7
  · rw [if_pos h, if_pos h]
    exact fun t ht => .inl ht
  · rw [if_neg h, if_neg h]
    exact Simulates.follows
      (simulates_chk (w := { w with raw := raw, off := shortOff raw, len := shortLen raw, ovalid := true, mode := .sm })
        (i := .smatch raw) rfl rfl rfl (Nat.le_add_right_of_le (by decide))) (by decide)

theorem simulates_zlit : Simulates s c .zlit w (.got .zlit c) := follows_append rfl

/-- Shifting a bit into the nibble is shifting it into the number. -/
theorem nibShiftIn_ofNat (acc : Nat) (b : Bool) : nibShiftIn (BitVec.ofNat 4 acc) b = BitVec.ofNat 4 (shiftIn acc b) :=
  nibShiftIn_eq_of_toNat (by simp only [BitVec.toNat_ofNat, shiftIn]; omega)

/-- `S_NIB` performs the nibble reads that are left, and what they select (R209). -/
theorem simulates_readBits {n acc : Nat} (hpos : 0 < n) (hnib : w.nib = BitVec.ofNat 4 acc)
    (hcnt : w.nibCnt.toNat + n = 4) :
    Simulates s c .nib w ((readBits s.source n acc c).bind fun v c =>
      if BitVec.ofNat 4 v = 0#4 then .got .zlit c else .got (.nmatch (BitVec.ofNat 4 v)) c) := by
  induction n generalizing c w acc with
  | zero => cases hpos
  | succ n ih =>
    rw [readBits, Read.bind_assoc]
    refine follows_readBit fun b d => ?_
    have hshift : nibShiftIn w.nib b = BitVec.ofNat 4 (shiftIn acc b) := by rw [hnib, nibShiftIn_ofNat]
    change Follows s _ (.ok () (s.inside d .nib
      { w with nib := nibShiftIn w.nib b, nibCnt := w.nibCnt + 1#3 }).afterNibbleBit)
    rw [hshift]
    obtain rfl | hn := Nat.eq_zero_or_pos n
    · have hlast : w.nibCnt + 1#3 = 4#3 := by bv_omega
      rw [hlast, readBits, Read.got_bind]
      by_cases h0 : BitVec.ofNat 4 (shiftIn acc b) = 0#4
      · rw [if_pos h0, afterNibbleBit_of_zero rfl h0]
        exact simulates_zlit.follows (by decide)
      · rw [if_neg h0, afterNibbleBit_of_match rfl h0]
        exact Simulates.follows (simulates_chk
          (w := { w with
            nib := BitVec.ofNat 4 (shiftIn acc b), nibCnt := 4#3, off := nibbleOff (BitVec.ofNat 4 (shiftIn acc b)),
            len := 1, ovalid := true, mode := .nm })
          (i := .nmatch (BitVec.ofNat 4 (shiftIn acc b))) rfl rfl rfl le_rfl) (by decide)
    · have hlt : w.nibCnt + 1#3 < 4#3 := by bv_omega
      have hnext : (w.nibCnt + 1#3).toNat + n = 4 := by bv_omega
      rw [afterNibbleBit_of_lt hlt]
      exact (ih (w := { w with nib := BitVec.ofNat 4 (shiftIn acc b), nibCnt := w.nibCnt + 1#3 }) hn rfl
        hnext).follows (by decide)

/-- The micro-states from `S_B1` on perform the token (R204 to R207). -/
theorem simulates_token (hw : 1 ≤ s.cfg.gammaW) :
    Simulates s c .b1 w (decodeToken s.source s.cfg.gammaW s.lwm c) := by
  refine follows_readBit fun b1 c1 => ?_
  cases b1 with
  | false => exact simulates_lit.follows (by decide)
  | true =>
    refine Simulates.follows (f := .b2) (follows_readBit fun b2 c2 => ?_) (by decide)
    cases b2 with
    | false =>
      exact (simulates_gammaBranch (w := { w with gAcc := 1, gsel := .off }) hw rfl rfl).follows (by decide)
    | true =>
      refine Simulates.follows (f := .b3) (follows_readBit fun b3 c3 => ?_) (by decide)
      cases b3 with
      | false => exact simulates_shortBranch.follows (by decide)
      | true =>
        exact (simulates_readBits (w := { w with nib := 0#4, nibCnt := 0#3 }) (by decide) rfl rfl).follows (by decide)

/-- A step between tokens is performed by micro-steps. -/
theorem step_performs (hw : 1 ≤ s.cfg.gammaW) (hb : atBoundary s) (hq : portsQuiet s) (h : step s = .next t) :
    Performs s t := by
  rw [step_of_quiet hq] at h
  rcases hb with hf | hf
  · rw [coreStep_of_init hf] at h
    have := (simulates_init (w := s.work)).performs h
    rwa [← hf] at this
  · rw [coreStep_of_b1 hf] at h
    have := (simulates_token (w := s.work) hw).performs h
    rwa [← hf] at this

/-- Settles O46: the simulation, counted in transitions. -/
theorem microStepsPerformTheToken : Obligations.MicroStepsPerformTheToken := by
  intro s t hinv hb hq h
  obtain ⟨hw, -⟩ := hinv.width
  exact (step_performs (Nat.one_le_of_lt hw) hb hq h).iterate hq

end Sys2Proof.Machine
end

section
/-! PROOFS. The invariant: every transition of either level keeps it, and a core that meets it goes on. A micro-step is
taken state by state; a token step keeps the invariant because micro-steps perform it. -/

namespace Sys2Proof.Machine

variable {s t u : State}

/-- What the invariant says of a running decode apart from the control state and the working registers. -/
structure Running (s : State) : Prop where
  memory     : MemoryInv s
  position   : PositionInv s
  cfg        : s.cfg.wf
  inLen      : s.ports.inLen < 2 ^ s.cfg.inAw
  lastOffset : s.lastOffset < 2 ^ s.cfg.offW
  status     : s.status = .busy
  done       : s.done = false
  errCode    : s.errCode = .none
  recovered  : s.recovered = false
  offset     : s.lastOffsetValid = true → 1 ≤ s.lastOffset ∧ s.lastOffset ≤ s.outLen
  lwm        : s.lwm = true → s.lastOffsetValid = true

/-- The working registers are within their widths (R7, R28). -/
structure WorkFits (cfg : Config) (w : Work) : Prop where
  gAcc : w.gAcc < 2 ^ cfg.gammaW
  off  : w.off < 2 ^ cfg.offW
  len  : w.len < 2 ^ cfg.lenW
  cnt  : w.cnt < 2 ^ cfg.lenW
  high : w.high < 2 ^ cfg.gammaW

/-- What the invariant says of the working registers in one control state (R206 to R218). -/
def TokenInv (s : State) : Fsm → Prop
  | .gd => 1 ≤ s.work.gAcc ∧ (s.work.gsel = .len → gammaMode s.work)
  | .gc => 2 ≤ s.work.gAcc ∧ (s.work.gsel = .len → gammaMode s.work)
  | .gsel => 2 ≤ s.work.gAcc
  | .glo => s.work.mode = .gm
  | .glen => 2 ≤ s.work.gAcc ∧ gammaMode s.work
  | .nib => s.work.nibCnt < 4#3
  | .chk => 1 ≤ s.work.len ∧ (s.work.mode = .rep → s.work.ovalid = true → s.lastOffsetValid = true)
  | .copy => 1 ≤ s.work.cnt ∧ 1 ≤ s.work.off ∧ s.work.off ≤ s.outLen ∧
      (s.work.mode = .rep → s.lastOffsetValid = true)
  | .fin => 1 ≤ s.work.off ∧ s.work.off ≤ s.outLen ∧ (s.work.mode = .rep → s.lastOffsetValid = true)
  | _ => True

theorem tokenInv_iff : TokenInv s s.fsm ↔ FieldInv s ∧ CopyInv s := by
  cases hf : s.fsm <;> simp [TokenInv, FieldInv, CopyInv, hf]

/-- The control states of a running decode. -/
abbrev runningFsm (f : Fsm) : Prop := f ≠ .idle ∧ f ≠ .stop

theorem Inv.workFits (h : Inv s) : WorkFits s.cfg s.work := by
  obtain ⟨-, -, -, hgAcc, hoff, hlen, hcnt, hhigh⟩ := h.width
  exact ⟨hgAcc, hoff, hlen, hcnt, hhigh⟩

theorem Inv.tokenInv (h : Inv s) : TokenInv s s.fsm := tokenInv_iff.2 ⟨h.fields, h.copies⟩

theorem Inv.status_busy (h : Inv s) (hf : runningFsm s.fsm) : s.status = .busy := by
  obtain ⟨hidle, hstop, -⟩ := h.status
  cases hs : s.status with
  | idle => exact absurd (hidle.2 hs) hf.1
  | busy => rfl
  | done => exact absurd (hstop.2 (.inl hs)) hf.2
  | error => exact absurd (hstop.2 (.inr hs)) hf.2

theorem Inv.running (h : Inv s) (hf : runningFsm s.fsm) : Running s := by
  have hbusy := h.status_busy hf
  obtain ⟨hcfg, hinLen, hlast, -⟩ := h.width
  obtain ⟨-, -, hdone, hrecovered, herr, -, -⟩ := h.status
  obtain ⟨hoffset, hlwm⟩ := h.offset hbusy
  rw [hbusy] at hdone hrecovered herr
  refine ⟨h.memory, h.position, hcfg, hinLen, hlast, hbusy, ?_, ?_, ?_, hoffset, hlwm⟩
  · simpa using mt hdone.1 (by simp)
  · simpa using herr
  · simpa using mt hrecovered.1 (by simp)

theorem Running.inv (h : Running s) (hf : runningFsm s.fsm) (hw : WorkFits s.cfg s.work) (ht : TokenInv s s.fsm) :
    Inv s := by
  obtain ⟨hfields, hcopies⟩ := tokenInv_iff.1 ht
  refine ⟨h.memory, h.position, ⟨h.cfg, h.inLen, h.lastOffset, hw.gAcc, hw.off, hw.len, hw.cnt, hw.high⟩, ?_,
    fun _ => ⟨h.offset, h.lwm⟩, hfields, hcopies⟩
  rw [StatusInv, h.status, h.done, h.errCode, h.recovered]
  simp [hf.1, hf.2]

/-! ### Memories and positions -/

/-- Consuming fields and appending bytes keeps the memories' and the positions' part of the invariant. -/
theorem Progress.keeps {fs : List Field} {vs : List Byte} (h : Progress fs vs s t) (hm : MemoryInv s)
    (hp : PositionInv s) : MemoryInv t ∧ PositionInv t := by
  obtain ⟨hinWf, houtWf, hin, hout, hwritten⟩ := hm
  obtain ⟨hptr, hlenQ, hcap, hclean⟩ := hp
  obtain ⟨hcfg, -, -, hlen, hmem⟩ := h.setup
  obtain ⟨-, hinput, htag⟩ := readsAs_cursor h.reader
  have hroom : t.outLen ≤ s.cfg.outCap := by
    cases vs with
    | nil => rw [h.outLen]; exact hcap
    | cons v vs => exact h.room (List.cons_ne_nil v vs)
  have hread (a : Nat) (ha : a < t.outLen) : (t.outMem.read a).isSome = true := by
    rw [h.outMem]
    by_cases hold : a < s.outLen
    · rw [Memory.read_writeAll_outside _ _ _ _ (.inl hold)]
      exact hwritten a hold
    · have hi : a - s.outLen < vs.length := by rw [h.outLen] at ha; omega
      have := Memory.read_writeAll_inside s.outMem s.outLen vs (a - s.outLen) hi
      rw [show s.outLen + (a - s.outLen) = a by omega] at this
      rw [this]
      rfl
  refine ⟨⟨hmem ▸ hinWf, h.outMem ▸ Memory.wf_writeAll houtWf _ _, ?_, ?_, hread⟩, ?_⟩
  · rw [hmem, hcfg]
    exact hin
  · intro c hc
    rw [h.outMem] at hc
    rw [hcfg]
    cases vs with
    | nil => exact hout c hc
    | cons v vs =>
      rcases Memory.mem_writeAll hc with hlt | hc
      · rw [← h.outLen] at hlt
        exact hlt.trans_le hroom
      · exact hout c hc
  · rw [PositionInv, hlen, hcfg]
    exact ⟨(hinput hptr).1, hlenQ, hroom, htag hclean⟩

/-- The registers of `Running` that reads and appends leave. -/
abbrev sameControl (s t : State) : Prop :=
  t.status = s.status ∧ t.done = s.done ∧ t.errCode = s.errCode ∧ t.recovered = s.recovered ∧ sameOffset s t ∧
  t.lwm = s.lwm

theorem Running.progress {fs : List Field} {vs : List Byte} (h : Running s) (hp : Progress fs vs s t)
    (hc : sameControl s t) : Running t := by
  obtain ⟨hmemory, hposition⟩ := hp.keeps h.memory h.position
  obtain ⟨hcfg, hports, -⟩ := hp.setup
  obtain ⟨hstatus, hdone, herr, hrecovered, ⟨hlast, hvalid⟩, hlwm⟩ := hc
  refine ⟨hmemory, hposition, hcfg ▸ h.cfg, ?_, ?_, hstatus.trans h.status, hdone.trans h.done, herr.trans h.errCode,
    hrecovered.trans h.recovered, ?_, ?_⟩
  · rw [hports, hcfg]
    exact h.inLen
  · rw [hlast, hcfg]
    exact h.lastOffset
  · rw [hlast, hvalid]
    exact fun hv => ⟨(h.offset hv).1, (h.offset hv).2.trans hp.outLen_le⟩
  · rw [hlwm, hvalid]
    exact h.lwm

theorem Running.setReader {fs : List Field} {c : Cursor} (h : Running s) (hc : readsAs s.source fs s.rd = some c) :
    Running (s.setReader c) := h.progress (.setReader hc) ⟨rfl, rfl, rfl, rfl, ⟨rfl, rfl⟩, rfl⟩

theorem Running.storeOut {v : Byte} (h : Running s) (hroom : s.outLen < s.cfg.outCap) : Running (s.storeOut v) :=
  h.progress (Appended.storeOut hroom).progress ⟨rfl, rfl, rfl, rfl, ⟨rfl, rfl⟩, rfl⟩

theorem Running.goto (h : Running s) (w : Work) (f : Fsm) : Running ((s.setWork w).goto f) :=
  ⟨h.memory, h.position, h.cfg, h.inLen, h.lastOffset, h.status, h.done, h.errCode, h.recovered, h.offset, h.lwm⟩

theorem Running.setLwm {b : Bool} (h : Running s) (hb : b = true → s.lastOffsetValid = true) : Running (s.setLwm b) :=
  ⟨h.memory, h.position, h.cfg, h.inLen, h.lastOffset, h.status, h.done, h.errCode, h.recovered, h.offset, hb⟩

theorem Running.commitMatch {off : Nat} (h : Running s) (hwidth : off < 2 ^ s.cfg.offW) (hoff : 1 ≤ off)
    (hle : off ≤ s.outLen) : Running (s.commitMatch off) :=
  ⟨h.memory, h.position, h.cfg, h.inLen, hwidth, h.status, h.done, h.errCode, h.recovered, fun _ => ⟨hoff, hle⟩,
    fun _ => rfl⟩

/-! ### The ends of a token -/

/-- A free value is cut to its register's width (log 5). -/
theorem workFits_freeWork (cfg : Config) (draw : Nat) : WorkFits cfg (freeWork cfg draw) :=
  ⟨Nat.mod_lt _ (by positivity), Nat.mod_lt _ (by positivity), Nat.mod_lt _ (by positivity),
    Nat.mod_lt _ (by positivity), Nat.mod_lt _ (by positivity)⟩

theorem Running.leaveToken (h : Running s) (f : Fsm) : Running (s.leaveToken f) :=
  ⟨h.memory, h.position, h.cfg, h.inLen, h.lastOffset, h.status, h.done, h.errCode, h.recovered, h.offset, h.lwm⟩

theorem Running.inv_leaveToken (h : Running s) : Inv (s.leaveToken .b1) :=
  (h.leaveToken .b1).inv ⟨nofun, nofun⟩ (workFits_freeWork _ _) trivial

/-- A decode that has stopped: what is left of the invariant is its status. -/
theorem Running.inv_stop (h : Running s) (ht : regsOnly s t) (hf : t.fsm = .stop)
    (hwork : t.work = freeWork s.cfg s.draws) (hlast : t.lastOffset < 2 ^ s.cfg.offW)
    (hended : t.status ≠ .busy) (hstatus : StatusInv t) : Inv t := by
  obtain ⟨⟨hcfg, hports, -, hlen, hmem⟩, hrd, houtLen, houtMem⟩ := ht
  obtain ⟨hgAcc, hoff, hlenW, hcnt, hhigh⟩ := workFits_freeWork s.cfg s.draws
  have htoken := tokenInv_iff.1 (hf ▸ trivial : TokenInv t t.fsm)
  refine ⟨?_, ?_, ?_, hstatus, fun hb => absurd hb hended, htoken.1, htoken.2⟩
  · rw [MemoryInv, hcfg, hmem, houtMem, houtLen]; exact h.memory
  · rw [PositionInv, hcfg, hrd, hlen, houtLen]; exact h.position
  · rw [WidthInv, hcfg, hports, hwork]; exact ⟨h.cfg, h.inLen, hlast, hgAcc, hoff, hlenW, hcnt, hhigh⟩

theorem Running.inv_takeError (h : Running s) (e : ErrorKind) : Inv (s.takeError e) := by
  have hdone : (s.takeError e).done = false := h.done
  have herr := errCodeOf_ne_none e
  refine h.inv_stop (regsOnly_takeError e s) rfl rfl h.lastOffset ?_ ?_
  · rw [State.takeError_status]; split <;> nofun
  · rw [StatusInv, hdone, State.takeError_status, State.takeError_fsm, State.takeError_errCode,
      State.takeError_recovered, State.takeError_strictQ]
    cases s.strictQ <;> simp [herr]

theorem Running.inv_endDecode (h : Running s) : Inv s.endDecode :=
  h.inv_stop (regsOnly_endDecode s) rfl rfl (by rw [State.endDecode_lastOffset]; positivity) nofun (by simp [StatusInv])

/-! ### Operations that cannot fault -/

/-- The operation does not fault, and ends in a state with the property that belongs to its end. -/
def Res.Post {α : Type} (P : α → State → Prop) (Q : State → Prop) : Res α → Prop
  | .ok v t => P v t
  | .raised _ t => Q t
  | .fault _ => False

theorem Res.Post.bind {α β : Type} {P : α → State → Prop} {P' : β → State → Prop} {Q : State → Prop} {r : Res α}
    {k : α → State → Res β} (hr : r.Post P Q) (hk : ∀ v t, P v t → (k v t).Post P' Q) : (r.bind k).Post P' Q := by
  cases r with
  | ok v t => exact hk v t hr
  | raised e t => exact hr
  | fault f => exact hr

/-- A read of a running decode finds every byte before the end of the input. -/
theorem Running.liftRead_post {α : Type} {r : Read α} (h : Running s) (hr : r.Consumes s.source s.rd) :
    (liftRead s r).Post (fun _ t => ∃ c, t = s.setReader c ∧ Running t) Running := by
  cases r with
  | got v c =>
    obtain ⟨fs, hfs⟩ := hr
    exact ⟨c, rfl, h.setReader hfs⟩
  | raised e c =>
    obtain ⟨⟨fs, hfs⟩, -⟩ := hr
    exact h.setReader hfs
  | noByte a =>
    obtain ⟨fs, d, hfs, rfl, hne, hbyte⟩ := hr
    obtain ⟨hptr, hlenQ, -⟩ := h.position
    obtain ⟨hd, -⟩ := (readsAs_cursor hfs).2.1 hptr
    rw [source_len] at hd hne
    rw [source_byte_of_lt (by omega)] at hbyte
    cases hbyte

theorem Running.nextBit_post (h : Running s) :
    (nextBit s).Post (fun _ t => ∃ c, t = s.setReader c ∧ Running t) Running :=
  h.liftRead_post (readBit_consumes s.rd)

theorem Running.nextByte_post (h : Running s) :
    (nextByte s).Post (fun _ t => ∃ c, t = s.setReader c ∧ Running t) Running :=
  h.liftRead_post (readByte_consumes s.rd)

theorem Running.append_post (h : Running s) (v : Byte) : (append v s).Post (fun _ t => Running t) Running := by
  obtain ⟨-, -, hcap, -⟩ := h.position
  rcases hcap.lt_or_eq with hroom | hfull
  · rw [append_of_room hroom]
    exact h.storeOut hroom
  · rw [append_of_full hfull]
    exact h

theorem Running.copyByte_post {off : Nat} (h : Running s) (hoff : 1 ≤ off) (hle : off ≤ s.outLen) :
    (copyByte off s).Post (fun _ t => (∃ v, t = s.storeOut v) ∧ Running t) Running := by
  obtain ⟨-, -, hcap, -⟩ := h.position
  rcases hcap.lt_or_eq with hroom | hfull
  · rw [copyByte_of_room hroom]
    exact ⟨⟨_, rfl⟩, h.storeOut hroom⟩
  · rw [copyByte_of_full hoff hle hfull]
    exact h

/-! ### Widths -/

theorem four_le_two_pow {w : Nat} (h : 2 ≤ w) : 4 ≤ 2 ^ w := Nat.pow_le_pow_right (n := 2) (by decide) h

theorem bump_le (cfg : Config) (off : Nat) : bump cfg off ≤ 4 := by
  unfold bump
  split_ifs <;> omega

theorem offsetOf_lt {cfg : Config} {high : Nat} (h : high < 2 ^ cfg.gammaW) (lo : Byte) :
    offsetOf high lo < 2 ^ cfg.offW := by
  have := lo.isLt
  rw [offsetOf, Config.offW, Nat.pow_add]
  omega

theorem lt_offW_of_lt_256 {cfg : Config} {off : Nat} (h : off < 256) : off < 2 ^ cfg.offW :=
  h.trans_le (Nat.pow_le_pow_right (n := 2) (by decide) (Nat.le_add_left 8 cfg.gammaW))

theorem lt_lenW {cfg : Config} (hw : cfg.wf) {g len : Nat} (hg : g < 2 ^ cfg.gammaW) (h : len ≤ g + 4) :
    len < 2 ^ cfg.lenW := by
  have := four_le_two_pow hw
  rw [Config.lenW, Nat.pow_succ]
  omega

theorem shiftIn_lt_of_room {w acc : Nat} (hw : 1 ≤ w) (h : acc < 2 ^ w) (hroom : gammaFull w acc = false) (b : Bool) :
    shiftIn acc b < 2 ^ w := by
  have hlt : acc < 2 ^ (w - 1) := by
    by_contra hge
    rw [(gammaFull_iff hw h).2 (Nat.not_lt.1 hge)] at hroom
    cases hroom
  have hpow : 2 ^ w = 2 ^ (w - 1) * 2 := by rw [← Nat.pow_succ, Nat.succ_eq_add_one, Nat.sub_add_cancel hw]
  have := Bool.toNat_lt b
  rw [shiftIn]
  omega

theorem highOf_lt {w g : Nat} (h : g < 2 ^ w) (lwm : Bool) : highOf lwm g < 2 ^ w := by
  unfold highOf
  split <;> omega

/-! ### The micro-states -/

theorem Running.inv_startGamma {w : Work} {g : GammaSel} (h : Running s) (hw : WorkFits s.cfg w)
    (hmode : g = .len → gammaMode w) : Inv ((s.setWork w).startGamma g) := by
  have hpos : s.cfg.gammaW ≠ 0 := by have : 2 ≤ s.cfg.gammaW := h.cfg; omega
  exact (h.goto { w with gAcc := 1, gsel := g } .gd).inv ⟨nofun, nofun⟩
    ⟨Nat.one_lt_two_pow hpos, hw.off, hw.len, hw.cnt, hw.high⟩ ⟨le_rfl, hmode⟩

/-- The operands of a back-reference token are ready for `S_CHK`. -/
theorem Running.inv_chk {w : Work} (h : Running s) (hw : WorkFits s.cfg w) (hlen : 1 ≤ w.len)
    (hrep : w.mode = .rep → w.ovalid = true → s.lastOffsetValid = true) : Inv ((s.setWork w).goto .chk) :=
  (h.goto w .chk).inv ⟨nofun, nofun⟩ hw ⟨hlen, hrep⟩

/-- A raw byte read, appended, and the token left. -/
theorem Running.post_appendByte {k : State → State} (h : Running s) (hk : ∀ t, Running t → Running (k t)) :
    ((copyLiteral 1 s).bind fun _ t => .ok () ((k t).leaveToken .b1)).Post (fun _ t => Inv t) Running := by
  rw [copyLiteral_one]
  have happend : ((nextByte s).bind append).Post (fun _ t => Running t) Running :=
    h.nextByte_post.bind fun v t ⟨_, _, ht⟩ => ht.append_post v
  exact happend.bind fun _ t ht => (hk t ht).inv_leaveToken

section
variable (h : Running s) (hw : WorkFits s.cfg s.work)
include h hw

theorem post_b1 : (microB1 s).Post (fun _ t => Inv t) Running := by
  refine h.nextBit_post.bind ?_
  rintro b _ ⟨c, rfl, ht⟩
  cases b <;> exact (ht.goto s.work _).inv ⟨nofun, nofun⟩ hw trivial

theorem post_b2 : (microB2 s).Post (fun _ t => Inv t) Running := by
  refine h.nextBit_post.bind ?_
  rintro b _ ⟨c, rfl, ht⟩
  cases b with
  | true => exact (ht.goto s.work .b3).inv ⟨nofun, nofun⟩ hw trivial
  | false => exact ht.inv_startGamma (w := s.work) hw nofun

theorem post_b3 : (microB3 s).Post (fun _ t => Inv t) Running := by
  refine h.nextBit_post.bind ?_
  rintro b _ ⟨c, rfl, ht⟩
  cases b with
  | true =>
    exact (ht.goto { s.work with nib := 0#4, nibCnt := 0#3 } .nib).inv ⟨nofun, nofun⟩
      ⟨hw.gAcc, hw.off, hw.len, hw.cnt, hw.high⟩ (by decide : 0#3 < 4#3)
  | false => exact (ht.goto s.work .sraw).inv ⟨nofun, nofun⟩ hw trivial

theorem post_sraw : (microSraw s).Post (fun _ t => Inv t) Running := by
  refine h.nextByte_post.bind ?_
  rintro raw _ ⟨c, rfl, ht⟩
  split
  · exact ht.inv_endDecode
  · have hoff : shortOff raw < 256 := by rw [shortOff_eq]; have := raw.isLt; omega
    have hlen : shortLen raw ≤ 0 + 4 := by rw [shortLen_eq]; omega
    exact ht.inv_chk ⟨hw.gAcc, lt_offW_of_lt_256 hoff, lt_lenW h.cfg (by positivity) hlen, hw.cnt, hw.high⟩
      (Nat.le_add_right_of_le (by decide)) nofun

theorem post_nib (hf : s.fsm = .nib) (htoken : s.work.nibCnt < 4#3) : (microNib s).Post (fun _ t => Inv t) Running := by
  refine h.nextBit_post.bind ?_
  rintro b _ ⟨c, rfl, ht⟩
  change Inv (((s.setReader c).setWork
    { s.work with nib := nibShiftIn s.work.nib b, nibCnt := s.work.nibCnt + 1#3 }).goto s.fsm).afterNibbleBit
  have hfits : WorkFits s.cfg { s.work with nib := nibShiftIn s.work.nib b, nibCnt := s.work.nibCnt + 1#3 } :=
    ⟨hw.gAcc, hw.off, hw.len, hw.cnt, hw.high⟩
  by_cases hlt : s.work.nibCnt + 1#3 < 4#3
  · rw [afterNibbleBit_of_lt hlt, hf]
    exact (ht.goto _ .nib).inv ⟨nofun, nofun⟩ hfits hlt
  · have hlast : s.work.nibCnt + 1#3 = 4#3 := by bv_omega
    by_cases h0 : nibShiftIn s.work.nib b = 0#4
    · rw [afterNibbleBit_of_zero hlast h0]
      exact (ht.goto _ .zlit).inv ⟨nofun, nofun⟩ hfits trivial
    · rw [afterNibbleBit_of_match hlast h0]
      have hoff : nibbleOff (nibShiftIn s.work.nib b) < 256 := (BitVec.isLt _).trans (by decide)
      exact ht.inv_chk ⟨hw.gAcc, lt_offW_of_lt_256 hoff, lt_lenW h.cfg (by positivity) (by decide : 1 ≤ 0 + 4), hw.cnt,
        hw.high⟩ le_rfl nofun

theorem post_gd (htoken : 1 ≤ s.work.gAcc ∧ (s.work.gsel = .len → gammaMode s.work)) :
    (microGd s).Post (fun _ t => Inv t) Running := by
  obtain ⟨hpos, hmode⟩ := htoken
  refine h.nextBit_post.bind ?_
  rintro b _ ⟨c, rfl, ht⟩
  split
  · exact ht
  · next hroom =>
    have hw1 : 1 ≤ s.cfg.gammaW := Nat.one_le_of_lt h.cfg
    have hlt := shiftIn_lt_of_room hw1 hw.gAcc (Bool.eq_false_iff.2 hroom) b
    have htwo : 2 ≤ shiftIn s.work.gAcc b := by rw [shiftIn]; omega
    exact (ht.goto { s.work with gAcc := shiftIn s.work.gAcc b } .gc).inv ⟨nofun, nofun⟩
      ⟨hlt, hw.off, hw.len, hw.cnt, hw.high⟩ ⟨htwo, hmode⟩

theorem post_gc (htoken : 2 ≤ s.work.gAcc ∧ (s.work.gsel = .len → gammaMode s.work)) :
    (microGc s).Post (fun _ t => Inv t) Running := by
  obtain ⟨htwo, hmode⟩ := htoken
  refine h.nextBit_post.bind ?_
  rintro b _ ⟨c, rfl, ht⟩
  cases b with
  | true => exact (ht.goto s.work .gd).inv ⟨nofun, nofun⟩ hw ⟨Nat.one_le_of_lt htwo, hmode⟩
  | false =>
    change Inv (((s.setReader c).setWork s.work).goto (match s.work.gsel with | .off => .gsel | .len => .glen))
    cases hsel : s.work.gsel with
    | off => exact (ht.goto s.work .gsel).inv ⟨nofun, nofun⟩ hw htwo
    | len => exact (ht.goto s.work .glen).inv ⟨nofun, nofun⟩ hw ⟨htwo, hmode hsel⟩

theorem post_gsel : (microGsel s).Post (fun _ t => Inv t) Running := by
  unfold microGsel
  split
  · exact h.inv_startGamma (w := { s.work with mode := .rep }) ⟨hw.gAcc, hw.off, hw.len, hw.cnt, hw.high⟩
      fun _ => .inr rfl
  · exact (h.goto { s.work with mode := .gm, high := highOf s.lwm s.work.gAcc } .glo).inv ⟨nofun, nofun⟩
      ⟨hw.gAcc, hw.off, hw.len, hw.cnt, highOf_lt hw.gAcc s.lwm⟩ rfl

theorem post_glo (htoken : s.work.mode = .gm) : (microGlo s).Post (fun _ t => Inv t) Running := by
  refine h.nextByte_post.bind ?_
  rintro lo _ ⟨c, rfl, ht⟩
  exact ht.inv_startGamma (w := { s.work with raw := lo, off := offsetOf s.work.high lo })
    ⟨hw.gAcc, offsetOf_lt hw.high lo, hw.len, hw.cnt, hw.high⟩ fun _ => .inl htoken

theorem post_glen (htoken : 2 ≤ s.work.gAcc ∧ gammaMode s.work) : (microGlen s).Post (fun _ t => Inv t) Running := by
  obtain ⟨htwo, hmode⟩ := htoken
  change Inv ((s.setWork (glenWork s)).goto .chk)
  rcases hmode with hm | hm
  · have hbump := bump_le s.cfg s.work.off
    rw [glenWork_of_gm hm]
    exact h.inv_chk (w := { s.work with len := s.work.gAcc + bump s.cfg s.work.off, ovalid := true })
      ⟨hw.gAcc, hw.off, lt_lenW h.cfg hw.gAcc (Nat.add_le_add_left hbump _), hw.cnt, hw.high⟩
      (Nat.le_add_right_of_le (Nat.one_le_of_lt htwo)) fun hrep => absurd (hm.symm.trans hrep) nofun
  · rw [glenWork_of_rep hm]
    exact h.inv_chk
      (w := { s.work with len := s.work.gAcc, off := s.lastOffset, ovalid := s.lastOffsetValid })
      ⟨hw.gAcc, h.lastOffset, lt_lenW h.cfg hw.gAcc (Nat.le_add_right _ 4), hw.cnt, hw.high⟩ (Nat.one_le_of_lt htwo)
      fun _ => id

theorem post_chk (htoken : 1 ≤ s.work.len ∧ (s.work.mode = .rep → s.work.ovalid = true → s.lastOffsetValid = true)) :
    (microChk s).Post (fun _ t => Inv t) Running := by
  obtain ⟨hlen, hrep⟩ := htoken
  unfold microChk
  split
  · exact h
  · next hbad =>
    simp only [badOffset, not_or, Bool.not_eq_false, Nat.not_lt] at hbad
    obtain ⟨hvalid, hne, hle⟩ := hbad
    exact (h.goto { s.work with cnt := s.work.len } .copy).inv ⟨nofun, nofun⟩
      ⟨hw.gAcc, hw.off, hw.len, hw.len, hw.high⟩ ⟨hlen, Nat.pos_of_ne_zero hne, hle, fun hm => hrep hm hvalid⟩

theorem post_copy (htoken : TokenInv s .copy) : (microCopy s).Post (fun _ t => Inv t) Running := by
  obtain ⟨hcnt, hoff, hle, hrep⟩ := htoken
  refine (h.copyByte_post hoff hle).bind ?_
  rintro _ _ ⟨⟨v, rfl⟩, ht⟩
  have hfits : WorkFits s.cfg { s.work with cnt := s.work.cnt - 1 } :=
    ⟨hw.gAcc, hw.off, hw.len, (Nat.sub_le _ _).trans_lt hw.cnt, hw.high⟩
  have hle' : s.work.off ≤ s.outLen + 1 := hle.trans (Nat.le_succ _)
  change Inv (((s.storeOut v).setWork { s.work with cnt := s.work.cnt - 1 }).goto
    (if s.work.cnt - 1 ≠ 0 then .copy else .fin))
  by_cases hmore : s.work.cnt - 1 ≠ 0
  · rw [if_pos hmore]
    exact (ht.goto _ .copy).inv ⟨nofun, nofun⟩ hfits ⟨Nat.pos_of_ne_zero hmore, hoff, hle', hrep⟩
  · rw [if_neg hmore]
    exact (ht.goto _ .fin).inv ⟨nofun, nofun⟩ hfits ⟨hoff, hle', hrep⟩

theorem post_fin (htoken : TokenInv s .fin) : (microFin s).Post (fun _ t => Inv t) Running := by
  obtain ⟨hoff, hle, hrep⟩ := htoken
  change Inv (s.finWrites.leaveToken .b1)
  rw [finWrites_eq]
  cases hm : s.work.mode with
  | gm => exact (h.commitMatch hw.off hoff hle).inv_leaveToken
  | sm => exact (h.commitMatch hw.off hoff hle).inv_leaveToken
  | rep => exact (h.setLwm fun _ => hrep hm).inv_leaveToken
  | nm => exact (h.setLwm (b := false) nofun).inv_leaveToken

end

/-- A micro-step of a running decode that meets the invariant does not fault, and keeps the invariant. -/
theorem microRes_post (h : Inv s) (hf : runningFsm s.fsm) : (microRes s).Post (fun _ t => Inv t) Running := by
  have hr := h.running hf
  have hw := h.workFits
  have ht := h.tokenInv
  rw [microRes_eq_microOf]
  cases hfsm : s.fsm with
  | idle => exact absurd hfsm hf.1
  | stop => exact absurd hfsm hf.2
  | init => exact hr.post_appendByte (k := id) fun _ => id
  | lit => exact hr.post_appendByte fun _ ht => ht.setLwm (b := false) nofun
  | zlit => exact (hr.append_post 0#8).bind fun _ _ ht => (ht.setLwm (b := false) nofun).inv_leaveToken
  | b1 => exact post_b1 hr hw
  | b2 => exact post_b2 hr hw
  | b3 => exact post_b3 hr hw
  | sraw => exact post_sraw hr hw
  | gsel => exact post_gsel hr hw
  | nib => rw [hfsm] at ht; exact post_nib hr hw hfsm ht
  | gd => rw [hfsm] at ht; exact post_gd hr hw ht
  | gc => rw [hfsm] at ht; exact post_gc hr hw ht
  | glo => rw [hfsm] at ht; exact post_glo hr hw ht
  | glen => rw [hfsm] at ht; exact post_glen hr hw ht
  | chk => rw [hfsm] at ht; exact post_chk hr hw ht
  | copy => rw [hfsm] at ht; exact post_copy hr hw ht
  | fin => rw [hfsm] at ht; exact post_fin hr hw ht

theorem Inv.of_microStep (h : Inv s) (ht : microStep s = .next t) : Inv t := by
  by_cases hf : runningFsm s.fsm
  · have hpost := microRes_post h hf
    rcases settle_next ht with hok | ⟨e, u, hr, rfl⟩
    · rw [hok] at hpost
      exact hpost
    · rw [hr] at hpost
      exact hpost.inv_takeError e
  · have hstable : s.fsm = .idle ∨ s.fsm = .stop := by
      by_contra hne
      exact hf (not_or.1 hne)
    cases (microStep_of_idle_or_stop hstable).symm.trans ht
    exact h

theorem Inv.of_performs (h : Inv s) (ht : Performs s t) : Inv t := by
  induction ht with
  | last hstep => exact h.of_microStep hstep
  | more hstep _ _ _ _ ih => exact ih (h.of_microStep hstep)

/-! ### The host's requests -/

theorem Inv.applyReset (h : Inv s) : Inv s.applyReset := by
  obtain ⟨hinWf, houtWf, hin, hout, -⟩ := h.memory
  obtain ⟨hcfg, hinLen, -⟩ := h.width
  obtain ⟨hgAcc, hoff, hlen, hcnt, hhigh⟩ := workFits_freeWork s.cfg s.draws
  have hcells : ∀ c ∈ outAfterReset s, c.1 < s.cfg.outCap := by
    intro c hc
    unfold outAfterReset at hc
    split at hc
    · obtain ⟨d, hd, rfl⟩ := List.mem_map.1 hc
      exact hout d hd
    · exact hout c hc
  have htoken := (tokenInv_iff (s := s.applyReset)).1 trivial
  exact ⟨⟨hinWf, Memory.wf_outAfterReset houtWf, hin, hcells, nofun⟩,
    ⟨Nat.zero_le _, Nat.zero_le _, Nat.zero_le _, Nat.zero_mod _⟩,
    ⟨hcfg, hinLen, by rw [State.applyReset_lastOffset]; positivity, hgAcc, hoff, hlen, hcnt, hhigh⟩,
    by simp [StatusInv], nofun, htoken.1, htoken.2⟩

theorem Inv.beginDecode (h : Inv s) (hlen : s.ports.inLen ≤ s.cfg.inCap) : Inv s.beginDecode := by
  obtain ⟨hinWf, houtWf, hin, hout, -⟩ := h.memory
  obtain ⟨hcfg, hinLen, -⟩ := h.width
  have hrunning : Running s.beginDecode :=
    ⟨⟨hinWf, houtWf, hin, hout, nofun⟩, ⟨Nat.zero_le _, hlen, Nat.zero_le _, Nat.zero_mod _⟩, hcfg, hinLen,
      by rw [State.beginDecode_lastOffset]; positivity, rfl, rfl, rfl, rfl, nofun, nofun⟩
  exact hrunning.inv ⟨nofun, nofun⟩ h.workFits trivial

theorem Inv.of_coreStep (h : Inv s) (hq : portsQuiet s) (ht : coreStep s = .next t) : Inv t := by
  by_cases hb : atBoundary s
  · obtain ⟨hcfg, -⟩ := h.width
    rw [← step_of_quiet hq] at ht
    exact h.of_performs (step_performs (Nat.one_le_of_lt hcfg) hb hq ht)
  · rcases coreStep_cases s with ⟨hf, -⟩ | ⟨hf, -⟩ | ⟨-, hs⟩
    · exact absurd (.inl hf) hb
    · exact absurd (.inr hf) hb
    · exact h.of_microStep (hs.symm.trans ht)

/-- A transition under the ports keeps the invariant when the core's own does. -/
theorem Inv.of_underPorts {core : State → Host.Outcome State Fault Refusal} (h : Inv s)
    (hcore : portsQuiet s → core s = .next t → Inv t) (ht : underPorts core s = .next t) : Inv t := by
  rcases underPorts_next ht with ⟨-, -, rfl⟩ | ⟨-, -, -, hlen, rfl⟩ | ⟨hq, ht⟩
  · exact h.applyReset
  · exact h.beginDecode hlen
  · exact hcore hq ht

theorem Inv.of_step (h : Inv s) (ht : step s = .next t) : Inv t := h.of_underPorts h.of_coreStep ht

/-- Settles O44: a reset, a start, a micro-step, or a token that micro-steps perform. -/
theorem everyStepKeepsTheInvariant : Obligations.EveryStepKeepsTheInvariant := by
  rintro s t h (ht | ht)
  · exact h.of_step ht
  · exact h.of_underPorts (fun _ => h.of_microStep) ht

/-! ### Progress -/

theorem settle_of_post {P : Unit → State → Prop} {Q : State → Prop} {r : Res Unit} (h : r.Post P Q) :
    ∃ t, settle r = .next t := by
  cases r with
  | ok v t => exact ⟨t, rfl⟩
  | raised e t => exact ⟨_, rfl⟩
  | fault f => exact h.elim

theorem finishToken_of_post {P : Unit → State → Prop} {Q : State → Prop} {r : Res Unit} (h : r.Post P Q)
    (writes : State → State) : ∃ t, finishToken writes r = .next t := by
  cases r with
  | ok v t => exact ⟨_, rfl⟩
  | raised e t => exact ⟨_, rfl⟩
  | fault f => exact h.elim

theorem Running.copyLoop_post {off : Nat} (n : Nat) (h : Running s) (hoff : 1 ≤ off) (hle : off ≤ s.outLen) :
    (copyLoop off n s).Post (fun _ t => Running t) Running := by
  induction n generalizing s with
  | zero => exact h
  | succ n ih =>
    refine (h.copyByte_post hoff hle).bind ?_
    rintro _ _ ⟨⟨v, rfl⟩, ht⟩
    exact ih ht (hle.trans (Nat.le_succ _))

theorem Running.backRef_post {off : Nat} (n : Nat) (valid : Bool) (h : Running s) :
    (backRef off n valid s).Post (fun _ t => Running t) Running := by
  unfold backRef
  split
  · exact h
  · next hbad =>
    simp only [badOffset, not_or, Nat.not_lt] at hbad
    obtain ⟨-, hne, hle⟩ := hbad
    exact h.copyLoop_post n (Nat.pos_of_ne_zero hne) hle

theorem Running.exists_exec (h : Running s) (i : Instr) : ∃ t, exec i s = .next t := by
  rcases instr_cases i s with ⟨raw, rfl⟩ | ⟨v, hv⟩ | ⟨off, len, hcopy⟩
  · exact ⟨_, rfl⟩
  · rw [exec_of_appendedByte hv]
    exact finishToken_of_post (h.append_post v) _
  · rw [exec_of_copyOf hcopy]
    exact finishToken_of_post (h.backRef_post len _) _

theorem Running.exists_runFetched {r : Read Instr} (h : Running s) (hr : r.Consumes s.source s.rd) :
    ∃ t, runFetched (liftRead s r) = .next t := by
  have hpost := h.liftRead_post hr
  cases r with
  | got i c =>
    obtain ⟨-, -, ht⟩ := hpost
    exact ht.exists_exec i
  | raised e c => exact ⟨_, rfl⟩
  | noByte a => exact hpost.elim

theorem Inv.exists_microStep (h : Inv s) : ∃ t, microStep s = .next t := by
  by_cases hf : runningFsm s.fsm
  · exact settle_of_post (microRes_post h hf)
  · exact ⟨s, microStep_of_idle_or_stop (by by_contra hne; exact hf (not_or.1 hne))⟩

theorem Inv.exists_coreStep (h : Inv s) : ∃ t, coreStep s = .next t := by
  rcases coreStep_cases s with ⟨hf, hs⟩ | ⟨hf, hs⟩ | ⟨-, hs⟩ <;> rw [hs]
  · exact (h.running (by rw [hf]; decide)).exists_runFetched (decodeInit_consumes s.rd)
  · exact (h.running (by rw [hf]; decide)).exists_runFetched (decodeToken_consumes _ _ s.rd)
  · exact h.exists_microStep

/-- Settles O45: with quiet ports the step is the core's, and no operation of a core that meets the invariant faults. -/
theorem runningCoreNeverFaults : Obligations.RunningCoreNeverFaults := by
  intro s h hq
  rw [step_of_quiet hq, microMachine_of_quiet hq]
  exact ⟨h.exists_coreStep, h.exists_microStep⟩

end Sys2Proof.Machine
end

section
/-! PROOFS. Runs of tokens: they end (R189), they depend on nothing but their input and parameters (R190), and a shorter
input gives the beginning of the output (R239). Each is a fact about one step between tokens, carried along the run. -/

namespace Sys2Proof.Machine

variable {s s' t t' u : State}

/-! ### One step between tokens -/

/-- What a step between tokens reads from a source: `INIT` before the loop, a token in it (R160). -/
def tokenRead (src : Source) (s : State) : Read Instr :=
  if s.fsm = .init then decodeInit src s.rd else decodeToken src s.cfg.gammaW s.lwm s.rd

theorem step_of_boundary (hb : atBoundary s) (hq : portsQuiet s) :
    step s = runFetched (liftRead s (tokenRead s.source s)) := by
  rw [step_of_quiet hq, tokenRead]
  rcases hb with hf | hf
  · rw [coreStep_of_init hf, if_pos hf, fetchInit]
  · rw [coreStep_of_b1 hf, if_neg (by rw [hf]; nofun), fetchToken]

theorem tokenRead_cutOf {src' src : Source} (h : src'.PrefixOf src) (hin : s.rd.inPtr ≤ src'.len) :
    Read.CutOf src' src (tokenRead src' s) (tokenRead src s) := by
  unfold tokenRead
  split
  · exact decodeInit_cutOf h hin
  · exact decodeToken_cutOf h hin

theorem fieldsOf_ne_nil (i : Instr) : fieldsOf i ≠ [] := by cases i <;> simp [fieldsOf]

/-- A token read has at least one field. -/
theorem tokenRead_got {src : Source} {i : Instr} {c : Cursor} (hw : s.cfg.wf) (h : tokenRead src s = .got i c) :
    readsAs src (fieldsOf i) s.rd = some c := by
  unfold tokenRead at h
  split at h
  · obtain ⟨l, rfl, hl⟩ := decodeInit_eq_got_iff.1 h
    exact hl
  · obtain ⟨-, -, -, hread⟩ := (decodeToken_eq_got_iff_readsAs hw).1 h
    exact hread

theorem portsLow_of_sameSetup (h : sameSetup s t) (hlow : portsLow s) : portsLow t := by
  obtain ⟨-, hports, -⟩ := h
  rw [portsLow, hports]
  exact hlow

theorem step_boundary_or_stopped (hb : atBoundary s) (hq : portsQuiet s) (h : step s = .next t) :
    atBoundary t ∨ stopped t := by
  rcases step_next_of_boundary hb hq h with hb1 | ⟨-, raw, c, -, rfl⟩ | hfail
  · exact .inl (.inr hb1)
  · exact .inr rfl
  · exact .inr hfail.stop

theorem step_of_stopped (hs : stopped s) (hlow : portsLow s) : step s = .next s :=
  (idleAndStopAreStable s hlow (.inr hs)).1

/-- The first transition of a run. -/
theorem iterate_next_succ {f : State → Host.Outcome State Fault Refusal} {n : Nat} (h : iterate f (n + 1) s = .next t) :
    ∃ u, f s = .next u ∧ iterate f n u = .next t := by
  cases hs : f s with
  | next u => exact ⟨u, rfl, (iterate_succ hs).symm.trans h⟩
  | fault r => simp [iterate, hs] at h
  | refused r => simp [iterate, hs] at h

/-! ### Every decode ends -/

/-- A step between tokens stops, or takes at least a bit of those left. -/
theorem step_stops_or_consumes (hinv : Inv s) (hb : atBoundary s) (hlow : portsLow s) (h : step s = .next t) :
    stopped t ∨ atBoundary t ∧ bitsLeft t + 1 ≤ bitsLeft s := by
  have hq := portsQuiet_of_low hlow
  obtain ⟨hw, -⟩ := hinv.width
  obtain ⟨hptr, -⟩ := hinv.position
  have hstep := (step_of_boundary hb hq).symm.trans h
  cases hr : tokenRead s.source s with
  | got i c =>
    rw [hr] at hstep
    obtain ⟨vs, hp⟩ := exec_progress (s := s.setReader c) hstep
    obtain ⟨-, -, -, hlenQ, -⟩ := hp.setup
    have hread := tokenRead_got hw hr
    have hrd : c = t.rd := readsAs_nil_iff.1 hp.reader
    obtain ⟨-, hbits⟩ := (readsAs_cursor hread).2.1 hptr
    have hfields := List.length_pos_of_ne_nil (fieldsOf_ne_nil i)
    have hleft : bitsLeft t = c.bitsLeft s.source := by rw [bitsLeft, ← hrd, hlenQ]; rfl
    have hleft' : bitsLeft s = s.rd.bitsLeft s.source := rfl
    rcases step_boundary_or_stopped hb hq h with hbt | hst
    · exact .inr ⟨hbt, by omega⟩
    · exact .inl hst
  | raised e c => rw [hr] at hstep; cases hstep; exact .inl rfl
  | noByte a => rw [hr] at hstep; cases hstep

theorem Inv.stops_within {b : Nat} (hinv : Inv s) (hb : atBoundary s) (hlow : portsLow s) (hbits : bitsLeft s ≤ b) :
    ∃ n t, n ≤ b + 1 ∧ iterate step n s = .next t ∧ stopped t := by
  induction b generalizing s with
  | zero =>
    obtain ⟨t, ht⟩ := (runningCoreNeverFaults s hinv (portsQuiet_of_low hlow)).1
    rcases step_stops_or_consumes hinv hb hlow ht with hst | ⟨-, hlt⟩
    · exact ⟨1, t, le_rfl, iterate_succ ht, hst⟩
    · omega
  | succ b ih =>
    obtain ⟨t, ht⟩ := (runningCoreNeverFaults s hinv (portsQuiet_of_low hlow)).1
    rcases step_stops_or_consumes hinv hb hlow ht with hst | ⟨hbt, hlt⟩
    · exact ⟨1, t, by omega, iterate_succ ht, hst⟩
    · obtain ⟨fs, vs, hp⟩ := step_progress (portsQuiet_of_low hlow) ht
      obtain ⟨n, u, hn, hrun, hst⟩ := ih (hinv.of_step ht) hbt (portsLow_of_sameSetup hp.setup hlow) (by omega)
      exact ⟨n + 1, u, by omega, (iterate_succ ht).trans hrun, hst⟩

/-- Settles O52: a step takes a bit, and with none left it stops. -/
theorem everyDecodeStops : Obligations.EveryDecodeStops := fun _ hinv hb hlow => hinv.stops_within hb hlow le_rfl

/-! ### Two decodes side by side -/

theorem SameDecode.setReader (h : SameDecode s s') (c : Cursor) : SameDecode (s.setReader c) (s'.setReader c) :=
  ⟨h.gammaW, h.outCap, h.bumps, h.input, h.strictQ, h.control, rfl, h.offset, h.flags, h.output⟩

theorem SameDecode.setLwm (h : SameDecode s s') (b : Bool) : SameDecode (s.setLwm b) (s'.setLwm b) :=
  ⟨h.gammaW, h.outCap, h.bumps, h.input, h.strictQ, h.control, h.reader, h.offset, ⟨rfl, h.flags.2⟩, h.output⟩

theorem SameDecode.commitMatch (h : SameDecode s s') (off : Nat) :
    SameDecode (s.commitMatch off) (s'.commitMatch off) :=
  ⟨h.gammaW, h.outCap, h.bumps, h.input, h.strictQ, h.control, h.reader, ⟨rfl, rfl⟩, ⟨rfl, h.flags.2⟩, h.output⟩

theorem SameDecode.leaveToken (h : SameDecode s s') (f : Fsm) : SameDecode (s.leaveToken f) (s'.leaveToken f) :=
  ⟨h.gammaW, h.outCap, h.bumps, h.input, h.strictQ, ⟨rfl, h.control.2⟩, h.reader, h.offset, h.flags, h.output⟩

theorem SameDecode.takeError (h : SameDecode s s') (e : ErrorKind) : SameDecode (s.takeError e) (s'.takeError e) := by
  refine ⟨h.gammaW, h.outCap, h.bumps, h.input, h.strictQ, ⟨rfl, ?_, rfl, ?_⟩, h.reader, h.offset, h.flags, h.output⟩
  · rw [State.takeError_status, State.takeError_status, h.strictQ]
  · rw [State.takeError_recovered, State.takeError_recovered, h.strictQ]

theorem SameDecode.endDecode (h : SameDecode s s') : SameDecode s.endDecode s'.endDecode :=
  ⟨h.gammaW, h.outCap, h.bumps, h.input, h.strictQ, ⟨rfl, rfl, rfl, rfl⟩, h.reader, ⟨rfl, rfl⟩, ⟨rfl, rfl⟩, h.output⟩

theorem outByte_storeOut (v : Byte) (s : State) (a : Nat) :
    (s.storeOut v).outByte a = if a = s.outLen then v else s.outByte a := by
  split
  · next h => rw [h]; exact outByte_of_read (Memory.read_write_same _ _ _)
  · next h => exact outByte_congr (Memory.read_write_other _ _ h)

theorem SameDecode.storeOut (h : SameDecode s s') (v : Byte) : SameDecode (s.storeOut v) (s'.storeOut v) := by
  obtain ⟨hlen, hbytes⟩ := h.output
  refine ⟨h.gammaW, h.outCap, h.bumps, h.input, h.strictQ, h.control, h.reader, h.offset, h.flags,
    congrArg (· + 1) hlen, fun a ha => ?_⟩
  rw [State.storeOut_outLen] at ha
  rw [outByte_storeOut, outByte_storeOut, hlen]
  split
  · rfl
  · exact hbytes a (by omega)

/-- Two operations end alike: with the same value or the same error, in states of the same decode. -/
def Res.Same {α : Type} : Res α → Res α → Prop
  | .ok v s, .ok v' s' => v = v' ∧ SameDecode s s'
  | .raised e s, .raised e' s' => e = e' ∧ SameDecode s s'
  | .fault _, .fault _ => True
  | _, _ => False

theorem append_same (h : SameDecode s s') (v : Byte) : (append v s).Same (append v s') := by
  obtain ⟨hlen, -⟩ := h.output
  unfold append
  rw [← hlen, ← h.outCap]
  split
  · exact ⟨rfl, h⟩
  · split
    · exact ⟨rfl, h.storeOut v⟩
    · trivial

theorem copyByte_same {off : Nat} (h : SameDecode s s') (hoff : 1 ≤ off) (hle : off ≤ s.outLen) :
    (copyByte off s).Same (copyByte off s') := by
  obtain ⟨hlen, hbytes⟩ := h.output
  unfold copyByte readOutByte
  rw [← hlen, ← h.outCap, ← hbytes (s.outLen - off) (by omega)]
  split
  · exact append_same h _
  · trivial

theorem copyLoop_same {off : Nat} (n : Nat) (h : SameDecode s s') (hoff : 1 ≤ off) (hle : off ≤ s.outLen) :
    (copyLoop off n s).Same (copyLoop off n s') := by
  induction n generalizing s s' with
  | zero => exact ⟨rfl, h⟩
  | succ n ih =>
    have hbyte := copyByte_same h hoff hle
    rw [copyLoop, copyLoop]
    cases hr : copyByte off s <;> cases hr' : copyByte off s' <;> rw [hr, hr'] at hbyte
    case ok.ok _ u _ u' =>
      obtain ⟨-, rfl⟩ := copyByte_ok hr
      exact ih hbyte.2 (hle.trans (Nat.le_succ _))
    case raised.raised => exact hbyte
    case fault.fault => trivial
    all_goals exact hbyte.elim

theorem backRef_same {off : Nat} (n : Nat) (valid : Bool) (h : SameDecode s s') :
    (backRef off n valid s).Same (backRef off n valid s') := by
  obtain ⟨hlen, -⟩ := h.output
  by_cases hbad : badOffset off valid s
  · have hbad' : badOffset off valid s' := by rwa [badOffset, ← hlen]
    rw [backRef, backRef, if_pos hbad, if_pos hbad', hlen]
    exact ⟨rfl, h⟩
  · have hbad' : ¬ badOffset off valid s' := by rwa [badOffset, ← hlen]
    rw [backRef, backRef, if_neg hbad, if_neg hbad']
    simp only [badOffset, not_or, Nat.not_lt] at hbad
    obtain ⟨-, hoff, hle⟩ := hbad
    exact copyLoop_same n h (Nat.pos_of_ne_zero hoff) hle

theorem SameDecode.tokenWrites (h : SameDecode s s') (i : Instr) (hu : SameDecode u t) :
    SameDecode (tokenWrites s i u) (tokenWrites s' i t) := by
  obtain ⟨hlwm, -⟩ := h.flags
  cases i with
  | init l => exact hu
  | lit l => exact hu.setLwm false
  | gmatch g lo n => simp only [Machine.tokenWrites, ← hlwm]; exact hu.commitMatch _
  | repmatch n => exact hu.setLwm true
  | smatch raw => exact hu.commitMatch _
  | endMark raw => exact hu
  | nmatch nib => exact hu.setLwm false
  | zlit => exact hu.setLwm false

theorem finishToken_same {writes writes' : State → State} {r r' : Res Unit} (hr : r.Same r')
    (hw : ∀ u u', SameDecode u u' → SameDecode (writes u) (writes' u')) (ht : finishToken writes r = .next t)
    (ht' : finishToken writes' r' = .next t') : SameDecode t t' := by
  cases r <;> cases r'
  case ok.ok => cases ht; cases ht'; exact (hw _ _ hr.2).leaveToken .b1
  case raised.raised =>
    obtain ⟨rfl, hsame⟩ := hr
    cases ht
    cases ht'
    exact hsame.takeError _
  case fault.fault => cases ht
  all_goals exact hr.elim

theorem copyOf_same (h : SameDecode s s') (i : Instr) : copyOf i s' = copyOf i s := by
  obtain ⟨hA, hB, hC⟩ := h.bumps
  have hbump (off : Nat) : bump s'.cfg off = bump s.cfg off := by rw [bump, bump, hA, hB, hC]
  cases i <;> simp only [copyOf, gmatchLen, hbump, h.flags.1, h.offset.1]

theorem copyValid_same (h : SameDecode s s') (i : Instr) : copyValid s' i = copyValid s i := by
  cases i <;> simp only [copyValid, h.offset.2]

theorem exec_same {i : Instr} (h : SameDecode s s') (ht : exec i s = .next t) (ht' : exec i s' = .next t') :
    SameDecode t t' := by
  have hwrites (u u' : State) (hu : SameDecode u u') := h.tokenWrites i hu
  rcases instr_cases i s with ⟨raw, rfl⟩ | ⟨v, hv⟩ | ⟨off, len, hcopy⟩
  · cases ht
    cases ht'
    exact h.endDecode
  · rw [exec_of_appendedByte hv] at ht ht'
    exact finishToken_same (append_same h v) hwrites ht ht'
  · rw [exec_of_copyOf hcopy] at ht
    rw [exec_of_copyOf ((copyOf_same h i).trans hcopy), copyValid_same h i] at ht'
    exact finishToken_same (backRef_same len _ h) hwrites ht ht'

/-- The input of the two decodes is the same source, as far as a decode may read it. -/
theorem SameDecode.prefixOf (h : SameDecode s s') (hs : s.inLenQ ≤ s.cfg.inCap) (hs' : s'.inLenQ ≤ s'.cfg.inCap) :
    s.source.PrefixOf s'.source := by
  obtain ⟨hlen, hbytes⟩ := h.input
  refine ⟨hlen.le, fun a ha => ?_⟩
  change a < s.inLenQ at ha
  rw [source_byte_of_lt (by omega), source_byte_of_lt (by omega), hbytes a ha]

theorem tokenRead_congr (src : Source) (hgammaW : s'.cfg.gammaW = s.cfg.gammaW) (hfsm : s'.fsm = s.fsm)
    (hrd : s'.rd = s.rd) (hlwm : s'.lwm = s.lwm) : tokenRead src s' = tokenRead src s := by
  rw [tokenRead, tokenRead, hgammaW, hfsm, hrd, hlwm]

theorem SameDecode.tokenRead (h : SameDecode s s') (hinv : Inv s) (hinv' : Inv s') :
    tokenRead s'.source s' = tokenRead s.source s := by
  obtain ⟨hptr, hlen, -⟩ := hinv.position
  obtain ⟨-, hlen', -⟩ := hinv'.position
  rw [tokenRead_congr s'.source h.gammaW.symm h.control.1.symm h.reader.symm h.flags.1.symm]
  rcases (tokenRead_cutOf (s := s) (h.prefixOf hlen hlen') hptr).same with heq | ⟨hne, -⟩
  · exact heq.symm
  · exact absurd h.input.1 hne

/-- One step of two cores of the same decode. -/
theorem step_same (h : SameDecode s s') (hinv : Inv s) (hinv' : Inv s') (hb : atBoundary s) (hq : portsQuiet s)
    (hq' : portsQuiet s') (ht : step s = .next t) (ht' : step s' = .next t') : SameDecode t t' := by
  have hb' : atBoundary s' := by rwa [atBoundary, ← h.control.1]
  rw [step_of_boundary hb hq] at ht
  rw [step_of_boundary hb' hq', h.tokenRead hinv hinv'] at ht'
  cases hr : Machine.tokenRead s.source s with
  | got i c =>
    rw [hr] at ht ht'
    exact exec_same (h.setReader c) ht ht'
  | raised e c =>
    rw [hr] at ht ht'
    cases ht
    cases ht'
    exact (h.setReader c).takeError e
  | noByte a => rw [hr] at ht; cases ht

theorem iterate_same {n : Nat} (h : SameDecode s s') (hinv : Inv s) (hinv' : Inv s') (hb : atBoundary s ∨ stopped s)
    (hlow : portsLow s) (hlow' : portsLow s') (ht : iterate step n s = .next t) (ht' : iterate step n s' = .next t') :
    SameDecode t t' := by
  induction n generalizing s s' with
  | zero => cases ht; cases ht'; exact h
  | succ n ih =>
    have hq := portsQuiet_of_low hlow
    have hq' := portsQuiet_of_low hlow'
    rcases hb with hb | hs
    · obtain ⟨u, hu, ht⟩ := iterate_next_succ ht
      obtain ⟨u', hu', ht'⟩ := iterate_next_succ ht'
      obtain ⟨_, _, hp⟩ := step_progress hq hu
      obtain ⟨_, _, hp'⟩ := step_progress hq' hu'
      exact ih (step_same h hinv hinv' hb hq hq' hu hu') (hinv.of_step hu) (hinv'.of_step hu')
        (step_boundary_or_stopped hb hq hu) (portsLow_of_sameSetup hp.setup hlow)
        (portsLow_of_sameSetup hp'.setup hlow') ht ht'
    · have hs' : stopped s' := h.control.1.symm.trans hs
      cases (iterate_of_stable (step_of_stopped hs hlow) _).symm.trans ht
      cases (iterate_of_stable (step_of_stopped hs' hlow') _).symm.trans ht'
      exact h

/-- Settles O53: the fact about one step, along the run. -/
theorem decodeDependsOnItsInputAlone : Obligations.DecodeDependsOnItsInputAlone :=
  fun _ _ _ _ _ hinv hinv' h hb hlow hlow' ht ht' => iterate_same h hinv hinv' (.inl hb) hlow hlow' ht ht'

/-! ### A cut input -/

theorem tokenBlind_cutInput (k : Nat) : TokenBlind (State.cutInput k) where
  cfg _             := rfl
  outLen _          := rfl
  outMem _          := rfl
  storeOut _ _      := rfl
  lwm _             := rfl
  lastOffset _      := rfl
  lastOffsetValid _ := rfl
  setLwm _ _        := rfl
  setLastOffset _ _ := rfl
  leaveToken _ _    := rfl
  takeError _ _     := rfl
  endDecode _       := rfl

theorem cutInput_prefixOf {k : Nat} (hk : k ≤ s.inLenQ) : (s.cutInput k).source.PrefixOf s.source :=
  ⟨hk, fun _ _ => rfl⟩

/-- A step of the cut decode is the step of the whole one, or the cut decode stops there with the output so far. -/
theorem step_cutInput {k : Nat} (hb : atBoundary s) (hq : portsQuiet s) (hptr : s.rd.inPtr ≤ k) (hk : k ≤ s.inLenQ) :
    step (s.cutInput k) = mapNext (State.cutInput k) (step s) ∨
    ∃ t, step (s.cutInput k) = .next t ∧ stopped t ∧ sameOutput s t := by
  rw [step_of_boundary (s := s.cutInput k) hb hq, step_of_boundary hb hq]
  rcases (tokenRead_cutOf (s := s) (cutInput_prefixOf hk) hptr).same with heq | ⟨-, e, d, hraised⟩
  · left
    rw [← runFetched_map (tokenBlind_cutInput k) (fun _ _ => rfl), ← heq]
    rfl
  · right
    have hcut : Machine.tokenRead (s.cutInput k).source (s.cutInput k) = .raised e d := hraised
    rw [hcut]
    exact ⟨_, rfl, rfl, rfl, rfl⟩

theorem Inv.cutInput {k : Nat} (h : Inv s) (hptr : s.rd.inPtr ≤ k) (hk : k ≤ s.inLenQ) : Inv (s.cutInput k) := by
  obtain ⟨-, hlen, hrest⟩ := h.position
  exact ⟨h.memory, ⟨hptr, hk.trans hlen, hrest⟩, h.width, h.status, h.offset, h.fields, h.copies⟩

theorem Progress.outputPrefix {fs : List Field} {vs : List Byte} (h : Progress fs vs s t) : outputPrefix s t :=
  ⟨h.outLen_le, fun a ha => (outByte_congr (h.sameOutside a (.inl ha))).symm⟩

theorem outputPrefix_trans (h : outputPrefix s t) (h' : outputPrefix t u) : outputPrefix s u :=
  ⟨h.1.trans h'.1, fun a ha => (h.2 a ha).trans (h'.2 a (ha.trans_le h.1))⟩

/-- Along a run the setup stays, the invariant is kept, and the output grows. -/
theorem iterate_step_progress {n : Nat} (hinv : Inv s) (hlow : portsLow s) (h : iterate step n s = .next t) :
    Inv t ∧ sameSetup s t ∧ outputPrefix s t := by
  induction n generalizing s with
  | zero => cases h; exact ⟨hinv, sameSetup_refl _, le_rfl, fun _ _ => rfl⟩
  | succ n ih =>
    obtain ⟨u, hu, h⟩ := iterate_next_succ h
    obtain ⟨fs, vs, hp⟩ := step_progress (portsQuiet_of_low hlow) hu
    obtain ⟨hinvt, hsetup, hout⟩ := ih (hinv.of_step hu) (portsLow_of_sameSetup hp.setup hlow) h
    exact ⟨hinvt, sameSetup_trans hp.setup hsetup, outputPrefix_trans hp.outputPrefix hout⟩

/-- A run from a stopped core has the output that it stopped with. -/
theorem outputPrefix_of_stopped {n : Nat} (hs : stopped s) (hlow : portsLow s) (ht : iterate step n s = .next t)
    (hsame : sameOutput s' s) (hout : outputPrefix s' u) : outputPrefix t u := by
  obtain ⟨hlen, hmem⟩ := hsame
  cases (iterate_of_stable (step_of_stopped hs hlow) _).symm.trans ht
  refine ⟨hlen.trans_le hout.1, fun a ha => ?_⟩
  rw [← hout.2 a (hlen ▸ ha)]
  exact outByte_congr (by rw [hmem])

/-- The output of the cut decode's run begins the whole one's: they go in step until the cut one stops. -/
theorem outputPrefix_of_cutInput {k m n : Nat} (hinv : Inv s) (hb : atBoundary s ∨ stopped s) (hlow : portsLow s)
    (hptr : s.rd.inPtr ≤ k) (hk : k ≤ s.inLenQ) (ht : iterate step m (s.cutInput k) = .next t) (hst : stopped t)
    (hu : iterate step n s = .next u) (hsu : stopped u) : outputPrefix t u := by
  induction m generalizing s n with
  | zero =>
    cases ht
    obtain ⟨-, -, hout⟩ := iterate_step_progress hinv hlow hu
    exact hout
  | succ m ih =>
    obtain ⟨-, -, hout⟩ := iterate_step_progress hinv hlow hu
    rcases hb with hb | hs
    · have hq := portsQuiet_of_low hlow
      obtain ⟨v, hv, hrest⟩ := iterate_next_succ ht
      obtain ⟨_, _, hpv⟩ := step_progress (s := s.cutInput k) hq hv
      rcases step_cutInput hb hq hptr hk with hsame | ⟨v', hv', hstop, hsame⟩
      · cases n with
        | zero => cases hu; rcases hb with hf | hf <;> cases hf.symm.trans hsu
        | succ n =>
          obtain ⟨w, hw, hu⟩ := iterate_next_succ hu
          rw [hv, hw] at hsame
          cases hsame
          obtain ⟨_, _, hpw⟩ := step_progress hq hw
          obtain ⟨-, -, -, hlenQ, -⟩ := hpw.setup
          obtain ⟨hptrw, -⟩ := ((hinv.cutInput hptr hk).of_step hv).position
          exact ih (hinv.of_step hw) (step_boundary_or_stopped hb hq hw) (portsLow_of_sameSetup hpw.setup hlow) hptrw
            (hlenQ ▸ hk) hrest hu
      · cases hv.symm.trans hv'
        exact outputPrefix_of_stopped hstop (portsLow_of_sameSetup hpv.setup hlow) hrest hsame hout
    · exact outputPrefix_of_stopped (s := s.cutInput k) hs hlow ht ⟨rfl, rfl⟩ hout

/-- A recorded error in strict mode is status ERROR. -/
theorem Inv.status_error (h : Inv s) (herr : s.errCode ≠ .none) (hstrict : s.strictQ = true) : s.status = .error := by
  obtain ⟨-, -, -, hrecovered, hended, -, hlenient⟩ := h.status
  rcases hended herr with hdone | herror
  · cases (hlenient (hrecovered.2 ⟨hdone, herr⟩)).symm.trans hstrict
  · exact herror

/-- Settles O54: the two runs go in step until the cut one stops, and the invariant gives the status of its end. -/
theorem cutInputGivesAPrefix : Obligations.CutInputGivesAPrefix := by
  intro s t u k m n hinv hb hlow hptr hk ht hst hu hsu
  refine ⟨outputPrefix_of_cutInput hinv (.inl hb) hlow hptr hk ht hst hu hsu, fun herr hstrict => ?_⟩
  obtain ⟨hinvt, ⟨-, -, hstrictQ, -, -⟩, -⟩ := iterate_step_progress (s := s.cutInput k) (hinv.cutInput hptr hk) hlow ht
  exact hinvt.status_error (by rw [herr]; nofun) (hstrictQ.trans hstrict)

end Sys2Proof.Machine
end

section
/-! PROOFS. The working registers (I3, log 5): a token reads only those that it has written. For each control state the
registers still to be read are named; two cores that agree on them go on alike, and at the end of the token they are
equal, since it draws every working register afresh. -/

namespace Sys2Proof.Machine

variable {s t u : State} {w : Work} {m m' : Res Unit}

/-- Agreement on the mode of a gamma-coded token, and on the offset of a `GMATCH`. -/
def AgreeOnGammaMode (w w' : Work) : Prop :=
  w'.mode = w.mode ∧ gammaMode w ∧ (w.mode = .gm → w'.off = w.off)

/-- Agreement on the working registers that a core in a control state may still read. Outside a token it is equality:
there the registers are drawn. -/
def LiveAgree (w w' : Work) : Fsm → Prop
  | .idle => w' = w
  | .init => w' = w
  | .b1 => w' = w
  | .stop => w' = w
  | .lit => True
  | .b2 => True
  | .b3 => True
  | .sraw => True
  | .zlit => True
  | .nib => w'.nib = w.nib ∧ w'.nibCnt = w.nibCnt
  | .gd => w'.gAcc = w.gAcc ∧ w'.gsel = w.gsel ∧ (w.gsel = .len → AgreeOnGammaMode w w')
  | .gc => w'.gAcc = w.gAcc ∧ w'.gsel = w.gsel ∧ (w.gsel = .len → AgreeOnGammaMode w w')
  | .gsel => w'.gAcc = w.gAcc
  | .glo => w'.high = w.high ∧ w'.mode = w.mode ∧ w.mode = .gm
  | .glen => w'.gAcc = w.gAcc ∧ AgreeOnGammaMode w w'
  | .chk => w'.off = w.off ∧ w'.len = w.len ∧ w'.ovalid = w.ovalid ∧ w'.mode = w.mode
  | .copy => w'.off = w.off ∧ w'.cnt = w.cnt ∧ w'.mode = w.mode
  | .fin => w'.off = w.off ∧ w'.mode = w.mode

/-- The second result ends as the first does, but for working registers that are not read any more. -/
def EndsAlike (m m' : Res Unit) : Prop :=
  ∀ t, settle m = .next t → ∃ w, settle m' = .next (t.setWork w) ∧ LiveAgree t.work w t.fsm

theorem endsAlike_ok (h : LiveAgree u.work w u.fsm) : EndsAlike (.ok () u) (.ok () (u.setWork w)) := by
  intro t ht
  cases ht
  exact ⟨w, rfl, h⟩

/-- The end of a token draws the working registers, so nothing of them is left. -/
theorem endsAlike_leaveToken (w : Work) (u : State) :
    EndsAlike (.ok () (u.leaveToken .b1)) (.ok () ((u.setWork w).leaveToken .b1)) :=
  endsAlike_ok (u := u.leaveToken .b1) rfl

theorem endsAlike_raised {e e' : ErrorKind} (he : e' = e) : EndsAlike (.raised e u) (.raised e' (u.setWork w)) := by
  intro t ht
  cases ht
  subst he
  exact ⟨(u.takeError e').work, rfl, rfl⟩

theorem endsAlike_bind {α : Type} {r r' : Res α} {k : α → State → Res Unit} (hr : r' = r.map (State.setWork w))
    (hk : ∀ v u, r = .ok v u → EndsAlike (k v u) (k v (u.setWork w))) : EndsAlike (r.bind k) (r'.bind k) := by
  subst hr
  cases r with
  | ok v u => exact hk v u rfl
  | raised e u => exact endsAlike_raised rfl
  | fault f => exact fun t ht => by cases ht

/-- The two results take the same branch. -/
theorem endsAlike_ite {p p' : Prop} {i : Decidable p} {j : Decidable p'} {n n' : Res Unit} (hp : p' ↔ p)
    (hm : EndsAlike m m') (hn : EndsAlike n n') : EndsAlike (@ite _ p i m n) (@ite _ p' j m' n') := by
  by_cases h : p
  · rw [if_pos h, if_pos (hp.2 h)]
    exact hm
  · rw [if_neg h, if_neg (mt hp.1 h)]
    exact hn

theorem outputBlind_setWork (w : Work) : OutputBlind (State.setWork w) :=
  ⟨fun _ => rfl, fun _ => rfl, fun _ => rfl, fun _ _ => rfl⟩

theorem nextBit_setWork (w : Work) (s : State) : nextBit (s.setWork w) = (nextBit s).map (State.setWork w) :=
  liftRead_map (fun _ _ => rfl) s (readBit s.source s.rd)

theorem nextByte_setWork (w : Work) (s : State) : nextByte (s.setWork w) = (nextByte s).map (State.setWork w) :=
  liftRead_map (fun _ _ => rfl) s (readByte s.source s.rd)

theorem copyLiteral_one_setWork (w : Work) (s : State) :
    copyLiteral 1 (s.setWork w) = (copyLiteral 1 s).map (State.setWork w) :=
  copyLiteral_one_map (outputBlind_setWork w) (nextByte_setWork w s)

/-! ### One micro-step -/

theorem endsAlike_readBit {k : Bool → State → Res Unit}
    (hk : ∀ b c, EndsAlike (k b (s.setReader c)) (k b ((s.setReader c).setWork w))) :
    EndsAlike ((nextBit s).bind k) ((nextBit (s.setWork w)).bind k) := by
  refine endsAlike_bind (nextBit_setWork w s) fun b u hu => ?_
  obtain ⟨c, -, rfl⟩ := nextBit_ok hu
  exact hk b c

theorem endsAlike_readByte {k : Byte → State → Res Unit}
    (hk : ∀ v c, EndsAlike (k v (s.setReader c)) (k v ((s.setReader c).setWork w))) :
    EndsAlike ((nextByte s).bind k) ((nextByte (s.setWork w)).bind k) := by
  refine endsAlike_bind (nextByte_setWork w s) fun v u hu => ?_
  obtain ⟨c, -, rfl⟩ := nextByte_ok hu
  exact hk v c

theorem endsAlike_init : EndsAlike (microInit s) (microInit (s.setWork w)) :=
  endsAlike_bind (copyLiteral_one_setWork w s) fun _ u _ => endsAlike_leaveToken w u

theorem endsAlike_b1 : EndsAlike (microB1 s) (microB1 (s.setWork w)) :=
  endsAlike_readBit fun b c => by cases b <;> exact endsAlike_ok (u := (s.setReader c).goto _) trivial

theorem endsAlike_lit : EndsAlike (microLit s) (microLit (s.setWork w)) :=
  endsAlike_bind (copyLiteral_one_setWork w s) fun _ u _ => endsAlike_leaveToken w (u.setLwm false)

theorem endsAlike_b2 : EndsAlike (microB2 s) (microB2 (s.setWork w)) := by
  refine endsAlike_readBit fun b c => ?_
  cases b with
  | false => exact endsAlike_ok (u := (s.setReader c).startGamma .off) ⟨rfl, rfl, nofun⟩
  | true => exact endsAlike_ok (u := (s.setReader c).goto .b3) trivial

theorem endsAlike_b3 : EndsAlike (microB3 s) (microB3 (s.setWork w)) := by
  refine endsAlike_readBit fun b c => ?_
  cases b with
  | false => exact endsAlike_ok (u := (s.setReader c).goto .sraw) trivial
  | true =>
    exact endsAlike_ok (u := ((s.setReader c).setWork { s.work with nib := 0#4, nibCnt := 0#3 }).goto .nib) ⟨rfl, rfl⟩

theorem endsAlike_sraw : EndsAlike (microSraw s) (microSraw (s.setWork w)) :=
  endsAlike_readByte fun _ c => endsAlike_ite .rfl (endsAlike_ok (u := (s.setReader c).endDecode) rfl)
    (endsAlike_ok ⟨rfl, rfl, rfl, rfl⟩)

/-- `S_NIB` after its bit: it stays for the next bit, or leaves with all that the next state reads. -/
theorem endsAlike_afterNibbleBit (hf : u.fsm = .nib) (h : LiveAgree u.work w .nib) :
    EndsAlike (.ok () u.afterNibbleBit) (.ok () (u.setWork w).afterNibbleBit) := by
  have hlive := h
  obtain ⟨hnib, hcnt⟩ := h
  simp only [State.afterNibbleBit, State.setWork_work, hnib, hcnt]
  by_cases hlt : u.work.nibCnt < 4#3
  · rw [if_pos hlt, if_pos hlt]
    exact endsAlike_ok (by rw [hf]; exact hlive)
  · rw [if_neg hlt, if_neg hlt]
    by_cases hzero : u.work.nib = 0#4
    · rw [if_pos hzero, if_pos hzero]
      exact endsAlike_ok (u := u.goto .zlit) trivial
    · rw [if_neg hzero, if_neg hzero]
      exact endsAlike_ok ⟨rfl, rfl, rfl, rfl⟩

theorem endsAlike_nib (hf : s.fsm = .nib) (h : LiveAgree s.work w .nib) :
    EndsAlike (microNib s) (microNib (s.setWork w)) := by
  obtain ⟨hnib, hcnt⟩ := h
  refine endsAlike_readBit fun b c => endsAlike_afterNibbleBit hf ⟨?_, ?_⟩
  · exact congrArg (nibShiftIn · b) hnib
  · exact congrArg (· + 1#3) hcnt

theorem endsAlike_zlit : EndsAlike (microZlit s) (microZlit (s.setWork w)) :=
  endsAlike_bind (append_map (outputBlind_setWork w) 0#8 s) fun _ u _ => endsAlike_leaveToken w (u.setLwm false)

theorem endsAlike_gd (h : LiveAgree s.work w .gd) : EndsAlike (microGd s) (microGd (s.setWork w)) := by
  obtain ⟨hacc, hsel⟩ := h
  refine endsAlike_readBit fun b c => endsAlike_ite ?_ (endsAlike_raised rfl)
    (endsAlike_ok (u := State.goto .gc _) ⟨congrArg (shiftIn · b) hacc, hsel⟩)
  change gammaFull s.cfg.gammaW w.gAcc ↔ gammaFull s.cfg.gammaW s.work.gAcc
  rw [hacc]

theorem endsAlike_gc (h : LiveAgree s.work w .gc) : EndsAlike (microGc s) (microGc (s.setWork w)) := by
  have hlive := h
  obtain ⟨hacc, hsel, hmode⟩ := h
  refine endsAlike_readBit fun more c => ?_
  rw [show ((s.setReader c).setWork w).work.gsel = (s.setReader c).work.gsel from hsel]
  refine endsAlike_ok (u := (s.setReader c).goto _) ?_
  cases more with
  | true => exact hlive
  | false =>
    change LiveAgree s.work w (gammaExit s.work.gsel)
    cases hg : s.work.gsel with
    | off => exact hacc
    | len => exact ⟨hacc, hmode hg⟩

theorem endsAlike_gsel (h : LiveAgree s.work w .gsel) : EndsAlike (microGsel s) (microGsel (s.setWork w)) := by
  have hacc : w.gAcc = s.work.gAcc := h
  refine endsAlike_ite ?_
    (endsAlike_ok (u := (s.setWork { s.work with mode := .rep }).startGamma .len)
      ⟨rfl, rfl, fun _ => ⟨rfl, .inr rfl, nofun⟩⟩)
    (endsAlike_ok (u := State.goto .glo _) ⟨congrArg (highOf s.lwm) hacc, rfl, rfl⟩)
  change s.lwm = false ∧ w.gAcc = 2 ↔ s.lwm = false ∧ s.work.gAcc = 2
  rw [hacc]

theorem endsAlike_glo (h : LiveAgree s.work w .glo) : EndsAlike (microGlo s) (microGlo (s.setWork w)) := by
  obtain ⟨hhigh, hmode, hgm⟩ := h
  refine endsAlike_readByte fun lo c => endsAlike_ok (u := State.startGamma .len _)
    ⟨rfl, rfl, fun _ => ⟨hmode, .inl hgm, fun _ => ?_⟩⟩
  exact congrArg (offsetOf · lo) hhigh

theorem endsAlike_glen (h : LiveAgree s.work w .glen) : EndsAlike (microGlen s) (microGlen (s.setWork w)) := by
  obtain ⟨hacc, hmode, hgamma, hoff⟩ := h
  refine endsAlike_ok (u := (s.setWork (glenWork s)).goto .chk) (w := glenWork (s.setWork w)) ?_
  change LiveAgree (glenWork s) (glenWork (s.setWork w)) .chk
  rcases hgamma with hm | hm
  · rw [glenWork_of_gm hm, glenWork_of_gm (hmode.trans hm), State.setWork_work, State.setWork_cfg, hacc, hoff hm]
    exact ⟨hoff hm, rfl, rfl, hmode⟩
  · rw [glenWork_of_rep hm, glenWork_of_rep (hmode.trans hm)]
    exact ⟨rfl, hacc, rfl, hmode⟩

theorem endsAlike_chk (h : LiveAgree s.work w .chk) : EndsAlike (microChk s) (microChk (s.setWork w)) := by
  obtain ⟨hoff, hlen, hvalid, hmode⟩ := h
  refine endsAlike_ite ?_ (endsAlike_raised (congrArg (ErrorKind.invalidBackRef · s.outLen) hoff))
    (endsAlike_ok (u := State.goto .copy _) ⟨hoff, hlen, hmode⟩)
  change badOffset w.off w.ovalid s ↔ badOffset s.work.off s.work.ovalid s
  rw [hoff, hvalid]

theorem endsAlike_countDown (h : LiveAgree u.work w .copy) :
    EndsAlike (.ok () u.countDown) (.ok () (u.setWork w).countDown) := by
  obtain ⟨hoff, hcnt, hmode⟩ := h
  rw [State.countDown, State.countDown, State.setWork_work, hcnt]
  refine endsAlike_ok (u := (u.setWork _).goto _) ?_
  change LiveAgree { u.work with cnt := u.work.cnt - 1 } { w with cnt := u.work.cnt - 1 }
    (if u.work.cnt - 1 ≠ 0 then .copy else .fin)
  split
  · exact ⟨hoff, rfl, hmode⟩
  · exact ⟨hoff, hmode⟩

theorem endsAlike_copy (h : LiveAgree s.work w .copy) : EndsAlike (microCopy s) (microCopy (s.setWork w)) := by
  have hoff : w.off = s.work.off := h.1
  rw [microCopy, microCopy, State.setWork_work, hoff]
  refine endsAlike_bind (copyByte_map (outputBlind_setWork w) _ s) fun _ u hu => ?_
  obtain ⟨-, rfl⟩ := copyByte_ok hu
  exact endsAlike_countDown (u := s.storeOut _) h

theorem endsAlike_fin (h : LiveAgree s.work w .fin) : EndsAlike (microFin s) (microFin (s.setWork w)) := by
  obtain ⟨hoff, hmode⟩ := h
  have hwrites : (s.setWork w).finWrites.leaveToken .b1 = s.finWrites.leaveToken .b1 := by
    rw [finWrites_eq, finWrites_eq, State.setWork_work, hoff, hmode]
    exact modeWrites_leaveToken _ _ s.fsm w s
  rw [microFin, microFin, hwrites]
  exact endsAlike_ok (u := s.finWrites.leaveToken .b1) rfl

/-- Between tokens the working registers may differ in any way; inside one, those still to be read agree. -/
theorem endsAlike_microRes (h : atBoundary s ∨ LiveAgree s.work w s.fsm) :
    EndsAlike (microRes s) (microRes (s.setWork w)) := by
  rw [microRes_eq_microOf, microRes_eq_microOf, State.setWork_fsm]
  rcases h with (hf | hf) | h
  · rw [hf]; exact endsAlike_init
  · rw [hf]; exact endsAlike_b1
  cases hf : s.fsm <;> rw [hf] at h
  case idle => cases h; exact endsAlike_ok (by rw [hf]; rfl)
  case stop => cases h; exact endsAlike_ok (by rw [hf]; rfl)
  case init => exact endsAlike_init
  case b1 => exact endsAlike_b1
  case lit => exact endsAlike_lit
  case b2 => exact endsAlike_b2
  case b3 => exact endsAlike_b3
  case sraw => exact endsAlike_sraw
  case nib => exact endsAlike_nib hf h
  case zlit => exact endsAlike_zlit
  case gd => exact endsAlike_gd h
  case gc => exact endsAlike_gc h
  case gsel => exact endsAlike_gsel h
  case glo => exact endsAlike_glo h
  case glen => exact endsAlike_glen h
  case chk => exact endsAlike_chk h
  case copy => exact endsAlike_copy h
  case fin => exact endsAlike_fin h

/-! ### Runs -/

theorem iterate_microStep_setWork {n : Nat} (h : atBoundary s ∧ 0 < n ∨ LiveAgree s.work w s.fsm)
    (hrun : iterate microStep n s = .next t) :
    ∃ w', iterate microStep n (s.setWork w) = .next (t.setWork w') ∧ LiveAgree t.work w' t.fsm := by
  induction n generalizing s w with
  | zero =>
    cases hrun
    rcases h with ⟨-, hn⟩ | h
    · exact absurd hn (Nat.lt_irrefl 0)
    · exact ⟨w, rfl, h⟩
  | succ n ih =>
    obtain ⟨u, hu, hrest⟩ := iterate_next_succ hrun
    obtain ⟨w', hu', hlive⟩ := endsAlike_microRes (h.imp_left And.left) u hu
    obtain ⟨w'', hrun', hlive'⟩ := ih (.inr hlive) hrest
    exact ⟨w'', (iterate_succ hu').trans hrun', hlive'⟩

/-- Settles O55: where the run ends, agreement is equality. -/
theorem workingRegistersAreWrittenFirst : Obligations.WorkingRegistersAreWrittenFirst := by
  intro s t w n hb hn hrun hend
  obtain ⟨w', hrun', hlive⟩ := iterate_microStep_setWork (w := w) (.inl ⟨hb, hn⟩) hrun
  have hw : w' = t.work := by rcases hend with hf | hf <;> rwa [hf] at hlive
  rw [hw] at hrun'
  exact hrun'

end Sys2Proof.Machine
end
